-- ==== Sys2Proof/Word.lean ====
section
/-! DEFINITION. The word types of the engine (00_scope.md R5, R8): every value is an unsigned bit vector of a stated width.
Counts, lengths and microseconds are natural numbers. -/

namespace Sys2Proof

/-- `u8`: one byte of a buffer, of the target's memory, of a response or of a payload frame (R8, R60). -/
abbrev Byte := BitVec 8

/-- `u9`: one 9-bit frame in arrival order, first arrival in bit 8, the trailer in bit 0 (30_encoding.md R95, R96). -/
abbrev Frame9 := BitVec 9

/-- `u16`: a device id (R22). -/
abbrev DeviceId := BitVec 16

/-- `u18`: a unified address or the parameter field of a command word (R60, R91). -/
abbrev Addr18 := BitVec 18

/-- `u24`: a command word or a literal word (R90). -/
abbrev Word24 := BitVec 24

/-- `u32`: the type the source gives to an address or parameter operand (R92, R285). -/
abbrev Word32 := BitVec 32

end Sys2Proof
end

