-- ==== Sys2Proof/Syntax.lean ====
section
/-! DEFINITION. The instruction set: one constructor of `Instr` for each of the 52 rows of spec/opcode_table.json
(eight wire words, two frame formats, seventeen host operations, fifteen internal primitives, ten pure functions). -/

namespace Sys2Proof

/-- A timing profile: the pair of microsecond delays of one operation class (10_state.md R34). -/
structure Profile where
  setup : Nat
  hold  : Nat
deriving DecidableEq, Repr

/-- A CompareResult: exactly three Booleans (R24, R213). The labels bit 0, 1, 2 of R24 are `ne`, `gt`, `nemp`. -/
structure CompareResult where
  ne   : Bool
  gt   : Bool
  nemp : Bool
deriving DecidableEq, Repr

/-- One instruction. An address operand has the source's type `u32` (R285), so that a request beyond 18 bits can be
written down and refused; a length is a natural; a buffer is a finite sequence of bytes (R29). -/
inductive Instr
  -- Wire words, formats CMD24 and MAGIC24 (R91, R93, R98): the word is sent.
  | cmdReadCid
  | cmdReadDid
  | cmdRead (a : Addr18)
  | cmdProgram (a : Addr18)
  | cmdPageErase (a : Addr18)
  | cmdMassErase
  | enterWord
  | exitWord
  -- Frame formats (R95, R96).
  | resp9 (d : Byte) (last : Bool)
  | pay9 (d : Byte) (last : Bool)
  -- Host operations (R101).
  | enter
  | exit
  | locked
  | deviceId
  | pageSize
  | flashSize
  | massErase
  | configErase
  | configRead
  | configWrite (buf : List Byte)
  | configCompare (buf : List Byte)
  | configVerify (buf : List Byte)
  | flashErase (a : Word32) (n : Nat)
  | flashRead (a : Word32) (n : Nat)
  | flashWrite (a : Word32) (buf : List Byte)
  | flashCompare (a : Word32) (buf : List Byte)
  | flashVerify (a : Word32) (buf : List Byte)
  -- Internal primitives (R151 to R160, R180, R184, R186, R210, R241).
  | erase (a : Word32)
  | read (a : Word32) (n : Nat)
  | write (a : Word32) (buf : List Byte)
  | compare (a : Word32) (buf : List Byte)
  | verify (a : Word32) (buf : List Byte)
  | write24 (w : Word24) (t : Profile)
  | write24p (opcode : Byte) (parameter : Word32) (t : Profile)
  | read9 (last : Bool) (t : Profile)
  | write9 (d : Byte) (last : Bool) (tb tt : Profile)
  | tiktok (setup hold : Nat)
  | bitin (t : Profile)
  | settle (t : Profile)
  | resetpulse
  | drive
  | release
  -- Pure functions (R92, R126, R127, R214 to R216, R260 to R264).
  | pack (opcode : Byte) (parameter : Word32)
  | needErase (r : CompareResult)
  | needWrite (r : CompareResult)
  | equal (r : CompareResult)
  | pageSizeOf (did : DeviceId)
  | flashSizeOf (did : DeviceId)
  | config0 (cbs : Bool)
  | cbs (b : Byte)
  | config1 (n : Nat)
  | ldsize (b : Byte)
deriving DecidableEq, Repr

end Sys2Proof
end

