-- ==== Sys2Proof/Config.lean ====
section
/-! DEFINITION. What the sources do not fix (00_scope.md R6, 92_eei_decisions.md section 2): the parameters of the engine as
one structure of plain data, the constraints the parameter table puts on them, the reference value set of the test vectors,
and the free values (`draw`, R9) as constants without a body. -/

namespace Sys2Proof

/-- `DID_BYTE_ORDER` (D13): which byte of the device id the target sends first. -/
inductive ByteOrder | lowFirst | highFirst
deriving DecidableEq, Repr

/-- `WRITE_MODE` (D9): one program command per buffer, or one per byte. -/
inductive WriteMode | burst | perByte
deriving DecidableEq, Repr

/-- The two classes whose total delay is capped (R163). -/
inductive CapClass | pageErase | program
deriving DecidableEq, Repr

/-- One transport call of the lock query (R124: built from WRITE24, READ9 and TIKTOK only). -/
inductive LockCall
  | write24 (w : Word24) (t : Profile)
  | read9 (last : Bool) (t : Profile)
  | tiktok (setup hold : Nat)
deriving DecidableEq, Repr

/-- A cap function of R34, monotone in the buffer length by construction: the increments for the first lengths, then a
constant increment per further byte. Every monotone function on a bounded range of lengths has this form. -/
structure Cap where
  base  : Nat
  steps : List Nat
  slope : Nat
deriving DecidableEq, Repr

/-- The maximum total delay, in microseconds, of an operation over `n` bytes (R34, R163). -/
def Cap.at (c : Cap) (n : Nat) : Nat := c.base + (c.steps.take n).sum + c.slope * (n - c.steps.length)

/-- An explicit increment `slice(class, n, k)` (D24); an increment with no entry is the class profile itself. -/
structure SliceEntry where
  cls : CapClass
  n   : Nat
  k   : Nat
  val : Profile
deriving DecidableEq, Repr

/-- The parameters of the engine (R6; the table of 92_eei_decisions.md section 2). -/
structure Config where
  companyIdNuvoton : Byte
  enterWord        : Word24
  exitWord         : Word24
  /-- `RESET_LITERAL`, first presented bit first; `RESET_LEN` is its length (R94). -/
  resetLiteral     : List Bool
  opReadCid        : BitVec 6
  opReadDid        : BitVec 6
  opRead           : BitVec 6
  opProgram        : BitVec 6
  opPageErase      : BitVec 6
  opMassErase      : BitVec 6
  paramReadCid     : Addr18
  paramReadDid     : Addr18
  paramMassErase   : Addr18
  configBase       : Addr18
  maxTier          : Nat
  flashSizeTable   : List Nat
  tReset           : Profile
  tMode            : Profile
  tMassErase       : Profile
  tPageErase       : Profile
  tProgram         : Profile
  tRead            : Profile
  capPageErase     : Cap
  capProgram       : Cap
  slices           : List SliceEntry
  didByteOrder     : ByteOrder
  writeMode        : WriteMode
  cbsTrueByte      : Byte
  lockQuery        : List LockCall
  pinDat           : Nat
  pinClk           : Nat
  pinRst           : Nat
deriving DecidableEq, Repr

/-- `t(T) = T.setup + T.hold` (R331). -/
def Profile.total (t : Profile) : Nat := t.setup + t.hold

/-- The six opcodes in the order of R98. -/
def Config.opcodes (c : Config) : List (BitVec 6) :=
  [c.opReadCid, c.opReadDid, c.opRead, c.opProgram, c.opPageErase, c.opMassErase]

/-- The word of a lock-query call is none of the three commands that change `TMem` (R124). -/
def LockCall.keepsMemory (c : Config) : LockCall → Bool
  | .write24 w _ => !([c.opProgram, c.opPageErase, c.opMassErase].contains (w.setWidth 6))
  | .read9 _ _ => true
  | .tiktok _ _ => true

/-- A read burst is open after a call, given whether one was open before it (R73, R124). -/
def LockCall.leavesOpen (c : Config) (isOpen : Bool) : LockCall → Bool
  | .write24 w _ => isOpen || [c.opReadCid, c.opReadDid, c.opRead].contains (w.setWidth 6)
  | .read9 last _ => !last
  | .tiktok _ _ => isOpen

/-- What R124 requires of the parameter `LOCK_QUERY`: it does not change `TMem` and leaves no read burst open. That it is built from
WRITE24, READ9 and TIKTOK is its type; that it leaves `CLK = 0` and `DAT` driven follows from that (log 17). -/
def Config.lockQueryFits (c : Config) : Bool :=
  c.lockQuery.all (LockCall.keepsMemory c) && !c.lockQuery.foldl (LockCall.leavesOpen c) false

/-- The constraints of the parameter table. Of its two alternatives for `EXIT_WORD` this is the one that is a property of
the parameters alone: `EXIT_WORD[5:0]` differs from all six opcodes. The same is asked of `ENTER_WORD`, so that no command is
the word that U21 calls outside the contract (log 30). -/
def Config.valid (c : Config) : Bool :=
  c.enterWord != c.exitWord
  && !c.opcodes.contains (c.exitWord.setWidth 6)
  && c.opcodes.Nodup
  && c.resetLiteral.length != 0
  && c.configBase.toNat + 5 ≤ 262144
  && c.maxTier ≤ 15
  && c.flashSizeTable.length == c.maxTier + 1
  && c.flashSizeTable.all (fun n => n ≤ c.configBase.toNat)
  && [c.tReset, c.tMode, c.tMassErase, c.tPageErase, c.tProgram].all (fun t => c.tRead.total ≤ t.total)
  && c.tPageErase.total < c.tMassErase.total
  && (c.cbsTrueByte == 0xFF || c.cbsTrueByte == 0x7F)
  && [c.pinDat, c.pinClk, c.pinRst].Nodup
  && !c.opcodes.contains (c.enterWord.setWidth 6)
  && c.lockQueryFits

/-- The reference value set `P_REF` of 93_implementation_defined.md section GK with the made-up `TEST_TABLE` of
95_test_vectors.md: ONE instance of the parameters, used for reset and for tests. PRESUMED (log 1): no value here is in the
source; the profiles, caps, lock query and pin numbers that GK does not give are DESIGN CHOICE (log 1). -/
def Config.reference : Config where
  companyIdNuvoton := 0xDA
  enterWord := 0x5AA503
  exitWord := 0x0F78F0
  resetLiteral := [true, false, false, true, true, true, true, false, false, false, false, true,
    true, true, false, false, true, false, true, true, false, true, true, false]
  opReadCid := 0x0B
  opReadDid := 0x0C
  opRead := 0x00
  opProgram := 0x21
  opPageErase := 0x22
  opMassErase := 0x26
  paramReadCid := 0
  paramReadDid := 0
  paramMassErase := 0x3A5A5
  configBase := 0x30000
  maxTier := 2
  flashSizeTable := [0x1000, 0x2000, 0x4800]
  tReset := ⟨5000, 5000⟩
  tMode := ⟨60, 60⟩
  tMassErase := ⟨65000, 500⟩
  tPageErase := ⟨10000, 500⟩
  tProgram := ⟨200, 50⟩
  tRead := ⟨1, 1⟩
  capPageErase := ⟨0, [], 10500⟩
  capProgram := ⟨0, [], 250⟩
  slices := []
  didByteOrder := .lowFirst
  writeMode := .burst
  cbsTrueByte := 0xFF
  lockQuery := []
  pinDat := 0
  pinClk := 1
  pinRst := 2

/-- `TMODE`, the target's mode (10_state.md R38). -/
inductive TargetMode | run | prog | unknown
deriving DecidableEq, Repr, Inhabited

/-- The target's protocol position (R90: the target knows "from the protocol position" what follows): nothing is open; an
identity query is being answered with these bytes; a read burst is open; a program burst is open; a program burst was opened
under a set lock. -/
inductive Burst
  | idle
  | answer (bytes : List Byte)
  | read
  | program
  | programLocked
deriving DecidableEq, Repr, Inhabited

/-- Where the target stands inside a response frame (R73, R95): between two frames; or a byte has been taken up, with the data bits
still to be presented, the next pulse being the trailer's when none is left. `expected` says that the contract has a response frame
here (R70 (d); log 11). -/
inductive FramePos
  | boundary
  | presenting (expected : Bool) (rest : List Bool)
deriving DecidableEq, Repr, Inhabited

/-! The free values: `draw(T)` of R9. Each is applied to the draw counter of State, so that every draw is a fresh value. -/

/-- The eight bits sampled in a response frame for which the contract gives no value (R78, R79). -/
opaque Config.drawSample : Nat → Byte
/-- The byte at an address of `TMem` after an event that leaves it unspecified (R76, R78, R79, R320). -/
opaque Config.drawMem : Nat → Nat → Byte
/-- `TPTR` after an event that leaves it unspecified (R79). -/
opaque Config.drawPtr : Nat → Nat
/-- `TMODE` after an event that leaves it unspecified (R79). -/
opaque Config.drawMode : Nat → TargetMode
/-- `TLOCK` after an event that leaves it unspecified, or an answer to the lock query outside the contract (R76, R78, R79, R124). -/
opaque Config.drawLock : Nat → Bool
/-- The protocol position after an event that leaves the target unspecified (R79). -/
opaque Config.drawBurst : Nat → Burst
/-- The place inside a response frame after an event that leaves the target unspecified (R79). -/
opaque Config.drawFrame : Nat → FramePos

end Sys2Proof
end

