-- ==== Sys2Proof/WellFormed.lean ====
section
/-! DEFINITION. Which instruction terms can be written as a request. The packet format of a host request (log 2) carries a
length in 32 bits, so a longer range or buffer is ill-formed; every other operand has its width in its type. A request that
breaks a precondition (R283 to R287) is well-formed syntax: it is refused by its meaning, not by this check. -/

namespace Sys2Proof

/-- A range length or buffer length fits the 32-bit length field of a packet. -/
def lengthFits (n : Nat) : Bool := n < 2 ^ 32

/-- The check of an instruction term. -/
def Instr.wellFormed : Instr → Bool
  | .configWrite buf | .configCompare buf | .configVerify buf => lengthFits buf.length
  | .flashErase _ n | .flashRead _ n => lengthFits n
  | .flashWrite _ buf | .flashCompare _ buf | .flashVerify _ buf => lengthFits buf.length
  | .cmdReadCid | .cmdReadDid | .cmdRead _ | .cmdProgram _ | .cmdPageErase _ | .cmdMassErase | .enterWord | .exitWord
  | .resp9 _ _ | .pay9 _ _
  | .enter | .exit | .locked | .deviceId | .pageSize | .flashSize | .massErase | .configErase | .configRead
  | .erase _ | .read _ _ | .write _ _ | .compare _ _ | .verify _ _
  | .write24 _ _ | .write24p _ _ _ | .read9 _ _ | .write9 _ _ _ _ | .tiktok _ _ | .bitin _ | .settle _
  | .resetpulse | .drive | .release
  | .pack _ _ | .needErase _ | .needWrite _ | .equal _ | .pageSizeOf _ | .flashSizeOf _ | .config0 _ | .cbs _ | .config1 _
  | .ldsize _ => true

/-- The host operations of R7 and R101: the public surface. -/
def Instr.isHostOp : Instr → Bool
  | .enter | .exit | .locked | .deviceId | .pageSize | .flashSize | .massErase | .configErase | .configRead
  | .configWrite _ | .configCompare _ | .configVerify _
  | .flashErase _ _ | .flashRead _ _ | .flashWrite _ _ | .flashCompare _ _ | .flashVerify _ _ => true
  | .cmdReadCid | .cmdReadDid | .cmdRead _ | .cmdProgram _ | .cmdPageErase _ | .cmdMassErase | .enterWord | .exitWord
  | .resp9 _ _ | .pay9 _ _
  | .erase _ | .read _ _ | .write _ _ | .compare _ _ | .verify _ _
  | .write24 _ _ | .write24p _ _ _ | .read9 _ _ | .write9 _ _ _ _ | .tiktok _ _ | .bitin _ | .settle _
  | .resetpulse | .drive | .release
  | .pack _ _ | .needErase _ | .needWrite _ | .equal _ | .pageSizeOf _ | .flashSizeOf _ | .config0 _ | .cbs _ | .config1 _
  | .ldsize _ => false

/-- The wire words: formats CMD24 and MAGIC24 (R98). -/
def Instr.isWireWord : Instr → Bool
  | .cmdReadCid | .cmdReadDid | .cmdRead _ | .cmdProgram _ | .cmdPageErase _ | .cmdMassErase | .enterWord | .exitWord => true
  | .resp9 _ _ | .pay9 _ _
  | .enter | .exit | .locked | .deviceId | .pageSize | .flashSize | .massErase | .configErase | .configRead
  | .configWrite _ | .configCompare _ | .configVerify _
  | .flashErase _ _ | .flashRead _ _ | .flashWrite _ _ | .flashCompare _ _ | .flashVerify _ _
  | .erase _ | .read _ _ | .write _ _ | .compare _ _ | .verify _ _
  | .write24 _ _ | .write24p _ _ _ | .read9 _ _ | .write9 _ _ _ _ | .tiktok _ _ | .bitin _ | .settle _
  | .resetpulse | .drive | .release
  | .pack _ _ | .needErase _ | .needWrite _ | .equal _ | .pageSizeOf _ | .flashSizeOf _ | .config0 _ | .cbs _ | .config1 _
  | .ldsize _ => false

end Sys2Proof
end

