-- ==== Sys2Proof/Decode.lean ====
section
/-! DEFINITION. The encodings of 30_encoding.md: `pack` and the classification of a wire word (R92, R99), the decoder and
encoder of wire words and of 9-bit frames, and the decoder and encoder of host requests. The host side has no encoding in the
source (R100): only the 5-bit index HOSTOP is the spec's, the bytes that carry the operands are the model's (log 2). -/

namespace Sys2Proof

/-- Why a request is no instruction. -/
inductive DecodeError
  /-- HOSTOP 17 to 31 name no operation (R102), and bits 7 to 5 of the selector byte are not part of it. -/
  | invalidHostop
  /-- The packet ends inside an operand. -/
  | truncated
  /-- The packet goes on after the last operand. -/
  | trailingBytes
  /-- The word is no literal word and its opcode is none of the six (R102). -/
  | unassignedOpcode
  /-- A command that takes no address carries another constant than its parameter (R97). -/
  | wrongConstant
deriving DecidableEq, Repr

/-! ### Bits and bytes -/

/-- The bits of a value, most-significant first (R8, R65). -/
def bitsMsb {n : Nat} (v : BitVec n) : List Bool := (List.range n).map v.getMsbD

/-- The value whose bits arrive most-significant first (R65, R155). -/
def byteOfBits (bits : List Bool) : Byte := bits.foldl (fun acc b => (acc <<< 1) ||| (BitVec.ofBool b).setWidth 8) 0

/-- Four bytes, least-significant byte first (the model's packet format, log 2). -/
def word32Bytes (w : Word32) : List Byte :=
  [w.extractLsb' 0 8, w.extractLsb' 8 8, w.extractLsb' 16 8, w.extractLsb' 24 8]

/-- The 32-bit value of four bytes, least-significant byte first. -/
def word32OfBytes (b0 b1 b2 b3 : Byte) : Word32 := b3 ++ b2 ++ b1 ++ b0

/-- The low `count` bytes of a number, least-significant byte first. -/
def natBytes (w : Nat) : Nat → List Byte
  | 0 => []
  | count + 1 => BitVec.ofNat 8 w :: natBytes (w / 256) count

/-! ### Wire words (R91 to R99) -/

/-- `pack(opcode, parameter)` as a total function on the source's argument types (R92): computed on unbounded naturals and
then truncated to 24 bits. -/
def pack (opcode : Byte) (parameter : Word32) : Word24 :=
  BitVec.ofNat 24 ((parameter.toNat <<< 6) ||| opcode.toNat)

/-- A six-bit opcode as the `u8` argument of `pack`. -/
def opcodeArg (o : BitVec 6) : Byte := o.setWidth 8

/-- An 18-bit parameter as the `u32` argument of `pack`. -/
def paramArg (p : Addr18) : Word32 := p.setWidth 32

/-- The word of a command (R91). -/
def commandWord (o : BitVec 6) (p : Addr18) : Word24 := pack (opcodeArg o) (paramArg p)

/-- `w[5:0]` (R91). -/
def wordOpcode (w : Word24) : BitVec 6 := w.extractLsb' 0 6

/-- `w[23:6]` (R91). -/
def wordParam (w : Word24) : Addr18 := w.extractLsb' 6 18

/-- What a word seen while `TMODE = Prog` is (R99). The enter word seen there has no meaning (U21 of 93_implementation_defined.md). -/
inductive WireClass
  | exit
  | enter
  | readCid (k : Addr18)
  | readDid (k : Addr18)
  | read (a : Addr18)
  | program (a : Addr18)
  | pageErase (a : Addr18)
  | massErase (k : Addr18)
  | unassigned
deriving DecidableEq, Repr

/-- The classification of R99: the exact match on a literal word first, then the opcode. -/
def classify (c : Config) (w : Word24) : WireClass :=
  if w = c.exitWord then .exit
  else if w = c.enterWord then .enter
  else if wordOpcode w = c.opReadCid then .readCid (wordParam w)
  else if wordOpcode w = c.opReadDid then .readDid (wordParam w)
  else if wordOpcode w = c.opRead then .read (wordParam w)
  else if wordOpcode w = c.opProgram then .program (wordParam w)
  else if wordOpcode w = c.opPageErase then .pageErase (wordParam w)
  else if wordOpcode w = c.opMassErase then .massErase (wordParam w)
  else .unassigned

/-- The wire-word decoder: a literal word by exact match, otherwise by opcode. A command without an address is a row of the
table only with its constant (the letters `k` of R106); another constant is rejected by name (log 26). -/
def decodeWord (c : Config) (w : Word24) : Except DecodeError Instr :=
  match classify c w with
  | .exit => .ok .exitWord
  | .enter => .ok .enterWord
  | .readCid k => if k = c.paramReadCid then .ok .cmdReadCid else .error .wrongConstant
  | .readDid k => if k = c.paramReadDid then .ok .cmdReadDid else .error .wrongConstant
  | .read a => .ok (.cmdRead a)
  | .program a => .ok (.cmdProgram a)
  | .pageErase a => .ok (.cmdPageErase a)
  | .massErase k => if k = c.paramMassErase then .ok .cmdMassErase else .error .wrongConstant
  | .unassigned => .error .unassignedOpcode

/-! ### 9-bit frames (R95, R96) -/

/-- The data byte and the trailer of a 9-bit frame, first arrival in bit 8. -/
def frameData (f : Frame9) : Byte := f.extractLsb' 1 8
def frameLast (f : Frame9) : Bool := f.getLsbD 0

/-- The 9-bit frame of a data byte and a trailer. -/
def frame9 (d : Byte) (last : Bool) : Frame9 := d ++ BitVec.ofBool last

/-! ### Host requests (R100, R101; the packet format is the model's, log 2) -/

/-- An operand parser: what it reads and the rest of the packet. -/
abbrev Parsed (α : Type) := Except DecodeError (α × List Byte)

/-- Four bytes, least-significant first. -/
def takeWord32 : List Byte → Parsed Word32
  | b0 :: b1 :: b2 :: b3 :: rest => .ok (word32OfBytes b0 b1 b2 b3, rest)
  | _ => .error .truncated

/-- A length and then that many bytes. -/
def takeBuffer (bs : List Byte) : Parsed (List Byte) :=
  match takeWord32 bs with
  | .error e => .error e
  | .ok (n, rest) =>
    if n.toNat ≤ rest.length then .ok (rest.take n.toNat, rest.drop n.toNat) else .error .truncated

/-- The one-operand requests of the Config wrappers. -/
def takeWithBuffer (f : List Byte → Instr) (bs : List Byte) : Parsed Instr :=
  match takeBuffer bs with
  | .error e => .error e
  | .ok (buf, rest) => .ok (f buf, rest)

/-- Address and length. -/
def takeWithRange (f : Word32 → Nat → Instr) (bs : List Byte) : Parsed Instr :=
  match takeWord32 bs with
  | .error e => .error e
  | .ok (a, rest) =>
    match takeWord32 rest with
    | .error e => .error e
    | .ok (n, rest) => .ok (f a n.toNat, rest)

/-- Address and buffer. -/
def takeWithAddressBuffer (f : Word32 → List Byte → Instr) (bs : List Byte) : Parsed Instr :=
  match takeWord32 bs with
  | .error e => .error e
  | .ok (a, rest) => takeWithBuffer (f a) rest

/-- The operands that follow the selector byte of the operation with this HOSTOP index (R101). -/
def decodeOperands (hostop : Nat) (bs : List Byte) : Parsed Instr :=
  match hostop with
  | 0 => .ok (.enter, bs)
  | 1 => .ok (.exit, bs)
  | 2 => .ok (.locked, bs)
  | 3 => .ok (.deviceId, bs)
  | 4 => .ok (.pageSize, bs)
  | 5 => .ok (.flashSize, bs)
  | 6 => .ok (.massErase, bs)
  | 7 => .ok (.configErase, bs)
  | 8 => .ok (.configRead, bs)
  | 9 => takeWithBuffer .configWrite bs
  | 10 => takeWithBuffer .configCompare bs
  | 11 => takeWithBuffer .configVerify bs
  | 12 => takeWithRange .flashErase bs
  | 13 => takeWithRange .flashRead bs
  | 14 => takeWithAddressBuffer .flashWrite bs
  | 15 => takeWithAddressBuffer .flashCompare bs
  | 16 => takeWithAddressBuffer .flashVerify bs
  | _ => .error .invalidHostop

/-- A host request at the front of a list of bytes, and the rest of the list. -/
def decodePrefix : List Byte → Parsed Instr
  | [] => .error .truncated
  | sel :: rest => decodeOperands sel.toNat rest

/-- A host request packet: exactly one request (total on any bytes). -/
def decodePacket (bs : List Byte) : Except DecodeError Instr :=
  match decodePrefix bs with
  | .error e => .error e
  | .ok (i, []) => .ok i
  | .ok (_, _ :: _) => .error .trailingBytes

/-- A length field. -/
def lengthBytes (n : Nat) : List Byte := word32Bytes (BitVec.ofNat 32 n)

/-- A buffer operand. -/
def bufferBytes (buf : List Byte) : List Byte := lengthBytes buf.length ++ buf

/-! ### The operation handed to the engine -/

/-- What the engine is handed next. The public surface hands it packets; the other forms hand it a row of the table that no
host request spells (R106): a wire word, a frame, an internal primitive or a pure function by itself (log 3). -/
inductive Request
  | packet (bytes : List Byte)
  | word (w : Word24)
  | response (f : Frame9)
  | payload (f : Frame9)
  | call (i : Instr)
deriving DecidableEq, Repr

/-- The instruction a request spells (total; rejects by name). -/
def decode (c : Config) : Request → Except DecodeError Instr
  | .packet bs => decodePacket bs
  | .word w => decodeWord c w
  | .response f => .ok (.resp9 (frameData f) (frameLast f))
  | .payload f => .ok (.pay9 (frameData f) (frameLast f))
  | .call i => .ok i

/-- The encoder: the request that spells an instruction, written from the same encodings. A host operation is its packet
(R101), a wire word its 24 bits (R91, R93, R97, R98), a frame its 9 bits (R95, R96); a row without an encoding (R106) is a
call. -/
def encode (c : Config) : Instr → Request
  | .cmdReadCid => .word (commandWord c.opReadCid c.paramReadCid)
  | .cmdReadDid => .word (commandWord c.opReadDid c.paramReadDid)
  | .cmdRead a => .word (commandWord c.opRead a)
  | .cmdProgram a => .word (commandWord c.opProgram a)
  | .cmdPageErase a => .word (commandWord c.opPageErase a)
  | .cmdMassErase => .word (commandWord c.opMassErase c.paramMassErase)
  | .enterWord => .word c.enterWord
  | .exitWord => .word c.exitWord
  | .resp9 d last => .response (frame9 d last)
  | .pay9 d last => .payload (frame9 d last)
  | .enter => .packet [0]
  | .exit => .packet [1]
  | .locked => .packet [2]
  | .deviceId => .packet [3]
  | .pageSize => .packet [4]
  | .flashSize => .packet [5]
  | .massErase => .packet [6]
  | .configErase => .packet [7]
  | .configRead => .packet [8]
  | .configWrite buf => .packet (9 :: bufferBytes buf)
  | .configCompare buf => .packet (10 :: bufferBytes buf)
  | .configVerify buf => .packet (11 :: bufferBytes buf)
  | .flashErase a n => .packet (12 :: (word32Bytes a ++ lengthBytes n))
  | .flashRead a n => .packet (13 :: (word32Bytes a ++ lengthBytes n))
  | .flashWrite a buf => .packet (14 :: (word32Bytes a ++ bufferBytes buf))
  | .flashCompare a buf => .packet (15 :: (word32Bytes a ++ bufferBytes buf))
  | .flashVerify a buf => .packet (16 :: (word32Bytes a ++ bufferBytes buf))
  | .erase a => .call (.erase a)
  | .read a n => .call (.read a n)
  | .write a buf => .call (.write a buf)
  | .compare a buf => .call (.compare a buf)
  | .verify a buf => .call (.verify a buf)
  | .write24 w t => .call (.write24 w t)
  | .write24p o p t => .call (.write24p o p t)
  | .read9 last t => .call (.read9 last t)
  | .write9 d last tb tt => .call (.write9 d last tb tt)
  | .tiktok s h => .call (.tiktok s h)
  | .bitin t => .call (.bitin t)
  | .settle t => .call (.settle t)
  | .resetpulse => .call .resetpulse
  | .drive => .call .drive
  | .release => .call .release
  | .pack o p => .call (.pack o p)
  | .needErase r => .call (.needErase r)
  | .needWrite r => .call (.needWrite r)
  | .equal r => .call (.equal r)
  | .pageSizeOf d => .call (.pageSizeOf d)
  | .flashSizeOf d => .call (.flashSizeOf d)
  | .config0 b => .call (.config0 b)
  | .cbs b => .call (.cbs b)
  | .config1 n => .call (.config1 n)
  | .ldsize b => .call (.ldsize b)

/-- The longest operand part of a host request whose operand words are zeros: an address and a length. -/
def zeroOperands : List Byte := List.replicate 8 0

/-- The bytes of a table word of the HOST format followed by operand words of zeros. -/
def tableBytes (nbits w : Nat) : List Byte := natBytes w ((nbits + 7) / 8) ++ zeroOperands

/-- The request that stands for a table word: 24 bits are a wire word, 9 bits (two bytes) a response frame, and anything
else a host request, cut after its last operand (log 26). -/
def requestOfTableWord (nbits w : Nat) : Request :=
  if (nbits + 7) / 8 = 3 then .word (BitVec.ofNat 24 w)
  else if (nbits + 7) / 8 = 2 then .response (BitVec.ofNat 9 w)
  else match decodePrefix (tableBytes nbits w) with
    | .ok (_, rest) => .packet ((tableBytes nbits w).take ((tableBytes nbits w).length - rest.length))
    | .error _ => .packet (natBytes w ((nbits + 7) / 8))

/-- The instruction the decoder reads from a table word; a wire word is read under the reference parameters. -/
def decodeTableWord (nbits w : Nat) : Option Instr :=
  match decode Config.reference (requestOfTableWord nbits w) with
  | .ok i => some i
  | .error _ => none

end Sys2Proof
end

