-- ==== Sys2Proof/Machine/State.lean ====
section
/-! DEFINITION. The state of the machine as plain data (10_state.md): the engine's registers, its three lines, the wire trace,
the host port, the fixed parameters, and the target as the environment the engine reaches through frames (R35 to R40). -/

namespace Sys2Proof.Machine

/-- `SESS`, the session state tag (R20). -/
inductive SessTag | disconnected | entered
deriving DecidableEq, Repr

/-- The level of a line on the engine's side (R30): released, driven low, driven high. -/
inductive Level | z | low | high
deriving DecidableEq, Repr

/-- The driven level that carries a bit. -/
def Level.ofBit (b : Bool) : Level := if b then .high else .low

/-- The three owned lines (R30). -/
inductive Line | dat | clk | rst
deriving DecidableEq, Repr

/-- The engine-side levels of the three lines (R30). -/
structure Lines where
  dat : Level
  clk : Level
  rst : Level
deriving DecidableEq, Repr

/-- The pin-level alphabet (R150). -/
inductive PinEvent
  | set (line : Line) (level : Level)
  | delay (us : Nat)
  | sample (b : Bool)
deriving DecidableEq, Repr

/-- The frame-level alphabet (R150). -/
inductive WireEvent
  | drive
  | resetPulse (lit : List Bool) (t : Profile)
  | tx24 (w : Word24) (t : Profile)
  | rx9 (d : Byte) (last : Bool) (t : Profile)
  | tx9 (d : Byte) (last : Bool) (tb tt : Profile)
  | settle (t : Profile)
  /-- `OPAQUE(LOCK_QUERY)`, the query being the parameter `lockQuery` (R124). -/
  | lockQuery
  | release
deriving DecidableEq, Repr

/-- The result `ok(result)` of a completed operation (R10, R101). -/
inductive Value
  | unit
  | byte (b : Byte)
  | word (w : DeviceId)
  | nat (n : Nat)
  | bool (b : Bool)
  | bytes (bs : List Byte)
  | flags (r : CompareResult)
  | word24 (w : Word24)
deriving DecidableEq, Repr

/-- `SEQ = (op, phase, byte_index, bit_index)` (R26): which operation is running, how many of its wire events are done, how
many bytes its frames have carried, and how many bits of the present frame are done (log 22). -/
inductive Seq
  | idle
  | running (op : Instr) (phase byteIndex bitIndex : Nat)
deriving DecidableEq, Repr

/-- `TMem` (R36): address and byte pairs, addresses strictly rising, no entry equal to what an unlisted address reads as. -/
abbrev Memory := List Host.Cell

/-- What an unlisted address of `TMem` reads as: the erased pattern (DESIGN CHOICE, log 8, unsafe: the contents at the start
of a run are arbitrary, R36). -/
def Memory.unlisted : Byte := 0xFF

/-- Every address of the list is above `lo`, the list rises strictly, and no entry is the unlisted value. -/
def Memory.wfAbove : Option Nat → Memory → Bool
  | _, [] => true
  | lo, (a, b) :: rest =>
    (match lo with | none => true | some l => decide (l < a)) && decide (b ≠ Memory.unlisted)
      && Memory.wfAbove (some a) rest

/-- The canonical form of a memory. -/
def Memory.wf (m : Memory) : Bool := Memory.wfAbove none m

/-- The target (R35 to R40): environment state, and the constants of the connected part. -/
@[ext]
structure Target where
  /-- R70 (c): a powered target is connected and the engine's parameters match it. A launch premise, never changed. -/
  matched   : Bool
  /-- `TMODE` (R38). -/
  mode      : TargetMode
  /-- The reset handshake has been seen and no frame since (R71; log 11). -/
  resetSeen : Bool
  /-- A sequence has been disrupted and no entry has been completed since (R70 (d), R320; log 23). -/
  broken    : Bool
  /-- The protocol position (R90; log 11). -/
  burst     : Burst
  /-- The place inside the present response frame (R73, R95; log 11). -/
  frame     : FramePos
  /-- `TPTR` (R37). Its width is not in the source: a natural that never wraps (DESIGN CHOICE, log 12). -/
  ptr       : Nat
  /-- `TLOCK` (R39). -/
  lock      : Bool
  /-- `TCID`, `TDID`, `TPAGE`, `TFLASH` (R40): constants of the target. -/
  cid       : Byte
  did       : DeviceId
  page      : Nat
  flash     : Nat
  /-- `TMem` (R36). -/
  mem       : Memory
deriving DecidableEq, Repr

/-- The whole machine. -/
@[ext]
structure State where
  /-- The parameters (R6): fixed for the machine, changed by nothing (log 1). -/
  cfg     : Config
  /-- `SESS` (R20). -/
  sess    : SessTag
  /-- `CID` (R21), a value only while `idValid` (R23). -/
  cid     : Byte
  /-- `DID` (R22), a value only while `idValid` (R23). -/
  did     : DeviceId
  /-- `ID_VALID` (R23). -/
  idValid : Bool
  /-- `CMP` (R24). -/
  cmp     : CompareResult
  /-- `TXSR`, `RXSR`, `BITCNT`, `ADDR`, `REM` (R27). -/
  txsr    : Word24
  rxsr    : Frame9
  bitcnt  : BitVec 5
  addr    : Addr18
  rem     : Nat
  /-- `SEQ` (R26). -/
  seq     : Seq
  /-- `DAT`, `CLK`, `RST` (R30). -/
  lines   : Lines
  /-- The wire trace at the frame level and at the pin level (R150), oldest event first. -/
  wire    : List WireEvent
  pins    : List PinEvent
  /-- The result of the last completed operation (R10): the model's field for the host port's answer (log 27). -/
  result  : Option Value
  /-- The operations the host has issued and the engine has not begun: the model's field for the host port (R11; log 3). -/
  port    : List Request
  /-- An external disruption of the next operation after this many of its register moves and pin events (R320): the model's
  input (log 23). -/
  disrupt : Option Nat
  /-- How many free values have been drawn: the model's counter (log 9). -/
  draws   : Nat
  /-- The target on the three lines (R35). -/
  target  : Target
deriving DecidableEq, Repr

/-- The hardware has no exception and no fault (R280): no step ends in one. -/
inductive Fault
deriving DecidableEq, Repr

/-- Why a request is refused (R10): the model's verdict, with no wire event and no state change. Every refusal is safe: the
run stops where the spec gives no continuation (log 4). -/
inductive Refusal
  /-- An instruction without a meaning in this model, by its mnemonic. Safe. No arm of `exec` answers it. -/
  | notModelled (mnemonic : String)
  /-- LOCKED or a memory operation while `SESS = Disconnected` (R283). Raised by `admission` and the session checks. Safe. -/
  | notEntered
  /-- DEVICE_ID, PAGE_SIZE or FLASH_SIZE while `ID_VALID` is false (R287). Safe. -/
  | identityUnknown
  /-- A range or buffer of no bytes (R284). Raised by `admission`. Safe. -/
  | emptyRequest
  /-- A request outside both regions (R285). Raised by `admission`. Safe. -/
  | outOfRegion
  /-- A request with an address beyond 18 bits (R285). Raised by `admission`. Safe. -/
  | unencodable
  /-- A config buffer that is not 5 bytes long (R230, R287). Safe. -/
  | badConfigLength
  /-- CONFIG1 of 7 KiB or more (R263). Safe. -/
  | badCodecArgument
  /-- A request that spells no operation (R102): the decoder's verdict. Raised by `step`. Safe. -/
  | invalidRequest (e : DecodeError)
deriving DecidableEq, Repr

/-- The target connected at the launch of the reference instance: the test target of 95_test_vectors.md, in run mode, unlocked,
erased. DESIGN CHOICE (log 7, unsafe): the target's launch state is arbitrary (R42). -/
def Target.reference : Target where
  matched := true
  mode := .run
  resetSeen := false
  broken := false
  burst := .idle
  frame := .boundary
  ptr := 0
  lock := false
  cid := 0xDA
  did := 0x3650
  page := 128
  flash := 0x4800
  mem := []

/-- The machine right after the construction of the Session (R42, R310), for given parameters and a given target: reset emits no
wire event and does not touch the target (R311). -/
def State.resetWith (c : Config) (t : Target) : State where
  cfg := c
  sess := .disconnected
  cid := 0
  did := 0
  idValid := false
  cmp := ⟨false, false, false⟩
  txsr := 0
  rxsr := 0
  bitcnt := 0
  addr := 0
  rem := 0
  seq := .idle
  lines := ⟨.z, .z, .z⟩
  wire := []
  pins := []
  result := none
  port := []
  disrupt := none
  draws := 0
  target := t

/-- The machine right after reset, in the reference instance (log 1, log 7). -/
def State.reset : State := State.resetWith Config.reference Target.reference

end Sys2Proof.Machine
end

