-- ==== Sys2Proof/Machine/Flags.lean ====
section
/-! DEFINITION. The flag equations of the compare engine (43_compare.md R211 to R216). -/

namespace Sys2Proof.Machine

/-- NOT_EQUAL of a pair (current, desired) (R211). -/
def neOf (c d : Byte) : Bool := c != d

/-- GREATER of a pair: some bit must rise from 0 to 1 (R211). -/
def gtOf (c d : Byte) : Bool := (c &&& d) != d

/-- NOT_EMPTY of a pair: the desired byte is not the erased pattern; independent of the current byte (R211). -/
def nempOf (d : Byte) : Bool := d != 0xFF

/-- The cleared flag set `000` (R24). -/
def CompareResult.clear : CompareResult := ⟨false, false, false⟩

/-- One turn of COMPARE's loop: each flag is OR-accumulated (R210, R212). -/
def accumulate (r : CompareResult) (c d : Byte) : CompareResult :=
  ⟨r.ne || neOf c d, r.gt || gtOf c d, r.nemp || nempOf d⟩

/-- COMPARE's loop over the byte pairs, from a given flag set (R210). -/
def compareFrom (r : CompareResult) : List Byte → List Byte → CompareResult
  | c :: cur, d :: buf => compareFrom (accumulate r c d) cur buf
  | _, _ => r

/-- The aggregated flags of two buffers of equal length; over zero pairs `000` (R212). -/
def compareBytes (cur buf : List Byte) : CompareResult := compareFrom CompareResult.clear cur buf

/-- `need_erase(r) = r.NE and r.GT` (R214). -/
def needErase (r : CompareResult) : Bool := r.ne && r.gt

/-- `need_write(r) = r.NE and r.NEMP` (R215). -/
def needWrite (r : CompareResult) : Bool := r.ne && r.nemp

/-- `equal(r) = not r.NE` (R216). -/
def equal (r : CompareResult) : Bool := !r.ne

end Sys2Proof.Machine
end

