-- ==== Sys2Proof/Machine/Operands.lean ====
section
/-! DEFINITION. Operand forms: the regions of the unified address space, the sizes derived from the device id, the pages an
erase touches, and the capped delays of a sized operation. -/

namespace Sys2Proof.Machine

/-- The number of addresses the 18-bit parameter field can carry (R60, R91). -/
def addressSpace : Nat := 262144

/-- The length of the Config region (R5, R62, R230). -/
def configLen : Nat := 5

/-- `CONFIG_BASE` as an address operand (R230). -/
def configAddress (c : Config) : Word32 := c.configBase.setWidth 32

/-- `page_size_of` (R126): the comparison is on all 16 bits. -/
def pageSizeOf (did : DeviceId) : Nat := if did = 0x2F50 then 256 else 128

/-- `tier_of` (R127, R128): bits 7:4 of the device id, capped at the maximum tier. -/
def tierOf (c : Config) (did : DeviceId) : Nat := min ((did &&& 0x00FF) >>> 4).toNat c.maxTier

/-- `flash_size_of` (R127). -/
def flashSizeOf (c : Config) (did : DeviceId) : Nat := c.flashSizeTable.getD (tierOf c did) 0

/-- Every address of the request fits the 18-bit field (R285). -/
def encodable (a n : Nat) : Bool := a < addressSpace && a + n ≤ addressSpace

/-- The request lies in the Flash region by the engine's own size (R285). -/
def inFlash (c : Config) (did : DeviceId) (a n : Nat) : Bool := a + n ≤ flashSizeOf c did

/-- The request lies in the Config region (R285). -/
def inConfig (c : Config) (a n : Nat) : Bool := c.configBase.toNat ≤ a && a + n ≤ c.configBase.toNat + configLen

/-- The first address of the page that contains `a`, for a page size `p` (R75, R181). -/
def pageBase (p a : Nat) : Nat := a - a % p

/-- The loop of FLASH_ERASE (R236): the page bases from `e` on that lie below `stop`, for at most `fuel` pages. -/
def pageSteps (p stop : Nat) : Nat → Nat → List Nat
  | 0, _ => []
  | fuel + 1, e => if e < stop then e :: pageSteps p stop fuel (e + p) else []

/-- The addresses FLASH_ERASE passes to ERASE (R236): the caller's address unrounded, then the base of each following page. A
range of `n` bytes touches at most `n` pages after the first. -/
def eraseAddresses (p a n : Nat) : List Nat := a :: pageSteps p (a + n) n (pageBase p a + p)

/-- The class profile of a capped class (R163). -/
def capProfile (c : Config) : CapClass → Profile
  | .pageErase => c.tPageErase
  | .program => c.tProgram

/-- The cap function of a capped class (R34, R163). -/
def capOf (c : Config) : CapClass → Cap
  | .pageErase => c.capPageErase
  | .program => c.capProgram

/-- The increment the parameters name for `slice(class, n, k)`, the class profile where they name none (D24). -/
def sliceWanted (c : Config) (cls : CapClass) (n k : Nat) : Profile :=
  match c.slices.find? (fun e => decide (e.cls = cls ∧ e.n = n ∧ e.k = k)) with
  | some e => e.val
  | none => capProfile c cls

/-- One increment held to the class profile componentwise and to the budget that is left (R163). Where the budget is less than its
total, setup takes of it first and hold has the rest (DESIGN CHOICE, log 20: the source does not say). -/
def sliceBounded (profile wanted : Profile) (budget : Nat) : Profile :=
  let setup := min (min wanted.setup profile.setup) budget
  ⟨setup, min (min wanted.hold profile.hold) (budget - setup)⟩

/-- The increments from number `k` on, `count` of them, out of a budget of microseconds. -/
def sliceFrom (profile : Profile) (wanted : Nat → Profile) : Nat → Nat → Nat → List Profile
  | 0, _, _ => []
  | count + 1, k, budget =>
    let t := sliceBounded profile (wanted k) budget
    t :: sliceFrom profile wanted count (k + 1) (budget - t.total)

/-- The `count` delay pairs of one operation over `n` bytes: each at most the class profile componentwise, their sum at most the
cap (R163; log 20). -/
def slicesOf (c : Config) (cls : CapClass) (n count : Nat) : List Profile :=
  sliceFrom (capProfile c cls) (sliceWanted c cls n) count 0 ((capOf c cls).at n)

end Sys2Proof.Machine
end

