-- ==== Sys2Proof/Machine/Ops.lean ====
section
/-! DEFINITION. The shared operations over memory, lines, trace and the host port: reading and writing `TMem`, emitting wire
events with their pin-level expansions (41_transport.md), admission (60_exceptions.md R283 to R289) and the answer of an
operation. The hardware has no exception entry and no return from one (R290, R291): a refusal is an outcome, not a state. -/

namespace Sys2Proof.Machine

/-- What a meaning answers. -/
abbrev Res := Host.Outcome State Fault Refusal

/-! ### The target's memory -/

/-- `TMem[a]` (R60). -/
def Memory.read : Memory → Nat → Byte
  | [], _ => Memory.unlisted
  | (k, b) :: rest, a => if k = a then b else Memory.read rest a

/-- A memory with one entry put before it, or nothing put if the value is the unlisted one. -/
def Memory.put (a : Nat) (b : Byte) (rest : Memory) : Memory := if b = Memory.unlisted then rest else (a, b) :: rest

/-- `TMem[a] <- b`, in canonical form (R60). -/
def Memory.write : Memory → Nat → Byte → Memory
  | [], a, b => Memory.put a b []
  | (k, c) :: rest, a, b =>
    if k < a then (k, c) :: Memory.write rest a b
    else if k = a then Memory.put a b rest
    else Memory.put a b ((k, c) :: rest)

/-- The address lies in the range of `n` bytes from `lo`. -/
def inRange (lo n a : Nat) : Bool := lo ≤ a && a < lo + n

/-- Every byte of a range set to the erased pattern `0xFF` (R75, R76): no entry of the range stays listed. -/
def Memory.erase (m : Memory) (lo n : Nat) : Memory := m.filter (fun c => !inRange lo n c.1)

/-- The bytes of a range set by a function of the address, in ascending order. -/
def Memory.fill (f : Nat → Byte) (lo : Nat) : Nat → Memory → Memory
  | 0, m => m
  | n + 1, m => (Memory.fill f lo n m).write (lo + n) (f (lo + n))

/-! ### Lines and traces -/

/-- A line takes a level. -/
def Lines.set (l : Lines) : Line → Level → Lines
  | .dat, v => { l with dat := v }
  | .clk, v => { l with clk := v }
  | .rst, v => { l with rst := v }

/-- The levels after a pin event. -/
def Lines.after (l : Lines) : PinEvent → Lines
  | .set line v => l.set line v
  | .delay _ => l
  | .sample _ => l

/-- The levels after a sequence of pin events. -/
def Lines.afterAll (l : Lines) (evs : List PinEvent) : Lines := evs.foldl Lines.after l

/-- TIKTOK at the pin level (R151). -/
def tiktokPins (setup hold : Nat) : List PinEvent :=
  [.delay setup, .set .clk .high, .delay hold, .set .clk .low]

/-- One driven bit: DAT is set, then one clock pulse (R152, R156). -/
def bitOutPins (t : Profile) (b : Bool) : List PinEvent := .set .dat (Level.ofBit b) :: tiktokPins t.setup t.hold

/-- BITIN at the pin level: TIKTOK with the sample between the setup delay and the rising edge (R154). -/
def bitInPins (t : Profile) (b : Bool) : List PinEvent :=
  [.delay t.setup, .sample b, .set .clk .high, .delay t.hold, .set .clk .low]

/-- One bit of the reset literal on RST, held for the two phases (R158). -/
def resetBitPins (t : Profile) (b : Bool) : List PinEvent :=
  [.set .rst (Level.ofBit b), .delay t.setup, .delay t.hold]

/-- The pin-level expansion of a frame event (R150, R152, R155 to R160). The lock query's expansion is that of its transport
calls and depends on what is sampled (R124), so its frame event expands to nothing here. -/
def WireEvent.pins : WireEvent → List PinEvent
  | .drive => [.set .clk .low, .set .dat .low]
  | .resetPulse lit t => lit.flatMap (resetBitPins t)
  | .tx24 w t => (bitsMsb w).flatMap (bitOutPins t)
  | .rx9 d last t =>
    .set .dat .z :: ((bitsMsb d).flatMap (bitInPins t) ++ (bitOutPins t last ++ [.set .dat .low]))
  | .tx9 d last tb tt => (bitsMsb d).flatMap (bitOutPins tb) ++ (bitOutPins tt last ++ [.set .dat .low])
  | .settle t => tiktokPins t.setup t.hold
  | .lockQuery => []
  | .release => [.set .dat .z, .set .clk .z, .set .rst .z]

/-- Pin events appended to the pin trace, the lines following them. -/
def emitPins (evs : List PinEvent) (s : State) : State :=
  { s with pins := s.pins ++ evs, lines := s.lines.afterAll evs }

/-- `emit E`: the frame event appended to the wire trace (R9) and its expansion to the pin trace. -/
def emit (e : WireEvent) (s : State) : State := emitPins e.pins { s with wire := s.wire ++ [e] }

/-! ### Admission and answers -/

/-- `admission(a, n)` (R286): the first failing check decides the reason (R289). -/
def admission (a n : Nat) (s : State) : Option Refusal :=
  if s.sess ≠ .entered then some .notEntered
  else if n = 0 then some .emptyRequest
  else if !encodable a n then some .unencodable
  else if !(inFlash s.cfg s.did a n || inConfig s.cfg a n) then some .outOfRegion
  else none

/-- The session check of LOCKED and MASS_ERASE (R283). -/
def admitSession (s : State) : Option Refusal := if s.sess ≠ .entered then some .notEntered else none

/-- The identity check of DEVICE_ID, PAGE_SIZE and FLASH_SIZE (R287). -/
def admitIdentity (s : State) : Option Refusal := if s.idValid then none else some .identityUnknown

/-- The checks of a Config wrapper with a buffer (R230, R287, R289): the session, the length, then those of the expansion. -/
def admitConfigBuffer (buf : List Byte) (s : State) : Option Refusal :=
  if s.sess ≠ .entered then some .notEntered
  else if buf.length ≠ configLen then some .badConfigLength
  else admission s.cfg.configBase.toNat configLen s

/-- A meaning behind its admission: refused with no state change, or run (R10, R290). -/
def guarded (r : Option Refusal) (run : Res) : Res :=
  match r with
  | some why => .refused why
  | none => run

/-- `ok(result)` (R10). -/
def reply (v : Value) (s : State) : Res := .next { s with result := some v }

end Sys2Proof.Machine
end

