-- ==== Sys2Proof/Machine/Codec.lean ====
section
/-! DEFINITION. The pure functions as instructions (45_config_codec.md, R92, R126, R127, R214 to R216): no wire activity, no
register written but the answer. -/

namespace Sys2Proof.Machine

/-- `config0` (R260). -/
def config0Of (c : Config) (flag : Bool) : Byte := if flag then c.cbsTrueByte else c.cbsTrueByte ^^^ 0x80

/-- `cbs` (R261): bit 7 alone. -/
def cbsOf (c : Config) (b : Byte) : Bool := b.getLsbD 7 == c.cbsTrueByte.getLsbD 7

/-- The bound of `config1`'s argument (R263). -/
def config1Limit : Nat := 7 * 1024

/-- `n` rounded up to whole KiB, in KiB (R263). -/
def kibRoundedUp (n : Nat) : Nat := (n + 1023) / 1024

/-- `config1` within its bound (R263). -/
def config1Of (n : Nat) : Byte := 0xFF - BitVec.ofNat 8 (kibRoundedUp n)

/-- `ldsize` (R264). -/
def ldsizeOf (b : Byte) : Nat := 7 - (b &&& 0x07).toNat

/-- PACK (R92). -/
def execPack (opcode : Byte) (parameter : Word32) (s : State) : Res := reply (.word24 (pack opcode parameter)) s

/-- NEED_ERASE (R214). -/
def execNeedErase (r : CompareResult) (s : State) : Res := reply (.bool (needErase r)) s

/-- NEED_WRITE (R215). -/
def execNeedWrite (r : CompareResult) (s : State) : Res := reply (.bool (needWrite r)) s

/-- EQUAL (R216). -/
def execEqual (r : CompareResult) (s : State) : Res := reply (.bool (equal r)) s

/-- PAGE_SIZE_OF (R126). -/
def execPageSizeOf (did : DeviceId) (s : State) : Res := reply (.nat (pageSizeOf did)) s

/-- FLASH_SIZE_OF (R127). -/
def execFlashSizeOf (did : DeviceId) (s : State) : Res := reply (.nat (flashSizeOf s.cfg did)) s

/-- CONFIG0 (R260). -/
def execConfig0 (flag : Bool) (s : State) : Res := reply (.byte (config0Of s.cfg flag)) s

/-- CBS (R261). -/
def execCbs (b : Byte) (s : State) : Res := reply (.bool (cbsOf s.cfg b)) s

/-- CONFIG1 (R263). -/
def execConfig1 (n : Nat) (s : State) : Res :=
  guarded (if config1Limit ≤ n then some .badCodecArgument else none) (reply (.byte (config1Of n)) s)

/-- LDSIZE (R264). -/
def execLdsize (b : Byte) (s : State) : Res := reply (.nat (ldsizeOf b)) s

end Sys2Proof.Machine
end

