-- ==== Sys2Proof/Machine/Target.lean ====
section
/-! DEFINITION. The target contract (20_memory.md R70 to R80): what a frame does to the target. A word, a response frame and a
payload frame each take effect as a whole (log 10). `k` is the draw counter; every function answers the next one. -/

namespace Sys2Proof.Machine

/-- An address of one of the two regions of `TMem` (R36). -/
def Target.has (c : Config) (t : Target) (a : Nat) : Bool :=
  a < t.flash || inRange c.configBase.toNat configLen a

/-- The target is connected, matches the parameters and is in programming mode, no reset handshake having been seen since, and no
sequence has been disrupted since its entry (R70 (a), (c) and (d); log 11, log 23). -/
def Target.live (t : Target) : Bool := t.matched && t.mode == .prog && !t.resetSeen && !t.broken

/-- Nothing is open on the target: a command word is what it expects next (R90; log 11). -/
def Target.ready (t : Target) : Bool := t.live && t.burst == .idle && t.frame == .boundary

/-- The whole contract of R70 is in force: the target is ready and not locked. -/
def Target.inContract (t : Target) : Bool := t.ready && !t.lock

/-- The whole of `TMem` becomes a draw (R78, R79). -/
def Target.redrawMem (c : Config) (k : Nat) (t : Target) : Memory :=
  Memory.fill (Config.drawMem k) c.configBase.toNat configLen (Memory.fill (Config.drawMem k) 0 t.flash t.mem)

/-- A frame outside the contract (R79): `TMem`, `TPTR`, `TMODE` and `TLOCK` become draws, and so does the protocol position
(log 11). A disruption is remembered: whatever mode is drawn, the contract stays off until an entry (R70 (d), R320). -/
def Target.outside (c : Config) (k : Nat) (t : Target) : Target :=
  { t with
    mode := Config.drawMode k, resetSeen := false, burst := Config.drawBurst k, frame := Config.drawFrame k
    ptr := Config.drawPtr k, lock := Config.drawLock k, mem := t.redrawMem c k }

/-- An erase or program under a set lock (R78): `TMem` and `TLOCK` become draws. -/
def Target.underLock (c : Config) (k : Nat) (t : Target) : Target :=
  { t with lock := Config.drawLock k, mem := t.redrawMem c k }

/-- The reset handshake (R71, R94; log 13): the target waits for the enter word, in a mode the source does not give until then. -/
def Target.onReset (t : Target) : Target :=
  { t with mode := .unknown, resetSeen := true, burst := .idle, frame := .boundary }

/-- The page that a page-erase command at `a` erases, as first address and length (R75): the target's own page in flash, the
whole block in the Config region. -/
def Target.pageOf (c : Config) (t : Target) (a : Nat) : Nat × Nat :=
  if a < t.flash then (pageBase t.page a, t.page) else (c.configBase.toNat, configLen)

/-- Page erase (R75). Its command word carries an address, so it loads `TPTR` (R37). Under lock the pointer is a draw (log 15); an
address of neither region is outside the contract (log 16). -/
def Target.onPageErase (c : Config) (k : Nat) (a : Nat) (t : Target) : Target × Nat :=
  if t.lock then ({ t.underLock c k with ptr := Config.drawPtr k }, k + 1)
  else if t.has c a then ({ t with ptr := a, mem := t.mem.erase (t.pageOf c a).1 (t.pageOf c a).2 }, k)
  else (t.outside c k, k + 1)

/-- Mass erase (R76): flash is erased, the config bytes and `TLOCK` are draws. -/
def Target.onMassErase (c : Config) (k : Nat) (t : Target) : Target × Nat :=
  if t.lock then (t.underLock c k, k + 1)
  else ({ t with
    lock := Config.drawLock k
    mem := Memory.fill (Config.drawMem k) c.configBase.toNat configLen (t.mem.erase 0 t.flash) }, k + 1)

/-- The start of a read burst (R73). Under lock the pointer is a draw (log 15). -/
def Target.onReadCommand (k : Nat) (a : Nat) (t : Target) : Target × Nat :=
  if t.lock then ({ t with ptr := Config.drawPtr k, burst := .read }, k + 1)
  else ({ t with ptr := a, burst := .read }, k)

/-- The start of a program burst (R74). Under lock the whole memory is a draw from here on (R78; log 15). -/
def Target.onProgramCommand (c : Config) (k : Nat) (a : Nat) (t : Target) : Target × Nat :=
  if t.lock then ({ t.underLock c k with ptr := Config.drawPtr k, burst := .programLocked }, k + 1)
  else ({ t with ptr := a, burst := .program }, k)

/-- The two bytes of `TDID` in the order of `DID_BYTE_ORDER` (R77). -/
def didBytes (c : Config) (did : DeviceId) : List Byte :=
  match c.didByteOrder with
  | .lowFirst => [did.extractLsb' 0 8, did.extractLsb' 8 8]
  | .highFirst => [did.extractLsb' 8 8, did.extractLsb' 0 8]

/-- A word seen by a ready target in programming mode (R99, R72 to R77, R102). The enter word seen there is outside the contract
(U21 of 93_implementation_defined.md). -/
def Target.onCommand (c : Config) (k : Nat) (w : Word24) (t : Target) : Target × Nat :=
  match classify c w with
  | .exit => ({ t with mode := .run }, k)
  | .enter => (t.outside c k, k + 1)
  | .readCid _ => ({ t with burst := .answer [t.cid] }, k)
  | .readDid _ => ({ t with burst := .answer (didBytes c t.did) }, k)
  | .read a => t.onReadCommand k a.toNat
  | .program a => t.onProgramCommand c k a.toNat
  | .pageErase a => t.onPageErase c k a.toNat
  | .massErase _ => t.onMassErase c k
  | .unassigned => ({ t.outside c k with mode := .unknown }, k + 1)

/-- The contract gives this word a meaning where the target stands: the enter word right after the reset handshake (R71), or a word
with a reading of R99 for a ready target. -/
def Target.expectsWord (c : Config) (w : Word24) (t : Target) : Bool :=
  (t.matched && t.resetSeen && w == c.enterWord) || (t.ready && classify c w != .enter && classify c w != .unassigned)

/-- A 24-bit word on the wire: the enter word right after the reset handshake enters programming mode (R71), which also recovers
from a disruption (R320, R130); a ready target reads a command, and everything else is outside the contract (R79). -/
def Target.onWord (c : Config) (k : Nat) (w : Word24) (t : Target) : Target × Nat :=
  if t.matched && t.resetSeen && w == c.enterWord then ({ t with mode := .prog, resetSeen := false, broken := false }, k)
  else if t.ready then t.onCommand c k w
  else (t.outside c k, k + 1)

/-- A payload frame under a set lock (R78): all of `TMem` and `TLOCK` are draws, and the pointer is (log 15). -/
def Target.lockedPayload (c : Config) (k : Nat) (last : Bool) (t : Target) : Target :=
  { t.underLock c k with ptr := Config.drawPtr k, burst := if last then .idle else .programLocked }

/-- A payload frame (R74): the program of one byte, the pointer stepping in burst mode only; the frame with `last` ends the
burst (log 34). Under a set lock R74 does not bind (R70 (b)), and the frame redraws the memory (R78; log 15). -/
def Target.onPayload (c : Config) (k : Nat) (d : Byte) (last : Bool) (t : Target) : Target × Nat :=
  match t.live && t.frame == .boundary, t.burst with
  | true, .program =>
    if t.lock then (t.lockedPayload c k last, k + 1)
    else if t.has c t.ptr then
      ({ t with
        mem := t.mem.write t.ptr (t.mem.read t.ptr &&& d)
        ptr := if c.writeMode = .burst then t.ptr + 1 else t.ptr
        burst := if last then .idle else .program }, k)
    else (t.outside c k, k + 1)
  | true, .programLocked => (t.lockedPayload c k last, k + 1)
  | _, _ => (t.outside c k, k + 1)

/-- A payload byte is what an unlocked target in a program burst expects next, at an address of its memory (R74). -/
def Target.takesByte (c : Config) (t : Target) : Bool :=
  t.live && t.frame == .boundary && t.burst == .program && !t.lock && t.has c t.ptr

/-- The range lies wholly in one of the two regions of the target's own memory (R36). -/
def Target.holds (c : Config) (t : Target) (a n : Nat) : Bool := a + n ≤ t.flash || inConfig c a n

/-! ### Response frames -/

/-- A response frame is what the target expects next: an identity byte is left to give, or a read burst is open. -/
def Target.answering (t : Target) : Bool :=
  t.live &&
    (match t.burst with
     | .answer (_ :: _) => true
     | .answer [] => false
     | .read => true
     | .idle => false
     | .program => false
     | .programLocked => false)

/-- The contract gives the byte of the next response frame: an identity byte, or `TMem[TPTR]` of an unlocked target. -/
def Target.determined (c : Config) (t : Target) : Bool :=
  t.live &&
    (match t.burst with
     | .answer (_ :: _) => true
     | .answer [] => false
     | .read => !t.lock && t.has c t.ptr
     | .idle => false
     | .program => false
     | .programLocked => false)

/-- The byte of the next response frame (R73, R77): a draw where the contract gives none (R78, R79). -/
def Target.nextByte (c : Config) (k : Nat) (t : Target) : Byte × Nat :=
  match t.determined c, t.burst with
  | true, .answer (b :: _) => (b, k)
  | true, .read => (t.mem.read t.ptr, k)
  | _, _ => (Config.drawSample k, k + 1)

/-- The byte of the next response frame, and the target when it has taken the byte up for presentation: seven bits are left
after the first. No pointer moves yet (R73). A frame that is not expected is outside the contract (R79). -/
def Target.answer (c : Config) (k : Nat) (t : Target) : Byte × Target × Nat :=
  let r := t.nextByte c k
  if t.answering then (r.1, { t with frame := .presenting true (bitsMsb r.1).tail }, r.2)
  else (r.1, { t.outside c k with frame := .presenting false (bitsMsb r.1).tail }, k + 1)

/-- After the eight data bits of an expected frame (R73): `TPTR` steps, a draw where the address is in no region or the lock is set
(log 15, log 16); an identity byte is given (R77). -/
def Target.delivered (c : Config) (k : Nat) (t : Target) : Target × Nat :=
  match t.burst with
  | .answer (_ :: bs) => ({ t with burst := .answer bs }, k)
  | .answer [] => (t, k)
  | .read => if t.determined c then ({ t with ptr := t.ptr + 1 }, k) else ({ t with ptr := Config.drawPtr k }, k + 1)
  | .idle => (t, k)
  | .program => (t, k)
  | .programLocked => (t, k)

/-- A response frame that has begun is one the contract gives (R73, R77): its data bits may be over, and the last identity byte given
with them. -/
def Target.inResponse (t : Target) : Bool :=
  t.live &&
    (match t.burst with
     | .answer _ => true
     | .read => true
     | .idle => false
     | .program => false
     | .programLocked => false)

/-- The ninth pulse of a response frame, with the level the engine drives on DAT (R73, R95, R155): `last` ends the burst. A trailer
that the target does not wait for, or that the engine does not drive, is outside the contract (R70, R79). -/
def Target.trailerPulse (c : Config) (k : Nat) (dat : Level) (t : Target) : Target × Nat :=
  match t.frame, t.inResponse, dat with
  | .presenting true [], true, .low => ({ t with frame := .boundary }, k)
  | .presenting true [], true, .high => ({ t with frame := .boundary, burst := .idle }, k)
  | _, _, _ => (t.outside c k, k + 1)

/-- What the eight data bits and the trailer of an expected response frame leave (R73, R95). -/
def Target.afterFrame (c : Config) (k : Nat) (last : Bool) (t : Target) : Target × Nat :=
  let r := { t with frame := .presenting true [] }.delivered c k
  r.1.trailerPulse c r.2 (Level.ofBit last)

/-- A data bit of a frame that has begun on a target which the contract does not bind (R70, R79): a draw, and with it what is left
of the byte. -/
def Target.strayBit (c : Config) (k left : Nat) (t : Target) : Bool × Target × Nat :=
  ((Config.drawSample k).msb,
   { t.outside c (k + 1) with frame := .presenting false ((bitsMsb (Config.drawSample k)).tail.take left) }, k + 2)

/-- A data bit of a frame that has begun: the next one of the byte taken up; the eighth ends the presentation (R73). -/
def Target.dataBit (c : Config) (k : Nat) (b : Bool) (rest : List Bool) (t : Target) : Bool × Target × Nat :=
  if t.answering then
    match rest with
    | [] => (b, { t with frame := .presenting true [] }.delivered c k)
    | x :: rest => (b, { t with frame := .presenting true (x :: rest) }, k)
  else t.strayBit c k rest.length

/-- One clock pulse of a response frame at which DAT is sampled (R73, R154): the bit on the line, and the target after the pulse. The
first pulse takes a byte up, the eighth ends its presentation, the ninth is the trailer's, at which the line carries a draw
(log 32). Outside the contract every pulse redraws the target (R79). `dat` is the engine's side of the line. -/
def Target.present (c : Config) (k : Nat) (dat : Level) (t : Target) : Bool × Target × Nat :=
  match t.frame with
  | .boundary => ((t.answer c k).1.msb, (t.answer c k).2)
  | .presenting _ [] => ((Config.drawSample k).msb, t.trailerPulse c (k + 1) dat)
  | .presenting true (b :: rest) => t.dataBit c k b rest
  | .presenting false (b :: rest) => (b, { t.outside c k with frame := .presenting false rest }, k + 1)

/-- The next pulse of a response frame is one the contract gives where the target stands (R70, R73, R77). -/
def Target.expectsPulse (t : Target) : Bool :=
  match t.frame with
  | .boundary => t.answering
  | .presenting true [] => t.inResponse
  | .presenting true (_ :: _) => t.answering
  | .presenting false _ => false

/-- The next response frame may carry `d`: one is expected, and the contract gives no other byte (R70, R79; log 25). -/
def Target.mayCarry (c : Config) (k : Nat) (d : Byte) (t : Target) : Bool :=
  t.answering && t.frame == .boundary && (!t.determined c || (t.answer c k).1 == d)

/-- A response frame whose data byte is `d` (R95): the target moves as for its own answer; a byte that contradicts the contract
shows that the contract is not in force (R70, R79; log 25). -/
def Target.respond (c : Config) (k : Nat) (d : Byte) (last : Bool) (t : Target) : Target × Nat :=
  if t.mayCarry c k d then t.afterFrame c k last else (t.outside c k, k + 1)

/-- The first `bits` clock pulses of such a frame: the target moves pulse by pulse, as for its own answer (R73). -/
def Target.respondPart (c : Config) (k : Nat) (d : Byte) (last : Bool) (bits : Nat) (t : Target) : Target × Nat :=
  if !t.mayCarry c k d then (t.outside c k, k + 1)
  else if bits = 0 then (t, k)
  else if bits < 8 then ({ t with frame := .presenting true ((bitsMsb d).drop bits) }, k)
  else if bits = 8 then { t with frame := .presenting true [] }.delivered c k
  else t.afterFrame c k last

/-- The answer to the lock query (R124, R78): `TLOCK` when the target is ready, otherwise a draw, and a target outside the
contract with draws of its own (R79). -/
def Target.lockAnswer (c : Config) (k : Nat) (t : Target) : Bool × Target × Nat :=
  if t.ready then (t.lock, t, k) else (Config.drawLock k, t.outside c (k + 1), k + 2)

end Sys2Proof.Machine
end

