-- ==== Sys2Proof/Machine/Transport.lean ====
section
/-! DEFINITION. The transport primitives over the whole state (41_transport.md): the engine's registers and lines, the traces, and
the target at the other end. None is refused (R283, R288). The rows TIKTOK to RELEASE of the table are their meanings. -/

namespace Sys2Proof.Machine

/-- The target and the draw counter after an event on the wire. -/
def State.withTarget (s : State) (r : Target × Nat) : State := { s with target := r.1, draws := r.2 }

/-- TIKTOK (R151): one clock pulse, DAT and RST untouched. -/
def tiktok (setup hold : Nat) (s : State) : State := emitPins (tiktokPins setup hold) s

/-- WRITE24 (R152): 24 bits out, most-significant first. -/
def write24 (w : Word24) (t : Profile) (s : State) : State :=
  emit (.tx24 w t) ({ s with txsr := w, bitcnt := 0 }.withTarget (s.target.onWord s.cfg s.draws w))

/-- WRITE24P (R153): WRITE24 of the packed word. -/
def write24p (opcode : Byte) (parameter : Word32) (t : Profile) (s : State) : State := write24 (pack opcode parameter) t s

/-- One sampled pulse, with the level `dat` on the engine's side of DAT (R73, R154). -/
def sampleBit (dat : Level) (s : State) : Bool × State :=
  ((s.target.present s.cfg s.draws dat).1, s.withTarget (s.target.present s.cfg s.draws dat).2)

/-- BITIN (R154): one sampled bit under a profile. -/
def bitin (t : Profile) (s : State) : Bool × State :=
  ((sampleBit s.lines.dat s).1, emitPins (bitInPins t (sampleBit s.lines.dat s).1) (sampleBit s.lines.dat s).2)

/-- The next `n` bits, in arrival order, with DAT released (R155). -/
def sampleBits : Nat → State → List Bool × State
  | 0, s => ([], s)
  | n + 1, s => ((sampleBit .z s).1 :: (sampleBits n (sampleBit .z s).2).1, (sampleBits n (sampleBit .z s).2).2)

/-- The engine's side of a response frame (R155): the shift register, the trailer it drives, and the trace. -/
def received (d : Byte) (last : Bool) (t : Profile) (s : State) : State :=
  emit (.rx9 d last t) { s with rxsr := frame9 d false, bitcnt := 0 }

/-- READ9 (R155): eight sampled bits and a trailer that the engine drives. -/
def read9 (last : Bool) (t : Profile) (s : State) : Byte × State :=
  let r := sampleBits 8 s
  let d := byteOfBits r.1
  (d, received d last t (r.2.withTarget (r.2.target.trailerPulse s.cfg r.2.draws (Level.ofBit last))))

/-- A response frame that carries `d` (R95): READ9 whose eight samples are the bits of `d` (log 25). -/
def receiveFrame (d : Byte) (last : Bool) (t : Profile) (s : State) : State :=
  received d last t (s.withTarget (s.target.respond s.cfg s.draws d last))

/-- WRITE9 (R156): eight driven bits and the trailer. -/
def write9 (d : Byte) (last : Bool) (tb tt : Profile) (s : State) : State :=
  emit (.tx9 d last tb tt) ({ s with bitcnt := 0 }.withTarget (s.target.onPayload s.cfg s.draws d last))

/-- SETTLE (R157): one TIKTOK, DAT left as it is. -/
def settle (t : Profile) (s : State) : State := emit (.settle t) s

/-- RESETPULSE (R158): the reset literal on RST; DAT and CLK do not move. -/
def resetPulse (s : State) : State :=
  emit (.resetPulse s.cfg.resetLiteral s.cfg.tReset) { s with target := s.target.onReset }

/-- DRIVE (R159). -/
def drive (s : State) : State := emit .drive s

/-- RELEASE (R160). -/
def release (s : State) : State := emit .release s

/-- The engine's side of one transport call of the lock query (R124); what it samples is device-specific, a draw (log 17). -/
def lockCall (s : State) : LockCall → State
  | .write24 w t => emitPins (WireEvent.tx24 w t).pins { s with txsr := w, bitcnt := 0 }
  | .read9 last t =>
    emitPins (WireEvent.rx9 (Config.drawSample s.draws) last t).pins
      { s with rxsr := frame9 (Config.drawSample s.draws) false, bitcnt := 0, draws := s.draws + 1 }
  | .tiktok setup hold => tiktok setup hold s

/-- `emit OPAQUE(LOCK_QUERY)` (R124): the single frame event, the pin events of its calls, and the target's answer. -/
def lockQuery (s : State) : Bool × State :=
  let r := s.target.lockAnswer s.cfg s.draws
  (r.1, s.cfg.lockQuery.foldl lockCall (emit .lockQuery (s.withTarget r.2)))

end Sys2Proof.Machine
end

