-- ==== Sys2Proof/Machine/Primitives.lean ====
section
/-! DEFINITION. The internal transport primitives as instructions (41_transport.md). None is refused, none writes CMP or a
host-visible register. -/

namespace Sys2Proof.Machine

/-- WRITE24 (R152). -/
def execWrite24 (w : Word24) (t : Profile) (s : State) : Res := reply .unit (write24 w t s)

/-- WRITE24P (R153). -/
def execWrite24p (opcode : Byte) (parameter : Word32) (t : Profile) (s : State) : Res :=
  reply .unit (write24p opcode parameter t s)

/-- READ9 (R155). -/
def execRead9 (last : Bool) (t : Profile) (s : State) : Res := reply (.byte (read9 last t s).1) (read9 last t s).2

/-- WRITE9 (R156). -/
def execWrite9 (d : Byte) (last : Bool) (tb tt : Profile) (s : State) : Res := reply .unit (write9 d last tb tt s)

/-- TIKTOK (R151). -/
def execTiktok (setup hold : Nat) (s : State) : Res := reply .unit (tiktok setup hold s)

/-- BITIN (R154). -/
def execBitin (t : Profile) (s : State) : Res := reply (.bool (bitin t s).1) (bitin t s).2

/-- SETTLE (R157). -/
def execSettle (t : Profile) (s : State) : Res := reply .unit (settle t s)

/-- RESETPULSE (R158). -/
def execResetpulse (s : State) : Res := reply .unit (resetPulse s)

/-- DRIVE (R159). -/
def execDrive (s : State) : Res := reply .unit (drive s)

/-- RELEASE (R160). -/
def execRelease (s : State) : Res := reply .unit (release s)

end Sys2Proof.Machine
end

