-- ==== Sys2Proof/Machine/Script.lean ====
section
/-! DEFINITION. Operations as sequences of steps: the pseudocode of 40_session.md to 44_wrappers.md written as a list of register
moves and frames, and its run. An operation runs its whole list before the next begins (R11, R26); the list is what an
external disruption cuts short (R320). -/

namespace Sys2Proof.Machine

/-- One step of an operation's pseudocode. -/
inductive Micro
  | setAddr (a : Addr18)
  | setRem (n : Nat)
  | decRem
  | drive
  | resetPulse
  | word (w : Word24) (t : Profile)
  | command (o : BitVec 6) (parameter : Word32) (t : Profile)
  | receive (last : Bool) (t : Profile)
  | payload (d : Byte) (last : Bool) (tb tt : Profile)
  | settle (t : Profile)
  | lockQuery
  | release
  | pulse (setup hold : Nat)
  | bitIn (t : Profile)
  | respond (d : Byte) (last : Bool) (t : Profile)
deriving DecidableEq, Repr

/-- The bytes a step receives, and the state after it. -/
def Micro.run (m : Micro) (s : State) : List Byte × State :=
  match m with
  | .setAddr a => ([], { s with addr := a })
  | .setRem n => ([], { s with rem := n })
  | .decRem => ([], { s with rem := s.rem - 1 })
  | .drive => ([], Machine.drive s)
  | .resetPulse => ([], Machine.resetPulse s)
  | .word w t => ([], write24 w t s)
  | .command o p t => ([], write24p (opcodeArg o) p t s)
  | .receive last t => ([(read9 last t s).1], (read9 last t s).2)
  | .payload d last tb tt => ([], write9 d last tb tt s)
  | .settle t => ([], Machine.settle t s)
  | .lockQuery => ([], (Machine.lockQuery s).2)
  | .release => ([], Machine.release s)
  | .pulse setup hold => ([], tiktok setup hold s)
  | .bitIn t => ([], (bitin t s).2)
  | .respond d last t => ([d], receiveFrame d last t s)

/-- How many bytes a step's frame carries. -/
def Micro.bytes : Micro → Nat
  | .receive _ _ => 1
  | .payload _ _ _ _ => 1
  | .setAddr _ => 0
  | .setRem _ => 0
  | .decRem => 0
  | .drive => 0
  | .resetPulse => 0
  | .word _ _ => 0
  | .command _ _ _ => 0
  | .settle _ => 0
  | .lockQuery => 0
  | .release => 0
  | .pulse _ _ => 0
  | .bitIn _ => 0
  | .respond _ _ _ => 1

/-- How many wire events a step is (R26): a register move is none. -/
def Micro.events : Micro → Nat
  | .setAddr _ => 0
  | .setRem _ => 0
  | .decRem => 0
  | .drive => 1
  | .resetPulse => 1
  | .word _ _ => 1
  | .command _ _ _ => 1
  | .receive _ _ => 1
  | .payload _ _ _ _ => 1
  | .settle _ => 1
  | .lockQuery => 1
  | .release => 1
  | .pulse _ _ => 1
  | .bitIn _ => 1
  | .respond _ _ _ => 1

/-- `SEQ` after a step (R26): it advances with the wire events, in the order of the list, and never otherwise. -/
def Seq.advance (q : Seq) (m : Micro) : Seq :=
  match q with
  | .idle => .idle
  | .running op phase byteIndex bitIndex => .running op (phase + m.events) (byteIndex + m.bytes) bitIndex

/-- A list of steps in order: the bytes received and the state after the last step. -/
def runScript : List Micro → State → List Byte × State
  | [], s => ([], s)
  | m :: ms, s =>
    let r := m.run s
    let q := runScript ms { r.2 with seq := r.2.seq.advance m }
    (r.1 ++ q.1, q.2)

/-- An operation from its first step to its last, `SEQ` idle before and after (R26). -/
def perform (op : Instr) (script : List Micro) (s : State) : List Byte × State :=
  let r := runScript script { s with seq := .running op 0 0 0 }
  (r.1, { r.2 with seq := .idle })

/-! ### The scripts of the operations -/

/-- ENTER (R120). -/
def enterScript (c : Config) : List Micro :=
  [.drive, .resetPulse, .word c.enterWord c.tMode,
   .command c.opReadCid (paramArg c.paramReadCid) c.tRead, .receive true c.tRead,
   .command c.opReadDid (paramArg c.paramReadDid) c.tRead, .receive false c.tRead, .receive true c.tRead]

/-- EXIT (R122): DRIVE first only when issued while Disconnected. -/
def exitScript (c : Config) (sess : SessTag) : List Micro :=
  (if sess = .disconnected then [.drive] else []) ++ [.word c.exitWord c.tMode, .release]

/-- LOCKED (R124). -/
def lockedScript : List Micro := [.lockQuery]

/-- One page erase with the delay pair of its settle (R180). -/
def eraseScript (c : Config) (t : Profile) (a : Word32) : List Micro :=
  [.setAddr (a.setWidth 18), .command c.opPageErase a c.tRead, .settle t]

/-- MASS_ERASE (R182): one command word and one settle, not a loop over pages (R183). -/
def massEraseScript (c : Config) : List Micro :=
  [.command c.opMassErase (paramArg c.paramMassErase) c.tRead, .settle c.tMassErase]

/-- The `n` response frames of a read burst, `last` on the final one (R184). -/
def receiveFrames (t : Profile) : Nat → List Micro
  | 0 => []
  | n + 1 => .receive (n = 0) t :: .decRem :: receiveFrames t n

/-- READ (R184). -/
def readScript (c : Config) (a : Word32) (n : Nat) : List Micro :=
  .setAddr (a.setWidth 18) :: .setRem n :: .command c.opRead a c.tRead :: receiveFrames c.tRead n

/-- The payload frames of a program burst, `last` on the final one (R186); `REM` counts down with the bytes (R27; log 19). -/
def payloadFrames (t : Profile) : List Byte → List Profile → List Micro
  | d :: buf, tt :: slices => .payload d buf.isEmpty t tt :: .decRem :: payloadFrames t buf slices
  | _, _ => []

/-- The pairs of command word and payload of per-byte mode (R186), `REM` counting down (R27; log 19). -/
def perByteFrames (c : Config) : Word32 → List Byte → List Profile → List Micro
  | a, d :: buf, tt :: slices =>
    .command c.opProgram a c.tRead :: .payload d true c.tRead tt :: .decRem :: perByteFrames c (a + 1) buf slices
  | _, _, _ => []

/-- WRITE (R186) in the mode `WRITE_MODE` selects. -/
def writeScript (c : Config) (a : Word32) (buf : List Byte) : List Micro :=
  .setAddr (a.setWidth 18) :: .setRem buf.length ::
    (match c.writeMode with
     | .burst =>
       .command c.opProgram a c.tRead :: payloadFrames c.tRead buf (slicesOf c .program buf.length buf.length)
     | .perByte => perByteFrames c a buf (slicesOf c .program buf.length buf.length))

/-- One ERASE for each address, each with its own settle (R236, R163). -/
def eraseEach (c : Config) : List Nat → List Profile → List Micro
  | a :: addrs, t :: slices => eraseScript c t (BitVec.ofNat 32 a) ++ eraseEach c addrs slices
  | _, _ => []

/-- FLASH_ERASE (R236). -/
def flashEraseScript (c : Config) (did : DeviceId) (a : Word32) (n : Nat) : List Micro :=
  let addrs := eraseAddresses (pageSizeOf did) a.toNat n
  eraseEach c addrs (slicesOf c .pageErase n addrs.length)

end Sys2Proof.Machine
end

