-- ==== Sys2Proof/Machine/Session.lean ====
section
/-! DEFINITION. The session operations: ENTER, EXIT, LOCKED, DEVICE_ID, PAGE_SIZE, FLASH_SIZE (40_session.md). None writes CMP. -/

namespace Sys2Proof.Machine

/-- `DID` from the two response bytes in the order they arrived (R120). -/
def didOfBytes (c : Config) (b0 b1 : Byte) : DeviceId :=
  match c.didByteOrder with
  | .lowFirst => b1 ++ b0
  | .highFirst => b0 ++ b1

/-- The end of ENTER (R120): the identity is cached and the session entered. -/
def enterFinish (c b0 b1 : Byte) (s : State) : State :=
  { s with cid := c, did := didOfBytes s.cfg b0 b1, idValid := true, sess := .entered }

/-- ENTER (R120): admitted in either session state, never refused. -/
def execEnter (s : State) : Res :=
  let r := perform .enter (enterScript s.cfg) s
  let c := r.1.getD 0 0
  reply (.byte c) (enterFinish c (r.1.getD 1 0) (r.1.getD 2 0) r.2)

/-- EXIT (R122): admitted in either session state, never refused. -/
def execExit (s : State) : Res :=
  reply .unit { (perform .exit (exitScript s.cfg s.sess) s).2 with idValid := false, sess := .disconnected }

/-- LOCKED (R124). -/
def execLocked (s : State) : Res :=
  guarded (admitSession s)
    (reply (.bool (s.target.lockAnswer s.cfg s.draws).1) (perform .locked lockedScript s).2)

/-- DEVICE_ID (R125). -/
def execDeviceId (s : State) : Res := guarded (admitIdentity s) (reply (.word s.did) s)

/-- PAGE_SIZE (R126). -/
def execPageSize (s : State) : Res := guarded (admitIdentity s) (reply (.nat (pageSizeOf s.did)) s)

/-- FLASH_SIZE (R127). -/
def execFlashSize (s : State) : Res := guarded (admitIdentity s) (reply (.nat (flashSizeOf s.cfg s.did)) s)

end Sys2Proof.Machine
end

