-- ==== Sys2Proof/Machine/Wire.lean ====
section
/-! DEFINITION. The wire words and frames as instructions (30_encoding.md R91 to R99): the word or frame goes over the wire, by
itself, with the profile R161 assigns to it, and the target does what the contract says (20_memory.md). -/

namespace Sys2Proof.Machine

/-- A command word, every bit under `T_READ` (R161). -/
def sendCommand (o : BitVec 6) (p : Addr18) (s : State) : Res :=
  reply .unit (write24p (opcodeArg o) (paramArg p) s.cfg.tRead s)

/-- A literal word, every bit under `T_MODE` (R161). -/
def sendLiteral (w : Word24) (s : State) : Res := reply .unit (write24 w s.cfg.tMode s)

/-- CMD_READ_CID (R98, R77). -/
def execCmdReadCid (s : State) : Res := sendCommand s.cfg.opReadCid s.cfg.paramReadCid s

/-- CMD_READ_DID (R98, R77). -/
def execCmdReadDid (s : State) : Res := sendCommand s.cfg.opReadDid s.cfg.paramReadDid s

/-- CMD_READ (R98, R73). -/
def execCmdRead (a : Addr18) (s : State) : Res := sendCommand s.cfg.opRead a s

/-- CMD_PROGRAM (R98, R74). -/
def execCmdProgram (a : Addr18) (s : State) : Res := sendCommand s.cfg.opProgram a s

/-- CMD_PAGE_ERASE (R98, R75). -/
def execCmdPageErase (a : Addr18) (s : State) : Res := sendCommand s.cfg.opPageErase a s

/-- CMD_MASS_ERASE (R98, R76). -/
def execCmdMassErase (s : State) : Res := sendCommand s.cfg.opMassErase s.cfg.paramMassErase s

/-- ENTER_WORD (R93, R71). -/
def execEnterWord (s : State) : Res := sendLiteral s.cfg.enterWord s

/-- EXIT_WORD (R93, R72). -/
def execExitWord (s : State) : Res := sendLiteral s.cfg.exitWord s

/-- RESP9 (R95): a response frame that carries `d`, its nine pulses under `T_READ` (R161; log 25). -/
def execResp9 (d : Byte) (last : Bool) (s : State) : Res := reply (.byte d) (receiveFrame d last s.cfg.tRead s)

/-- PAY9 (R96): a payload frame, its data bits under `T_READ` and its trailer under `T_PROGRAM` (R161). -/
def execPay9 (d : Byte) (last : Bool) (s : State) : Res := reply .unit (write9 d last s.cfg.tRead s.cfg.tProgram s)

end Sys2Proof.Machine
end

