-- ==== Sys2Proof/Machine/MemoryOps.lean ====
section
/-! DEFINITION. The memory operations ERASE, MASS_ERASE, READ, WRITE (42_memory_ops.md), COMPARE (43_compare.md) and VERIFY
(44_wrappers.md R241). Each shared form takes the operation that is running, so that a wrapper is its expansion under its own
name (R105, R242). -/

namespace Sys2Proof.Machine

/-- ERASE at `a` (R180). -/
def eraseAt (op : Instr) (a : Word32) (s : State) : Res :=
  guarded (admission a.toNat 1 s) (reply .unit (perform op (eraseScript s.cfg s.cfg.tPageErase a) s).2)

/-- READ of `n` bytes at `a` (R184). -/
def readAt (op : Instr) (a : Word32) (n : Nat) (s : State) : Res :=
  guarded (admission a.toNat n s)
    (reply (.bytes (perform op (readScript s.cfg a n) s).1) (perform op (readScript s.cfg a n) s).2)

/-- WRITE of a buffer at `a` (R186): no read before, no content check (R187). -/
def writeAt (op : Instr) (a : Word32) (buf : List Byte) (s : State) : Res :=
  guarded (admission a.toNat buf.length s) (reply .unit (perform op (writeScript s.cfg a buf) s).2)

/-- The flags of a comparison, and the state with `CMP` written (R210): READ's burst, then the aggregation. -/
def compared (op : Instr) (a : Word32) (buf : List Byte) (s : State) : CompareResult × State :=
  let r := perform op (readScript s.cfg a buf.length) s
  (compareBytes r.1 buf, { r.2 with cmp := compareBytes r.1 buf })

/-- COMPARE of a buffer at `a` (R210). -/
def compareAt (op : Instr) (a : Word32) (buf : List Byte) (s : State) : Res :=
  guarded (admission a.toNat buf.length s) (reply (.flags (compared op a buf s).1) (compared op a buf s).2)

/-- VERIFY of a buffer at `a` (R241): the comparison reduced to EQUAL. -/
def verifyAt (op : Instr) (a : Word32) (buf : List Byte) (s : State) : Res :=
  guarded (admission a.toNat buf.length s) (reply (.bool (equal (compared op a buf s).1)) (compared op a buf s).2)

/-- MASS_ERASE (R182). -/
def execMassErase (s : State) : Res :=
  guarded (admitSession s) (reply .unit (perform .massErase (massEraseScript s.cfg) s).2)

/-- ERASE (R180). -/
def execErase (a : Word32) (s : State) : Res := eraseAt (.erase a) a s

/-- READ (R184). -/
def execRead (a : Word32) (n : Nat) (s : State) : Res := readAt (.read a n) a n s

/-- WRITE (R186). -/
def execWrite (a : Word32) (buf : List Byte) (s : State) : Res := writeAt (.write a buf) a buf s

/-- COMPARE (R210). -/
def execCompare (a : Word32) (buf : List Byte) (s : State) : Res := compareAt (.compare a buf) a buf s

/-- VERIFY (R241). -/
def execVerify (a : Word32) (buf : List Byte) (s : State) : Res := verifyAt (.verify a buf) a buf s

end Sys2Proof.Machine
end

