-- ==== Sys2Proof/Machine/Wrappers.lean ====
section
/-! DEFINITION. The Config and Flash wrappers (44_wrappers.md): direct applications of the memory operations. -/

namespace Sys2Proof.Machine

/-- CONFIG_ERASE (R231): `ERASE(CONFIG_BASE)`. -/
def execConfigErase (s : State) : Res := eraseAt .configErase (configAddress s.cfg) s

/-- CONFIG_READ (R232): `READ(CONFIG_BASE, 5)`. -/
def execConfigRead (s : State) : Res := readAt .configRead (configAddress s.cfg) configLen s

/-- CONFIG_WRITE (R233): `WRITE(CONFIG_BASE, buf)` behind the length check of R230. -/
def execConfigWrite (buf : List Byte) (s : State) : Res :=
  guarded (admitConfigBuffer buf s) (writeAt (.configWrite buf) (configAddress s.cfg) buf s)

/-- CONFIG_COMPARE (R234): `COMPARE(CONFIG_BASE, buf)` behind the length check of R230. -/
def execConfigCompare (buf : List Byte) (s : State) : Res :=
  guarded (admitConfigBuffer buf s) (compareAt (.configCompare buf) (configAddress s.cfg) buf s)

/-- CONFIG_VERIFY (R235): `equal(COMPARE(CONFIG_BASE, buf))` behind the length check of R230. -/
def execConfigVerify (buf : List Byte) (s : State) : Res :=
  guarded (admitConfigBuffer buf s) (verifyAt (.configVerify buf) (configAddress s.cfg) buf s)

/-- FLASH_ERASE (R236): one ERASE for every page the range touches, by the engine's own page size. -/
def execFlashErase (a : Word32) (n : Nat) (s : State) : Res :=
  guarded (admission a.toNat n s) (reply .unit (perform (.flashErase a n) (flashEraseScript s.cfg s.did a n) s).2)

/-- FLASH_READ (R237): `READ(a, n)`. -/
def execFlashRead (a : Word32) (n : Nat) (s : State) : Res := readAt (.flashRead a n) a n s

/-- FLASH_WRITE (R238): `WRITE(a, buf)`. -/
def execFlashWrite (a : Word32) (buf : List Byte) (s : State) : Res := writeAt (.flashWrite a buf) a buf s

/-- FLASH_COMPARE (R239): `COMPARE(a, buf)`. -/
def execFlashCompare (a : Word32) (buf : List Byte) (s : State) : Res := compareAt (.flashCompare a buf) a buf s

/-- FLASH_VERIFY (R240): `equal(COMPARE(a, buf))`. -/
def execFlashVerify (a : Word32) (buf : List Byte) (s : State) : Res := verifyAt (.flashVerify a buf) a buf s

end Sys2Proof.Machine
end

