-- ==== Sys2Proof/Machine/Dispatch.lean ====
section
/-! DEFINITION. The dispatch: one arm per constructor of `Instr`, each one direct call of its meaning. -/

namespace Sys2Proof.Machine

def exec (i : Instr) (s : State) : Host.Outcome State Fault Refusal :=
  match i with
  | .cmdReadCid => Sys2Proof.Machine.execCmdReadCid s
  | .cmdReadDid => Sys2Proof.Machine.execCmdReadDid s
  | .cmdRead a => Sys2Proof.Machine.execCmdRead a s
  | .cmdProgram a => Sys2Proof.Machine.execCmdProgram a s
  | .cmdPageErase a => Sys2Proof.Machine.execCmdPageErase a s
  | .cmdMassErase => Sys2Proof.Machine.execCmdMassErase s
  | .enterWord => Sys2Proof.Machine.execEnterWord s
  | .exitWord => Sys2Proof.Machine.execExitWord s
  | .resp9 d last => Sys2Proof.Machine.execResp9 d last s
  | .pay9 d last => Sys2Proof.Machine.execPay9 d last s
  | .enter => Sys2Proof.Machine.execEnter s
  | .exit => Sys2Proof.Machine.execExit s
  | .locked => Sys2Proof.Machine.execLocked s
  | .deviceId => Sys2Proof.Machine.execDeviceId s
  | .pageSize => Sys2Proof.Machine.execPageSize s
  | .flashSize => Sys2Proof.Machine.execFlashSize s
  | .massErase => Sys2Proof.Machine.execMassErase s
  | .configErase => Sys2Proof.Machine.execConfigErase s
  | .configRead => Sys2Proof.Machine.execConfigRead s
  | .configWrite buf => Sys2Proof.Machine.execConfigWrite buf s
  | .configCompare buf => Sys2Proof.Machine.execConfigCompare buf s
  | .configVerify buf => Sys2Proof.Machine.execConfigVerify buf s
  | .flashErase a n => Sys2Proof.Machine.execFlashErase a n s
  | .flashRead a n => Sys2Proof.Machine.execFlashRead a n s
  | .flashWrite a buf => Sys2Proof.Machine.execFlashWrite a buf s
  | .flashCompare a buf => Sys2Proof.Machine.execFlashCompare a buf s
  | .flashVerify a buf => Sys2Proof.Machine.execFlashVerify a buf s
  | .erase a => Sys2Proof.Machine.execErase a s
  | .read a n => Sys2Proof.Machine.execRead a n s
  | .write a buf => Sys2Proof.Machine.execWrite a buf s
  | .compare a buf => Sys2Proof.Machine.execCompare a buf s
  | .verify a buf => Sys2Proof.Machine.execVerify a buf s
  | .write24 w t => Sys2Proof.Machine.execWrite24 w t s
  | .write24p opcode parameter t => Sys2Proof.Machine.execWrite24p opcode parameter t s
  | .read9 last t => Sys2Proof.Machine.execRead9 last t s
  | .write9 d last tb tt => Sys2Proof.Machine.execWrite9 d last tb tt s
  | .tiktok setup hold => Sys2Proof.Machine.execTiktok setup hold s
  | .bitin t => Sys2Proof.Machine.execBitin t s
  | .settle t => Sys2Proof.Machine.execSettle t s
  | .resetpulse => Sys2Proof.Machine.execResetpulse s
  | .drive => Sys2Proof.Machine.execDrive s
  | .release => Sys2Proof.Machine.execRelease s
  | .pack opcode parameter => Sys2Proof.Machine.execPack opcode parameter s
  | .needErase r => Sys2Proof.Machine.execNeedErase r s
  | .needWrite r => Sys2Proof.Machine.execNeedWrite r s
  | .equal r => Sys2Proof.Machine.execEqual r s
  | .pageSizeOf did => Sys2Proof.Machine.execPageSizeOf did s
  | .flashSizeOf did => Sys2Proof.Machine.execFlashSizeOf did s
  | .config0 flag => Sys2Proof.Machine.execConfig0 flag s
  | .cbs b => Sys2Proof.Machine.execCbs b s
  | .config1 n => Sys2Proof.Machine.execConfig1 n s
  | .ldsize b => Sys2Proof.Machine.execLdsize b s

end Sys2Proof.Machine
end

