-- ==== Sys2Proof/Machine/Disrupt.lean ====
section
/-! DEFINITION. An external disruption of an operation (70_reset_and_hazards.md R320): the operation stops after a prefix of its
wire trace, which may end inside a frame. It cannot arise inside the model; `State.disrupt` is the input by which the outside world
causes it, counting register moves and pin events (log 23). -/

namespace Sys2Proof.Machine

/-! ### A prefix of a frame -/

/-- Clock pulses completed in a sequence of pin events (R151). -/
def pulsesDone (evs : List PinEvent) : Nat := evs.count (.set .clk .low)

/-- `SEQ` inside a frame, after `bits` of its bits (R26). -/
def Seq.atBit (q : Seq) (bits : Nat) : Seq :=
  match q with
  | .idle => .idle
  | .running op phase byteIndex _ => .running op phase byteIndex bits

/-- A frame of `len` bits of which the pin events `evs` took place: `BITCNT` holds the bits left (R27), no frame event is emitted. -/
def cutFrame (len : Nat) (evs : List PinEvent) (s : State) : State :=
  { emitPins evs s with bitcnt := BitVec.ofNat 5 (len - pulsesDone evs), seq := s.seq.atBit (pulsesDone evs) }

/-- `RXSR` when `bits` bits of a response have been taken (R155): the later ones are still 0. -/
def rxsrAfter (d : Byte) (bits : Nat) : Frame9 := frame9 d false &&& (0x1FF <<< (9 - min bits 8))

/-- A part of a frame that the contract gives no meaning where the target stands is outside the contract (R79). -/
def State.strayUnless (expected : Bool) (s : State) : State :=
  if expected then s else s.withTarget (s.target.outside s.cfg s.draws, s.draws + 1)

/-- A part of a command or literal word: the target has not taken it up yet (log 10). -/
def cutWord (n : Nat) (w : Word24) (t : Profile) (s : State) : State :=
  { cutFrame 24 ((WireEvent.tx24 w t).pins.take n) (s.strayUnless (s.target.expectsWord s.cfg w)) with txsr := w }

/-- A part of a response frame (R155): the bits sampled so far, and the trailer once its pulse is done. -/
def cutReceive (n : Nat) (last : Bool) (t : Profile) (s : State) : State :=
  let full := sampleBits 8 s
  let d := byteOfBits full.1
  let evs := (WireEvent.rx9 d last t).pins.take n
  let bits := pulsesDone evs
  let s1 := (sampleBits (min bits 8) s).2.strayUnless (bits != 0 || s.target.expectsPulse)
  let s2 := if bits = 9 then s1.withTarget (s1.target.trailerPulse s1.cfg s1.draws (Level.ofBit last)) else s1
  { cutFrame 9 evs s2 with rxsr := rxsrAfter d bits, draws := max s2.draws full.2.draws }

/-- A part of a response frame whose data byte is an operand (R95; log 25): like one the target answers, it moves the target pulse
by pulse (log 23). -/
def cutRespond (n : Nat) (d : Byte) (last : Bool) (t : Profile) (s : State) : State :=
  let evs := (WireEvent.rx9 d last t).pins.take n
  { cutFrame 9 evs (s.withTarget (s.target.respondPart s.cfg s.draws d last (pulsesDone evs))) with
    rxsr := rxsrAfter d (pulsesDone evs) }

/-- A part of a payload frame (R156): the target takes it up with its trailer's pulse (log 10). -/
def cutPayload (n : Nat) (d : Byte) (last : Bool) (tb tt : Profile) (s : State) : State :=
  let evs := (WireEvent.tx9 d last tb tt).pins.take n
  cutFrame 9 evs (if pulsesDone evs = 9 then s.withTarget (s.target.onPayload s.cfg s.draws d last)
    else s.strayUnless (s.target.takesByte s.cfg))

/-- The pin events of one call of the lock query, given what it samples (R124). -/
def callPins (d : Byte) : LockCall → List PinEvent
  | .write24 w t => (WireEvent.tx24 w t).pins
  | .read9 last t => (WireEvent.rx9 d last t).pins
  | .tiktok setup hold => tiktokPins setup hold

/-- A part of one call of the lock query. -/
def callPart (n : Nat) (call : LockCall) (s : State) : State :=
  let d := Config.drawSample s.draws
  let evs := (callPins d call).take n
  match call with
  | .write24 w _ => { cutFrame 24 evs s with txsr := w }
  | .read9 _ _ => { cutFrame 9 evs s with rxsr := rxsrAfter d (pulsesDone evs), draws := s.draws + 1 }
  | .tiktok _ _ => emitPins evs s

/-- The first `n` pin events of the lock query's calls. -/
def cutCalls : Nat → List LockCall → State → State
  | _, [], s => s
  | n, call :: calls, s =>
    if (callPins 0 call).length ≤ n then cutCalls (n - (callPins 0 call).length) calls (lockCall s call)
    else if n = 0 then s
    else callPart n call s

/-- The length of a step in register moves and pin events. -/
def Micro.size (c : Config) : Micro → Nat
  | .setAddr _ => 1
  | .setRem _ => 1
  | .decRem => 1
  | .drive => WireEvent.drive.pins.length
  | .resetPulse => (WireEvent.resetPulse c.resetLiteral c.tReset).pins.length
  | .word w t => (WireEvent.tx24 w t).pins.length
  | .command o p t => (WireEvent.tx24 (pack (opcodeArg o) p) t).pins.length
  | .receive last t => (WireEvent.rx9 0 last t).pins.length
  | .payload d last tb tt => (WireEvent.tx9 d last tb tt).pins.length
  | .settle t => (WireEvent.settle t).pins.length
  | .lockQuery => (c.lockQuery.map fun call => (callPins 0 call).length).sum
  | .release => WireEvent.release.pins.length
  | .pulse setup hold => (tiktokPins setup hold).length
  | .bitIn t => (bitInPins t false).length
  | .respond d last t => (WireEvent.rx9 d last t).pins.length

/-- The first `n` pin events of a step, where `n` is neither 0 nor the whole of it. -/
def Micro.part (n : Nat) (m : Micro) (s : State) : State :=
  match m with
  | .setAddr _ => s
  | .setRem _ => s
  | .decRem => s
  | .drive => emitPins (WireEvent.drive.pins.take n) s
  | .resetPulse =>
    emitPins ((WireEvent.resetPulse s.cfg.resetLiteral s.cfg.tReset).pins.take n) { s with target := s.target.onReset }
  | .word w t => cutWord n w t s
  | .command o p t => cutWord n (pack (opcodeArg o) p) t s
  | .receive last t => cutReceive n last t s
  | .payload d last tb tt => cutPayload n d last tb tt s
  | .settle t => emitPins ((WireEvent.settle t).pins.take n) s
  | .lockQuery => cutCalls n s.cfg.lockQuery (s.strayUnless s.target.ready)
  | .release => emitPins (WireEvent.release.pins.take n) s
  | .pulse setup hold => emitPins ((tiktokPins setup hold).take n) s
  | .bitIn t =>
    emitPins ((bitInPins t (sampleBit s.lines.dat s).1).take n)
      ({ s with draws := (sampleBit s.lines.dat s).2.draws }.strayUnless s.target.expectsPulse)
  | .respond d last t => cutRespond n d last t s

/-- The first `n` register moves and pin events of a list of steps. -/
def cutScript (n : Nat) : List Micro → State → State
  | [], s => s
  | m :: ms, s =>
    if m.size s.cfg ≤ n then
      cutScript (n - m.size s.cfg) ms { (m.run s).2 with seq := (m.run s).2.seq.advance m }
    else if n = 0 then s
    else m.part n s

/-! ### What an operation could have changed -/

/-- The bytes of `TMem` a disrupted operation could have changed (R320): none, whole ranges, or a range whose bits can only
have fallen. -/
inductive Touch
  | nothing
  | redraw (ranges : List (Nat × Nat))
  | lower (a n : Nat)
deriving DecidableEq, Repr

/-- An operation that is on the wire: its steps, and the bytes it could have changed. -/
structure Plan where
  script : List Micro
  touch  : Touch
deriving DecidableEq, Repr

/-- A plan behind an admission check. -/
def planIf (r : Option Refusal) (p : Plan) : Option Plan :=
  match r with
  | some _ => none
  | none => some p

/-- All of `TMem`: what anything outside the contract or under a set lock could have changed (R78, R79). -/
def touchAll (c : Config) (t : Target) : Touch := .redraw [(0, t.flash), (c.configBase.toNat, configLen)]

/-- What page erases at these addresses could have changed: the page of each (R320). An address in neither region of the target has
no page, and its erase is outside the contract, which leaves nothing of `TMem` alone (log 16, log 23). -/
def touchErase (c : Config) (t : Target) (addrs : List Nat) : Touch :=
  if t.inContract && addrs.all (t.has c) then .redraw (addrs.map (t.pageOf c)) else touchAll c t

/-- What a WRITE could have changed: the bytes it covers, whose bits do not rise (R320). -/
def touchWrite (c : Config) (t : Target) (a n : Nat) : Touch :=
  if t.inContract && t.holds c a n then .lower a n else touchAll c t

/-- What a payload frame by itself could have changed. -/
def touchPayload (c : Config) (t : Target) : Touch := if t.takesByte c then .lower t.ptr 1 else touchAll c t

/-- What a word by itself could have changed (R75, R76). -/
def touchWord (c : Config) (t : Target) (w : Word24) : Touch :=
  match classify c w with
  | .pageErase a => touchErase c t [a.toNat]
  | .massErase _ => touchAll c t
  | .exit => .nothing
  | .enter => .nothing
  | .readCid _ => .nothing
  | .readDid _ => .nothing
  | .read _ => .nothing
  | .program _ => if t.lock then touchAll c t else .nothing
  | .unassigned => .nothing

/-- A word by itself. -/
def wordPlan (s : State) (w : Word24) (t : Profile) : Option Plan := some ⟨[.word w t], touchWord s.cfg s.target w⟩

/-- A payload frame by itself. -/
def payloadPlan (s : State) (d : Byte) (last : Bool) (tb tt : Profile) : Option Plan :=
  some ⟨[.payload d last tb tt], touchPayload s.cfg s.target⟩

/-- A step by itself that changes no byte of `TMem`. -/
def stepPlan (m : Micro) : Option Plan := some ⟨[m], .nothing⟩

/-- The plan of an operation that its admission lets onto the wire, if it has one: host operations, internal operations, and a wire
word, frame or transport primitive by itself. An identity accessor or a pure function has no wire activity. A COMPARE or VERIFY is
on the wire with its READ alone: at every cut `CMP` keeps the value it had before, as the pseudocode of R210 has it, which clears
`CMP` after the READ (DESIGN CHOICE, log 23: R24 clears it at the start, and R210 lets an engine accumulate byte by byte). -/
def planOf (i : Instr) (s : State) : Option Plan :=
  let base := s.cfg.configBase.toNat
  let eraseOne (a : Word32) : Plan := ⟨eraseScript s.cfg s.cfg.tPageErase a, touchErase s.cfg s.target [a.toNat]⟩
  let readOne (a : Word32) (n : Nat) : Plan := ⟨readScript s.cfg a n, .nothing⟩
  let writeOne (a : Word32) (buf : List Byte) : Plan :=
    ⟨writeScript s.cfg a buf, touchWrite s.cfg s.target a.toNat buf.length⟩
  match i with
  | .enter => some ⟨enterScript s.cfg, .nothing⟩
  | .exit => some ⟨exitScript s.cfg s.sess, .nothing⟩
  | .locked => planIf (admitSession s) ⟨lockedScript, .nothing⟩
  | .massErase => planIf (admitSession s) ⟨massEraseScript s.cfg, touchAll s.cfg s.target⟩
  | .configErase => planIf (admission base 1 s) (eraseOne (configAddress s.cfg))
  | .configRead => planIf (admission base configLen s) (readOne (configAddress s.cfg) configLen)
  | .configWrite buf => planIf (admitConfigBuffer buf s) (writeOne (configAddress s.cfg) buf)
  | .configCompare buf => planIf (admitConfigBuffer buf s) (readOne (configAddress s.cfg) buf.length)
  | .configVerify buf => planIf (admitConfigBuffer buf s) (readOne (configAddress s.cfg) buf.length)
  | .flashErase a n =>
    planIf (admission a.toNat n s)
      ⟨flashEraseScript s.cfg s.did a n,
       touchErase s.cfg s.target (eraseAddresses (pageSizeOf s.did) a.toNat n)⟩
  | .flashRead a n => planIf (admission a.toNat n s) (readOne a n)
  | .flashWrite a buf => planIf (admission a.toNat buf.length s) (writeOne a buf)
  | .flashCompare a buf => planIf (admission a.toNat buf.length s) (readOne a buf.length)
  | .flashVerify a buf => planIf (admission a.toNat buf.length s) (readOne a buf.length)
  | .erase a => planIf (admission a.toNat 1 s) (eraseOne a)
  | .read a n => planIf (admission a.toNat n s) (readOne a n)
  | .write a buf => planIf (admission a.toNat buf.length s) (writeOne a buf)
  | .compare a buf => planIf (admission a.toNat buf.length s) (readOne a buf.length)
  | .verify a buf => planIf (admission a.toNat buf.length s) (readOne a buf.length)
  | .deviceId => none
  | .pageSize => none
  | .flashSize => none
  | .cmdReadCid => wordPlan s (commandWord s.cfg.opReadCid s.cfg.paramReadCid) s.cfg.tRead
  | .cmdReadDid => wordPlan s (commandWord s.cfg.opReadDid s.cfg.paramReadDid) s.cfg.tRead
  | .cmdRead a => wordPlan s (commandWord s.cfg.opRead a) s.cfg.tRead
  | .cmdProgram a => wordPlan s (commandWord s.cfg.opProgram a) s.cfg.tRead
  | .cmdPageErase a => wordPlan s (commandWord s.cfg.opPageErase a) s.cfg.tRead
  | .cmdMassErase => wordPlan s (commandWord s.cfg.opMassErase s.cfg.paramMassErase) s.cfg.tRead
  | .enterWord => wordPlan s s.cfg.enterWord s.cfg.tMode
  | .exitWord => wordPlan s s.cfg.exitWord s.cfg.tMode
  | .write24 w t => wordPlan s w t
  | .write24p o q t => wordPlan s (pack o q) t
  | .resp9 d last => stepPlan (.respond d last s.cfg.tRead)
  | .pay9 d last => payloadPlan s d last s.cfg.tRead s.cfg.tProgram
  | .read9 last t => stepPlan (.receive last t)
  | .write9 d last tb tt => payloadPlan s d last tb tt
  | .tiktok setup hold => stepPlan (.pulse setup hold)
  | .bitin t => stepPlan (.bitIn t)
  | .settle t => stepPlan (.settle t)
  | .resetpulse => stepPlan .resetPulse
  | .drive => stepPlan .drive
  | .release => stepPlan .release
  | .pack _ _ => none
  | .needErase _ => none
  | .needWrite _ => none
  | .equal _ => none
  | .pageSizeOf _ => none
  | .flashSizeOf _ => none
  | .config0 _ => none
  | .cbs _ => none
  | .config1 _ => none
  | .ldsize _ => none

/-- The memory after the disruption: every byte the operation could have changed is a draw; after a WRITE the draw has no bit
that the byte did not have before the operation (R320). -/
def Touch.apply (k : Nat) (before : Memory) (m : Memory) : Touch → Memory
  | .nothing => m
  | .redraw ranges => ranges.foldl (fun m r => Memory.fill (Config.drawMem k) r.1 r.2 m) m
  | .lower a n => Memory.fill (fun x => Config.drawMem k x &&& before.read x) a n m

/-- The state after an operation stopped after `steps` of its register moves and pin events (R320): the engine's registers as they
were reached, the target in an unspecified mode and out of the contract until an entry, its protocol position and the touched bytes draws. A
reset handshake it saw before counts no more (DESIGN CHOICE, log 23). No result is returned. -/
def stopped (op : Instr) (p : Plan) (steps : Nat) (s : State) : State :=
  let r := cutScript steps p.script { s with seq := .running op 0 0 0 }
  { r with
    draws := r.draws + 1
    target := { r.target with
      mode := .unknown, resetSeen := false, broken := true
      burst := Config.drawBurst r.draws, frame := Config.drawFrame r.draws
      mem := p.touch.apply r.draws s.target.mem r.target.mem } }

/-- An operation under a disruption: stopped if it is on the wire, otherwise (refused, or without wire activity) as it is. -/
def disrupted (steps : Nat) (op : Instr) (s : State) (whole : Res) : Res :=
  match planOf op s with
  | some p => .next (stopped op p steps s)
  | none => whole

end Sys2Proof.Machine
end

