-- ==== Sys2Proof/Machine/Step.lean ====
section
/-! DEFINITION. One step of the machine: the engine runs the next operation it is handed to completion (R11, R26). There is no
program counter (R26): the operation comes from the host port, in the order the host issued it. -/

namespace Sys2Proof.Machine

/-- One step. With nothing issued the engine does nothing (R296); a request that spells no operation is refused by the decoder
(R102); otherwise the operation runs whole, or up to the point where the outside world stops it (R320). -/
def step (s : State) : Host.Outcome State Fault Refusal :=
  match s.port with
  | [] => .next s
  | r :: rest =>
    match decode s.cfg r with
    | .error e => .refused (.invalidRequest e)
    | .ok i =>
      match s.disrupt with
      | none => exec i { s with port := rest }
      | some steps =>
        disrupted steps i { s with port := rest, disrupt := none } (exec i { s with port := rest, disrupt := none })

/-- The state whose next step runs a table word: the request is put at the head of the port, and no disruption is pending. -/
def State.withFetchWord (s : State) (nbits w : Nat) : State :=
  { s with port := requestOfTableWord nbits w :: s.port, disrupt := none }

end Sys2Proof.Machine
end

