-- ==== Sys2Proof/Safety.lean ====
section
/-! DEFINITION. The terms in which claims are stated: admissible requests, the conditions of the target contract, the invariants of
10_state.md R43, and the measures of a trace (41_transport.md R162, 70_reset_and_hazards.md R331). -/

namespace Sys2Proof.Machine

/-! ### Conditions -/

/-- The derived predicate `session_valid` (R121): the engine never evaluates it. -/
def sessionValid (s : State) : Bool := s.idValid && s.cid == s.cfg.companyIdNuvoton

/-- A request of `n` bytes at `a` that no check of R286 refuses. -/
structure Admissible (a n : Nat) (s : State) : Prop where
  entered  : s.sess = .entered
  nonempty : 0 < n
  address  : a < 262144
  fits     : a + n ≤ 262144
  region   : a + n ≤ flashSizeOf s.cfg s.did ∨
    s.cfg.configBase.toNat ≤ a ∧ a + n ≤ s.cfg.configBase.toNat + 5

/-- The range lies wholly in one of the two regions of the target's own memory (R36). -/
def Target.covers (c : Config) (t : Target) (a n : Nat) : Prop :=
  a + n ≤ t.flash ∨ c.configBase.toNat ≤ a ∧ a + n ≤ c.configBase.toNat + 5

/-- The target contract of R70 is in force, with parameters that meet their constraints. -/
structure Contract (s : State) : Prop where
  params : s.cfg.valid = true
  target : s.target.inContract = true

/-- The launch premises on the target's constants (the parameter table; R62): pages divide flash, flash ends below the block. -/
structure LaunchPremise (c : Config) (t : Target) : Prop where
  pagePos : 0 < t.page
  divides : t.page ∣ t.flash
  below   : t.flash ≤ c.configBase.toNat

/-- The request comes from the public surface (R7). -/
def Request.isPacket : Request → Bool
  | .packet _ => true
  | .word _ => false
  | .response _ => false
  | .payload _ => false
  | .call _ => false

/-! ### The invariant -/

/-- The lines of a session between two operations (R32, R43 (ii) and (iii)). -/
def linesAgree (sess : SessTag) (l : Lines) : Prop :=
  match sess with
  | .disconnected => l = ⟨.z, .z, .z⟩
  | .entered => l.clk = .low ∧ l.dat ≠ .z ∧ l.rst ≠ .z

/-- What every state satisfies that is reached from reset by host requests with no disruption (R43), with the canonical form of
the target's memory. -/
structure Inv (s : State) : Prop where
  params      : s.cfg.valid = true
  publicPort  : s.port.all Request.isPacket = true
  undisturbed : s.disrupt = none
  betweenOps  : s.seq = .idle
  identity    : s.sess = .entered ↔ s.idValid = true
  lines       : linesAgree s.sess s.lines
  memory      : s.target.mem.wf = true

/-! ### Measures of a trace -/

/-- A rising clock edge: one per clock pulse (R151). -/
def PinEvent.isRise : PinEvent → Bool
  | .set .clk .high => true
  | _ => false

/-- A falling clock edge. -/
def PinEvent.isFall : PinEvent → Bool
  | .set .clk .low => true
  | _ => false

/-- A sampled bit (R150). -/
def PinEvent.isSample : PinEvent → Bool
  | .sample _ => true
  | _ => false

/-- An event on the reset line. -/
def PinEvent.isReset : PinEvent → Bool
  | .set .rst _ => true
  | _ => false

/-- The delay label of a pin event, 0 where it has none (R13). -/
def PinEvent.us : PinEvent → Nat
  | .delay us => us
  | .set _ _ => 0
  | .sample _ => 0

/-- The number of clock pulses of a pin trace (R162 (ii)). -/
def clockPulses (evs : List PinEvent) : Nat := evs.countP PinEvent.isRise

/-- The number of sampled bits of a pin trace. -/
def sampleCount (evs : List PinEvent) : Nat := evs.countP PinEvent.isSample

/-- The sum of the delay labels of a pin trace (R331). -/
def delaySum (evs : List PinEvent) : Nat := (evs.map PinEvent.us).sum

/-- Every rising clock edge is followed by a falling one before the next (R162 (i)); `up` says the clock is up already. -/
def clockAlternates : Bool → List PinEvent → Bool
  | up, [] => !up
  | up, e :: rest =>
    if e.isRise then !up && clockAlternates true rest
    else if e.isFall then clockAlternates false rest
    else clockAlternates up rest

/-- Clock pulses of a frame event (R162 (ii)); the lock query's own pulses are not determined. -/
def WireEvent.pulses : WireEvent → Nat
  | .tx24 _ _ => 24
  | .rx9 _ _ _ => 9
  | .tx9 _ _ _ _ => 9
  | .settle _ => 1
  | .drive => 0
  | .resetPulse _ _ => 0
  | .lockQuery => 0
  | .release => 0

/-- Sampled bits of a frame event (R162 (iv)): only a response frame has any. -/
def WireEvent.samples : WireEvent → Nat
  | .rx9 _ _ _ => 8
  | .tx24 _ _ => 0
  | .tx9 _ _ _ _ => 0
  | .settle _ => 0
  | .drive => 0
  | .resetPulse _ _ => 0
  | .lockQuery => 0
  | .release => 0

/-- The total of the settle delays of a wire trace (R163, page erase). -/
def settleSum (evs : List WireEvent) : Nat :=
  (evs.map fun e => match e with
    | .settle t => t.total
    | _ => 0).sum

/-- The total of the trailer delays of a wire trace (R163, byte program). -/
def trailerSum (evs : List WireEvent) : Nat :=
  (evs.map fun e => match e with
    | .tx9 _ _ _ tt => tt.total
    | _ => 0).sum

/-- The response frames of a read burst: exactly the last has `last` (R184). -/
def responseTrace (t : Profile) : List Byte → List WireEvent
  | [] => []
  | d :: rest => .rx9 d rest.isEmpty t :: responseTrace t rest

/-- The frames of one page erase (R180). -/
def eraseTrace (c : Config) (a : Nat) (t : Profile) : List WireEvent :=
  [.tx24 (commandWord c.opPageErase (BitVec.ofNat 18 a)) c.tRead, .settle t]

/-- The payload frames of a program burst, each with the delay pair of its trailer: exactly the last has `last` (R186). -/
def payloadTrace (tb : Profile) : List Byte → List Profile → List WireEvent
  | d :: rest, tt :: slices => .tx9 d rest.isEmpty tb tt :: payloadTrace tb rest slices
  | _, _ => []

/-- The command word and payload frame of each byte in per-byte mode (R186). -/
def perByteTrace (c : Config) : Nat → List Byte → List Profile → List WireEvent
  | a, d :: rest, tt :: slices =>
    .tx24 (commandWord c.opProgram (BitVec.ofNat 18 a)) c.tRead :: .tx9 d true c.tRead tt :: perByteTrace c (a + 1) rest slices
  | _, _, _ => []

/-- The frames of a WRITE of `buf` at `a` (R186), with the trailer delays of R163. -/
def programTrace (c : Config) (a : Nat) (buf : List Byte) : List WireEvent :=
  match c.writeMode with
  | .burst =>
    .tx24 (commandWord c.opProgram (BitVec.ofNat 18 a)) c.tRead ::
      payloadTrace c.tRead buf (slicesOf c .program buf.length buf.length)
  | .perByte => perByteTrace c a buf (slicesOf c .program buf.length buf.length)

/-- `t` differs from `s` at most in the working registers, the lines, the traces, the answer, the draw counter and the target;
`SEQ` is idle. Every other field (the parameters, `SESS`, `CID`, `DID`, `ID_VALID`, `CMP`, the host port, the disruption
input) is as before. -/
def wireFrame (s t : State) : Prop :=
  t = { s with
    txsr := t.txsr, rxsr := t.rxsr, bitcnt := t.bitcnt, addr := t.addr, rem := t.rem, seq := .idle, lines := t.lines
    wire := t.wire, pins := t.pins, result := t.result, draws := t.draws, target := t.target }

/-- The bytes of `TMem` from `a` on. -/
def Memory.slice (m : Memory) (a n : Nat) : List Byte := (List.range n).map fun i => m.read (a + i)

end Sys2Proof.Machine
end

