-- ==== Sys2Proof/Certificates/Slice0/Obligations.lean ====
section
/-! DEFINITION. The statements for the provers. Each docstring names the rule of spec/ it formalises; OBLIGATIONS.json says which of
them are the spec's own sentences and which rest on the model's choices. -/

open Sys2Proof Sys2Proof.Machine

/-! ### Reset, step, encoding -/

/-- R42, R310 (decisions D4, D31, D36): what the construction of the Session leaves, whatever the parameters and the target. That
the reference instance is one such construction is the model's choice (log 1, log 7). -/
def Obligations.ResetLeavesTheSessionDisconnected : Prop :=
  ∀ (c : Config) (t : Target),
    (State.resetWith c t).sess = .disconnected ∧ (State.resetWith c t).idValid = false ∧
    (State.resetWith c t).cmp = ⟨false, false, false⟩ ∧ (State.resetWith c t).lines = ⟨.z, .z, .z⟩ ∧
    (State.resetWith c t).seq = .idle ∧ (State.resetWith c t).wire = [] ∧ (State.resetWith c t).pins = [] ∧
    (State.resetWith c t).cfg = c ∧ (State.resetWith c t).target = t ∧
    exec .deviceId (State.resetWith c t) = .refused .identityUnknown ∧
    exec .pageSize (State.resetWith c t) = .refused .identityUnknown ∧
    exec .flashSize (State.resetWith c t) = .refused .identityUnknown ∧
    State.reset = State.resetWith Config.reference Target.reference

/-- The invariant holds right after reset, for valid parameters and a canonical memory, and for the reference instance. -/
def Obligations.ResetMeetsTheInvariant : Prop :=
  (∀ (c : Config) (t : Target), c.valid = true → t.mem.wf = true → Inv (State.resetWith c t)) ∧ Inv State.reset

/-- R43 (i) to (iii), R32 and the canonical form: every step of the public surface keeps the invariant, from every state. -/
def Obligations.StepKeepsTheInvariant : Prop :=
  ∀ s t : State, Inv s → step s = .next t → Inv t

/-- Decoding the encoding of any well-formed instruction gives it back, with every operand. Valid parameters keep every command word
apart from the two literals, which are matched first (R99; log 30). The packet form of a host request is the model's (log 2). -/
def Obligations.DecodeReadsBackEveryEncoding : Prop :=
  ∀ (c : Config) (i : Instr), c.valid = true → i.wellFormed = true → decode c (encode c i) = .ok i

/-- Every packet, word and frame that decodes is the encoding of what it decodes to: no two requests of these forms mean the
same, and no bit is ignored. The packet form is the model's (log 2). -/
def Obligations.EncodeRestoresEveryDecodedRequest : Prop :=
  ∀ (c : Config) (r : Request) (i : Instr), (∀ j, r ≠ .call j) → decode c r = .ok i → encode c i = r

/-- A step runs the instruction its next request decodes to, in the state with that request taken from the port; a request that
spells nothing is refused; with no request the engine does nothing (R296). The port is the model's (log 3). -/
def Obligations.StepRunsTheDecodedRequest : Prop :=
  (∀ (s : State) (r : Request) (rest : List Request), s.port = r :: rest →
    (∀ i, decode s.cfg r = .ok i → s.disrupt = none → step s = exec i { s with port := rest }) ∧
    (∀ e, decode s.cfg r = .error e → step s = .refused (.invalidRequest e))) ∧
  (∀ s : State, s.port = [] → step s = .next s)

/-- R101, R102: each of the seventeen HOSTOP values is fetched and run as its operation, and no other selector byte is one. That a
HOSTOP stands in the first byte of a packet, its missing operand bytes being zero, is the model's (log 2, log 26). -/
def Obligations.HostopSelectsItsOperation : Prop :=
  (∀ (s : State) (e : Nat × Instr),
    e ∈ [(0, Instr.enter), (1, .exit), (2, .locked), (3, .deviceId), (4, .pageSize), (5, .flashSize), (6, .massErase),
      (7, .configErase), (8, .configRead), (9, .configWrite []), (10, .configCompare []), (11, .configVerify []),
      (12, .flashErase 0 0), (13, .flashRead 0 0), (14, .flashWrite 0 []), (15, .flashCompare 0 []),
      (16, .flashVerify 0 [])] →
    decodeTableWord 8 e.1 = some e.2 ∧ step (s.withFetchWord 8 e.1) = exec e.2 { s with disrupt := none }) ∧
  (∀ (s : State) (k : Nat), 17 ≤ k → k < 256 →
    decodeTableWord 8 k = none ∧ step (s.withFetchWord 8 k) = .refused (.invalidRequest .invalidHostop))

/-- Words and packets written out from the spec's encodings (section 2.1 of the test vectors) decode to their instructions. The
parameter values are those of the reference instance (log 1), the packet form is the model's (log 2). -/
def Obligations.WrittenOutEncodingsDecode : Prop :=
  decode Config.reference (.word 0x00000B) = .ok .cmdReadCid ∧
  decode Config.reference (.word 0x00000C) = .ok .cmdReadDid ∧
  decode Config.reference (.word 0x005FC0) = .ok (.cmdRead 0x17F) ∧
  decode Config.reference (.word 0x004021) = .ok (.cmdProgram 0x100) ∧
  decode Config.reference (.word 0xC00022) = .ok (.cmdPageErase 0x30000) ∧
  decode Config.reference (.word 0xE96966) = .ok .cmdMassErase ∧
  decode Config.reference (.word 0x5AA503) = .ok .enterWord ∧
  decode Config.reference (.word 0x0F78F0) = .ok .exitWord ∧
  decode Config.reference (.payload 0b000100101) = .ok (.pay9 0x12 true) ∧
  decode Config.reference (.packet [13, 0x7F, 0x01, 0, 0, 3, 0, 0, 0]) = .ok (.flashRead 0x17F 3)

/-- R92: the packed word, its two fields and its injectivity on the well-formed domain, and what the total function does beyond
it (bits lost at the top, opcode bits 6 and 7 OR-ed into the parameter). -/
def Obligations.PackPlacesOpcodeAndParameter : Prop :=
  (∀ (o : Byte) (p : Word32) (s : State), exec (.pack o p) s =
    .next { s with result := some (.word24 (BitVec.ofNat 24 ((p.toNat * 64) ||| o.toNat))) }) ∧
  (∀ (o : Byte) (p : Word32), o.toNat < 64 → p.toNat < 262144 →
    (pack o p).extractLsb' 0 6 = o.setWidth 6 ∧ (pack o p).extractLsb' 6 18 = p.setWidth 18) ∧
  (∀ (o o' : Byte) (p p' : Word32), o.toNat < 64 → p.toNat < 262144 → o'.toNat < 64 → p'.toNat < 262144 →
    pack o p = pack o' p' → o = o' ∧ p = p') ∧
  (∀ (o : Byte) (p : Word32), pack o p = pack o (p &&& 0x3FFFF)) ∧
  (∀ (o : Byte) (p : Word32), pack o p = pack (o &&& 0x3F) (p ||| (o >>> 6).setWidth 32))

/-! ### Flags and predicates -/

/-- R211: the three flags of a byte pair, and the equivalent form of GREATER, which the spec marks as derived from the equations. -/
def Obligations.PairFlagsAreTheEquations : Prop :=
  ∀ c d : Byte, (neOf c d = true ↔ c ≠ d) ∧ (gtOf c d = true ↔ c &&& d ≠ d) ∧ (nempOf d = true ↔ d ≠ 0xFF) ∧
    (gtOf c d = true ↔ ~~~c &&& d ≠ 0)

/-- R212: the flags of two buffers are the OR over the pairs, and over no pair `000`. -/
def Obligations.CompareFlagsAggregateByOr : Prop :=
  (∀ cur buf : List Byte, cur.length = buf.length →
    (compareBytes cur buf).ne = (cur.zip buf).any (fun p => neOf p.1 p.2) ∧
    (compareBytes cur buf).gt = (cur.zip buf).any (fun p => gtOf p.1 p.2) ∧
    (compareBytes cur buf).nemp = (cur.zip buf).any (fun p => nempOf p.2)) ∧
  compareBytes [] [] = ⟨false, false, false⟩

/-- R217: the laws L1 to L6. -/
def Obligations.CompareLawsHold : Prop :=
  (∀ c d : Byte,
    (gtOf c d = true → neOf c d = true) ∧
    ((equal (compareBytes [c] [d]) = true ↔ c = d) ∧ (needErase (compareBytes [c] [d]) = true ↔ c &&& d ≠ d) ∧
      (needWrite (compareBytes [c] [d]) = true ↔ c ≠ d ∧ d ≠ 0xFF)) ∧
    (gtOf c d = false ↔ c &&& d = d) ∧
    gtOf 0xFF d = false ∧
    (gtOf c 0xFF = true ↔ c ≠ 0xFF) ∧ nempOf 0xFF = false) ∧
  (∀ cur buf : List Byte,
    ((compareBytes cur buf).gt = true → (compareBytes cur buf).ne = true) ∧
    ((compareBytes cur buf).ne = true → (compareBytes cur buf).nemp = false → (compareBytes cur buf).gt = true)) ∧
  (∀ r : CompareResult, (∃ cur buf : List Byte, cur.length = buf.length ∧ compareBytes cur buf = r) ↔
    r ∈ [⟨false, false, false⟩, ⟨false, false, true⟩, ⟨true, false, true⟩, ⟨true, true, false⟩, ⟨true, true, true⟩])

/-- R214, R215, R216: the three predicates as instructions. Their relations on the results COMPARE can produce, and that equality
excludes both, are consequences that the spec marks as derived (R216, R217). -/
def Obligations.PredicatesReduceAResult : Prop :=
  (∀ (r : CompareResult) (s : State),
    exec (.needErase r) s = .next { s with result := some (.bool (r.ne && r.gt)) } ∧
    exec (.needWrite r) s = .next { s with result := some (.bool (r.ne && r.nemp)) } ∧
    exec (.equal r) s = .next { s with result := some (.bool (!r.ne)) }) ∧
  (∀ cur buf : List Byte, needErase (compareBytes cur buf) = (compareBytes cur buf).gt) ∧
  (∀ r : CompareResult, equal r = true → needErase r = false ∧ needWrite r = false)

/-! ### Identity and codec -/

/-- R125, R126, R127: the three identity accessors, in every state, and their HOSTOP values. The refusal without an identity is decision
D17, the tier key decision D20, the HOSTOP values decision D2; that a HOSTOP is the first byte of a packet is the model's (log 2,
log 26). -/
def Obligations.IdentityAccessorsReadTheCache : Prop :=
  (∀ s : State, s.idValid = true →
    exec .deviceId s = .next { s with result := some (.word s.did) } ∧
    exec .pageSize s = .next { s with result := some (.nat (if s.did = 0x2F50 then 256 else 128)) } ∧
    exec .flashSize s = .next { s with
      result := some (.nat (s.cfg.flashSizeTable.getD (min (s.did.toNat / 16 % 16) s.cfg.maxTier) 0)) }) ∧
  (∀ s : State, s.idValid = false →
    exec .deviceId s = .refused .identityUnknown ∧ exec .pageSize s = .refused .identityUnknown ∧
    exec .flashSize s = .refused .identityUnknown) ∧
  decodeTableWord 8 3 = some .deviceId ∧ decodeTableWord 8 4 = some .pageSize ∧ decodeTableWord 8 5 = some .flashSize

/-- R126, R127, R128: the two size functions. -/
def Obligations.SizeFunctionsReadTheDeviceId : Prop :=
  (∀ (did : DeviceId) (s : State),
    exec (.pageSizeOf did) s = .next { s with result := some (.nat (if did = 0x2F50 then 256 else 128)) } ∧
    exec (.flashSizeOf did) s = .next { s with
      result := some (.nat (s.cfg.flashSizeTable.getD (min (did.toNat / 16 % 16) s.cfg.maxTier) 0)) }) ∧
  (∀ (c : Config) (did did' : DeviceId), did.extractLsb' 4 4 = did'.extractLsb' 4 4 →
    flashSizeOf c did = flashSizeOf c did')

/-- R260, R261, R263, R264: the four codec functions as instructions. -/
def Obligations.CodecFunctionsAnswer : Prop :=
  ∀ s : State,
    exec (.config0 true) s = .next { s with result := some (.byte s.cfg.cbsTrueByte) } ∧
    exec (.config0 false) s = .next { s with result := some (.byte (s.cfg.cbsTrueByte ^^^ 0x80)) } ∧
    (∀ b : Byte, exec (.cbs b) s =
      .next { s with result := some (.bool (decide (b.getLsbD 7 = s.cfg.cbsTrueByte.getLsbD 7))) }) ∧
    (∀ n : Nat, n < 7168 → exec (.config1 n) s = .next { s with result := some (.byte (BitVec.ofNat 8 (255 - (n + 1023) / 1024))) }) ∧
    (∀ n : Nat, 7168 ≤ n → exec (.config1 n) s = .refused .badCodecArgument) ∧
    (∀ b : Byte, exec (.ldsize b) s = .next { s with result := some (.nat (7 - b.toNat % 8)) })

/-- R262, R265: both round trips of the codec, which the spec marks as derived and which rest on decisions D33 and D40. -/
def Obligations.CodecRoundTrips : Prop :=
  (∀ (c : Config) (flag : Bool), cbsOf c (config0Of c flag) = flag) ∧
  (∀ n : Nat, n < 7168 → ldsizeOf (config1Of n) = (n + 1023) / 1024)

/-! ### Transport -/

/-- R151: one clock pulse with its two phases; DAT and RST untouched, `CLK = 0` after. That a pulse by itself leaves the target as it was
is the model's choice (log 14). -/
def Obligations.TiktokIsOneClockPulse : Prop :=
  ∀ (setup hold : Nat) (s : State), exec (.tiktok setup hold) s =
    .next { s with
      pins := s.pins ++ [.delay setup, .set .clk .high, .delay hold, .set .clk .low]
      lines := { s.lines with clk := .low }
      result := some .unit }

/-- R152 (decision D6): WRITE24 shifts the word out, bit 23 first, one pulse per bit, and leaves `CLK = 0` and `DAT = w[0]`. The target
takes the word up as a whole (log 10). -/
def Obligations.Write24ShiftsMsbFirst : Prop :=
  ∀ (w : Word24) (p : Profile) (s : State), exec (.write24 w p) s =
    .next { s with
      txsr := w, bitcnt := 0
      wire := s.wire ++ [.tx24 w p]
      pins := s.pins ++ (List.range 24).flatMap (fun i =>
        [.set .dat (Level.ofBit (w.getLsbD (23 - i))), .delay p.setup, .set .clk .high, .delay p.hold, .set .clk .low])
      lines := { s.lines with dat := Level.ofBit (w.getLsbD 0), clk := .low }
      result := some .unit
      draws := (s.target.onWord s.cfg s.draws w).2
      target := (s.target.onWord s.cfg s.draws w).1 }

/-- R153: WRITE24P is WRITE24 of the packed word, and it completes. -/
def Obligations.Write24pSendsThePackedWord : Prop :=
  ∀ (o : Byte) (q : Word32) (p : Profile) (s : State),
    exec (.write24p o q p) s = exec (.write24 (pack o q) p) s ∧ ∃ t, exec (.write24p o q p) s = .next t

/-- R154: BITIN waits, samples, and pulses the clock. Between two frames the sample is the first bit of the target's answer and no
pointer moves; inside a frame that the contract gives it is the next bit, the eighth pulse steps `TPTR` or gives the identity byte,
and the ninth is the trailer at the level the engine drives on DAT (R73, R77, R95). Inside a frame on a target that the contract
does not bind, the pulse leaves the target a draw (R70, R79). What a standalone bit is to the target, and that `TPTR` is a
natural that does not wrap, are the model's (log 11, log 32, log 12). -/
def Obligations.BitinSamplesBeforeTheRisingEdge : Prop :=
  ∀ (p : Profile) (s : State), ∃ (b : Bool) (k : Nat) (target : Target),
    exec (.bitin p) s = .next { s with
      pins := s.pins ++ [.delay p.setup, .sample b, .set .clk .high, .delay p.hold, .set .clk .low]
      lines := { s.lines with clk := .low }
      result := some (.bool b), draws := k, target := target } ∧
    (s.target.frame = .boundary → b = (s.target.answer s.cfg s.draws).1.getLsbD 7 ∧
      (s.target.determined s.cfg = true → k = s.draws ∧ target = { s.target with
        frame := .presenting true ((List.range 7).map fun i => (s.target.answer s.cfg s.draws).1.getLsbD (6 - i)) })) ∧
    (∀ b' rest, s.target.frame = .presenting true (b' :: rest) → s.target.answering = true → b = b' ∧
      (∀ x rest', rest = x :: rest' → k = s.draws ∧ target = { s.target with frame := .presenting true rest }) ∧
      (rest = [] → s.target.burst = .read → s.target.determined s.cfg = true →
        k = s.draws ∧ target = { s.target with frame := .presenting true [], ptr := s.target.ptr + 1 }) ∧
      (∀ d ds, rest = [] → s.target.burst = .answer (d :: ds) →
        k = s.draws ∧ target = { s.target with frame := .presenting true [], burst := .answer ds })) ∧
    (s.target.frame = .presenting true [] → s.target.inResponse = true →
      (s.lines.dat = .low → target = { s.target with frame := .boundary }) ∧
      (s.lines.dat = .high → target = { s.target with frame := .boundary, burst := .idle })) ∧
    (s.target.frame ≠ .boundary → s.target.live = false →
      ∃ j, target = { s.target.outside s.cfg j with frame := target.frame })

/-- R155: READ9 from a frame boundary returns the byte the target answers, takes eight samples, most-significant first, and drives
the trailer; `last` does not change the byte. Under the contract the byte is `TMem[TPTR]` and `TPTR` steps (R73), or it is the next
identity byte (R77), and `last` closes what is open. The target's protocol position and a `TPTR` that does not wrap are the
model's (log 11, log 12). -/
def Obligations.Read9TakesEightSamplesAndATrailer : Prop :=
  ∀ (last : Bool) (p : Profile) (s : State), s.target.frame = .boundary → ∃ (k : Nat) (target : Target),
    exec (.read9 last p) s = .next { s with
      rxsr := (s.target.answer s.cfg s.draws).1 ++ (0#1), bitcnt := 0
      wire := s.wire ++ [.rx9 (s.target.answer s.cfg s.draws).1 last p]
      pins := s.pins ++ [.set .dat .z] ++ (List.range 8).flatMap (fun i =>
          [.delay p.setup, .sample ((s.target.answer s.cfg s.draws).1.getLsbD (7 - i)), .set .clk .high, .delay p.hold,
           .set .clk .low]) ++
        [.set .dat (if last then .high else .low), .delay p.setup, .set .clk .high, .delay p.hold, .set .clk .low,
         .set .dat .low]
      lines := { s.lines with dat := .low, clk := .low }
      result := some (.byte (s.target.answer s.cfg s.draws).1), draws := k, target := target } ∧
    (s.target.live = true → s.target.lock = false → s.target.burst = .read → s.target.has s.cfg s.target.ptr = true →
      (s.target.answer s.cfg s.draws).1 = s.target.mem.read s.target.ptr ∧ k = s.draws ∧
      target = { s.target with ptr := s.target.ptr + 1, burst := if last then .idle else .read }) ∧
    (∀ d ds, s.target.live = true → s.target.burst = .answer (d :: ds) →
      (s.target.answer s.cfg s.draws).1 = d ∧ k = s.draws ∧
      target = { s.target with burst := if last then .idle else .answer ds })

/-- READ9 (R155) completes in every state, wherever the target stands inside a response frame (the model's `frame`, log 11). -/
def Obligations.Read9AlwaysAnswersAByte : Prop :=
  ∀ (last : Bool) (p : Profile) (s : State), ∃ (d : Byte) (t : State), exec (.read9 last p) s = .next t ∧
    t.result = some (.byte d) ∧ t.rxsr = d ++ (0#1) ∧ t.bitcnt = 0 ∧ t.wire = s.wire ++ [.rx9 d last p] ∧
    t.lines = { s.lines with dat := .low, clk := .low } ∧
    t = { s with rxsr := t.rxsr, bitcnt := t.bitcnt, wire := t.wire, pins := t.pins, lines := t.lines, result := t.result,
                 draws := t.draws, target := t.target }

/-- R156 (decision D8): WRITE9 drives eight bits, most-significant first, and the trailer. The target takes the frame up as a whole
(log 10). -/
def Obligations.Write9DrivesEightBitsAndATrailer : Prop :=
  ∀ (d : Byte) (last : Bool) (tb tt : Profile) (s : State), exec (.write9 d last tb tt) s =
    .next { s with
      bitcnt := 0
      wire := s.wire ++ [.tx9 d last tb tt]
      pins := s.pins ++ (List.range 8).flatMap (fun i =>
          [.set .dat (Level.ofBit (d.getLsbD (7 - i))), .delay tb.setup, .set .clk .high, .delay tb.hold, .set .clk .low]) ++
        [.set .dat (if last then .high else .low), .delay tt.setup, .set .clk .high, .delay tt.hold, .set .clk .low,
         .set .dat .low]
      lines := { s.lines with dat := .low, clk := .low }
      result := some .unit
      draws := (s.target.onPayload s.cfg s.draws d last).2
      target := (s.target.onPayload s.cfg s.draws d last).1 }

/-- R157, R159, R160: SETTLE, DRIVE and RELEASE, event for event. That they leave the target as it was is the model's choice (log 14). -/
def Obligations.SettleDriveReleaseMoveTheLines : Prop :=
  ∀ (p : Profile) (s : State),
    exec (.settle p) s = .next { s with
      wire := s.wire ++ [.settle p]
      pins := s.pins ++ [.delay p.setup, .set .clk .high, .delay p.hold, .set .clk .low]
      lines := { s.lines with clk := .low }, result := some .unit } ∧
    exec .drive s = .next { s with
      wire := s.wire ++ [.drive]
      pins := s.pins ++ [.set .clk .low, .set .dat .low]
      lines := { s.lines with clk := .low, dat := .low }, result := some .unit } ∧
    exec .release s = .next { s with
      wire := s.wire ++ [.release]
      pins := s.pins ++ [.set .dat .z, .set .clk .z, .set .rst .z]
      lines := ⟨.z, .z, .z⟩, result := some .unit }

/-- R158: RESETPULSE presents the literal on RST, each bit for the two phases, and moves nothing else on the engine's side. That the
pulse by itself keeps the target's memory is read from R71, which speaks of the whole entry (log 13). -/
def Obligations.ResetPulsePresentsTheLiteral : Prop :=
  ∀ s : State, ∃ target : Target, exec .resetpulse s = .next { s with
      wire := s.wire ++ [.resetPulse s.cfg.resetLiteral s.cfg.tReset]
      pins := s.pins ++ s.cfg.resetLiteral.flatMap (fun b =>
        [.set .rst (Level.ofBit b), .delay s.cfg.tReset.setup, .delay s.cfg.tReset.hold])
      lines := { s.lines with rst := (s.cfg.resetLiteral.getLast?.map Level.ofBit).getD s.lines.rst }
      result := some .unit, target := target } ∧
    target.mem = s.target.mem

/-- R91, R93, R97, R98, R161: each of the eight wire words is sent as its word with its profile. That a wire word is an instruction by
itself is the model's rendering of its row (log 24). -/
def Obligations.WireWordsAreSentAsTheirWords : Prop :=
  ∀ (s : State) (a : Addr18) (e : Instr × Word24 × Profile),
    e ∈ [(Instr.cmdReadCid, commandWord s.cfg.opReadCid s.cfg.paramReadCid, s.cfg.tRead),
      (.cmdReadDid, commandWord s.cfg.opReadDid s.cfg.paramReadDid, s.cfg.tRead),
      (.cmdRead a, commandWord s.cfg.opRead a, s.cfg.tRead),
      (.cmdProgram a, commandWord s.cfg.opProgram a, s.cfg.tRead),
      (.cmdPageErase a, commandWord s.cfg.opPageErase a, s.cfg.tRead),
      (.cmdMassErase, commandWord s.cfg.opMassErase s.cfg.paramMassErase, s.cfg.tRead),
      (.enterWord, s.cfg.enterWord, s.cfg.tMode), (.exitWord, s.cfg.exitWord, s.cfg.tMode)] →
    exec e.1 s = .next { s with
      txsr := e.2.1, bitcnt := 0
      wire := s.wire ++ [.tx24 e.2.1 e.2.2]
      pins := s.pins ++ (WireEvent.tx24 e.2.1 e.2.2).pins
      lines := { s.lines with dat := Level.ofBit (e.2.1.getLsbD 0), clk := .low }
      result := some .unit
      draws := (s.target.onWord s.cfg s.draws e.2.1).2
      target := (s.target.onWord s.cfg s.draws e.2.1).1 }

/-- R71 to R77: what each wire word does to the target under the contract; the enter word where the target waits for it (R71), page erase
in flash and in the Config region (R75), its address in `TPTR` (R37). The value of `TLOCK` and of the config bytes after a mass
erase is free. That an effect takes place with the word, and the protocol position, are the model's (log 10, log 11). -/
def Obligations.WireWordsActOnTheTarget : Prop :=
  ∀ (s : State) (a : Addr18),
    (Contract s →
      (∃ t, exec .cmdReadCid s = .next t ∧ t.target = { s.target with burst := .answer [s.target.cid] }) ∧
      (∃ t, exec .cmdReadDid s = .next t ∧ t.target = { s.target with burst := .answer (
        if s.cfg.didByteOrder = .lowFirst then [s.target.did.extractLsb' 0 8, s.target.did.extractLsb' 8 8]
        else [s.target.did.extractLsb' 8 8, s.target.did.extractLsb' 0 8]) }) ∧
      (∃ t, exec (.cmdRead a) s = .next t ∧ t.target = { s.target with ptr := a.toNat, burst := .read }) ∧
      (∃ t, exec (.cmdProgram a) s = .next t ∧ t.target = { s.target with ptr := a.toNat, burst := .program }) ∧
      (a.toNat < s.target.flash → ∃ t, exec (.cmdPageErase a) s = .next t ∧
        t.target = { s.target with
          ptr := a.toNat, mem := s.target.mem.erase (a.toNat - a.toNat % s.target.page) s.target.page }) ∧
      (s.target.flash ≤ a.toNat → s.cfg.configBase.toNat ≤ a.toNat → a.toNat < s.cfg.configBase.toNat + 5 →
        ∃ t, exec (.cmdPageErase a) s = .next t ∧
          t.target = { s.target with ptr := a.toNat, mem := s.target.mem.erase s.cfg.configBase.toNat 5 }) ∧
      (∃ t, exec .cmdMassErase s = .next t ∧
        t.target = { s.target with lock := t.target.lock, mem := t.target.mem } ∧
        (s.target.mem.wf = true → ∀ x, ¬ (s.cfg.configBase.toNat ≤ x ∧ x < s.cfg.configBase.toNat + 5) →
          t.target.mem.read x = if x < s.target.flash then 0xFF else s.target.mem.read x)) ∧
      (∃ t, exec .exitWord s = .next t ∧ t.target = { s.target with mode := .run })) ∧
    (s.target.matched = true → s.target.resetSeen = true → s.target.lock = false →
      ∃ t, exec .enterWord s = .next t ∧ t.target = { s.target with mode := .prog, resetSeen := false, broken := false })

/-- R71: the enter word right after the reset handshake takes a matching target into programming mode, with its memory as it was;
so does the handshake followed by the word, from any mode. The state between the two is the model's (log 11, log 13), and so is that
they work and keep the memory under a set lock too (log 15). -/
def Obligations.ResetHandshakeAndEnterWordEnterProgMode : Prop :=
  ∀ s : State, s.target.matched = true →
    ∃ t u, exec .resetpulse s = .next t ∧ exec .enterWord t = .next u ∧
      u.target.mode = .prog ∧ u.target.mem = s.target.mem ∧ u.target.lock = s.target.lock ∧ u.target.ready = true

/-- R102: a word that is neither a literal nor a command puts a target in programming mode into `TMODE = Unknown`. A ready target is the
model's term (log 11); what a word without a meaning leaves besides is a draw (log 29). -/
def Obligations.UnassignedWordMakesTheModeUnknown : Prop :=
  ∀ (w : Word24) (p : Profile) (s : State), s.target.ready = true → w ≠ s.cfg.exitWord → w ≠ s.cfg.enterWord →
    w.extractLsb' 0 6 ∉ s.cfg.opcodes →
    ∃ t, exec (.write24 w p) s = .next t ∧ t.target.mode = .unknown

/-- R95, R96, R73, R74: a response frame and a payload frame by themselves complete: the engine's side, in every state, and the
target's under the contract. RESP9 as an instruction and the trailer of a payload are the model's rendering (log 24, log 25, log 34),
and so is that `TPTR` does not wrap (log 12). -/
def Obligations.FramesCarryDataAndTrailer : Prop :=
  ∀ (d : Byte) (last : Bool) (s : State),
    (∃ (k : Nat) (target : Target), exec (.resp9 d last) s = .next { s with
      rxsr := d ++ (0#1), bitcnt := 0
      wire := s.wire ++ [.rx9 d last s.cfg.tRead]
      pins := s.pins ++ (WireEvent.rx9 d last s.cfg.tRead).pins
      lines := { s.lines with dat := .low, clk := .low }
      result := some (.byte d), draws := k, target := target } ∧
      (s.target.live = true → s.target.lock = false → s.target.burst = .read →
        s.target.frame = .boundary → s.target.has s.cfg s.target.ptr = true → s.target.mem.read s.target.ptr = d →
        k = s.draws ∧ target = { s.target with ptr := s.target.ptr + 1, burst := if last then .idle else .read })) ∧
    exec (.pay9 d last) s = exec (.write9 d last s.cfg.tRead s.cfg.tProgram) s ∧
    (∃ t, exec (.pay9 d last) s = .next t ∧ t.wire = s.wire ++ [.tx9 d last s.cfg.tRead s.cfg.tProgram] ∧
      (s.target.live = true → s.target.lock = false → s.target.burst = .program → s.target.frame = .boundary →
        s.target.has s.cfg s.target.ptr = true →
        t.draws = s.draws ∧
        t.target = { s.target with
          mem := s.target.mem.write s.target.ptr (s.target.mem.read s.target.ptr &&& d)
          ptr := if s.cfg.writeMode = .burst then s.target.ptr + 1 else s.target.ptr
          burst := if last then .idle else .program }))

/-! ### Traces -/

/-- R150: the pin trace of an instruction is the expansion of its frame trace, and the lines follow it. LOCKED is left out (its
query is opaque, R124), and so are TIKTOK and BITIN, which are parts of a frame and no frame event. -/
def Obligations.PinTraceExpandsTheWireTrace : Prop :=
  ∀ (i : Instr) (s t : State), i ≠ .locked → (∀ setup hold, i ≠ .tiktok setup hold) → (∀ p, i ≠ .bitin p) →
    exec i s = .next t →
    ∃ evs : List WireEvent, t.wire = s.wire ++ evs ∧ t.pins = s.pins ++ evs.flatMap WireEvent.pins ∧
      t.lines = s.lines.afterAll (evs.flatMap WireEvent.pins)

/-- R162: what every frame trace expands to: the clock alternates, the pulses and samples are those of the frames, DAT is released only
during the eight data bits of a response frame (the `5 * 8` pin events after its release) and after RELEASE, and RST moves only in
the reset pulse and the release. -/
def Obligations.ExpansionsObeyTheTraceInvariants : Prop :=
  ∀ evs : List WireEvent,
    clockAlternates false (evs.flatMap WireEvent.pins) = true ∧
    clockPulses (evs.flatMap WireEvent.pins) = (evs.map WireEvent.pulses).sum ∧
    sampleCount (evs.flatMap WireEvent.pins) = (evs.map WireEvent.samples).sum ∧
    (∀ (l : Lines) (before after : List WireEvent) (e : WireEvent) (n : Nat), evs = before ++ e :: after → l.dat ≠ .z →
      (∀ x ∈ before, x ≠ .release) → e ≠ .release →
      (l.afterAll (before.flatMap WireEvent.pins ++ e.pins.take n)).dat = .z →
      (∃ d last p, e = .rx9 d last p) ∧ 1 ≤ n ∧ n ≤ 1 + 5 * 8) ∧
    ((∀ e ∈ evs, e ≠ .release ∧ ∀ lit p, e ≠ .resetPulse lit p) →
      ∀ e ∈ evs.flatMap WireEvent.pins, e.isReset = false)

/-- R331: the totals of the delay labels, row by row; of a capped operation where the parameters shorten no increment (the sum of the
class profiles is within the cap and no slice is named). -/
def Obligations.DelayTotalsOfOperations : Prop :=
  ∀ s t : State,
    (exec .enter s = .next t → ∃ ps, t.pins = s.pins ++ ps ∧ delaySum ps =
      s.cfg.resetLiteral.length * s.cfg.tReset.total + 24 * s.cfg.tMode.total + 2 * 24 * s.cfg.tRead.total +
        3 * 9 * s.cfg.tRead.total) ∧
    (exec .exit s = .next t → ∃ ps, t.pins = s.pins ++ ps ∧ delaySum ps = 24 * s.cfg.tMode.total) ∧
    (∀ a, exec (.erase a) s = .next t → ∃ ps, t.pins = s.pins ++ ps ∧
      delaySum ps = 24 * s.cfg.tRead.total + s.cfg.tPageErase.total) ∧
    (exec .massErase s = .next t → ∃ ps, t.pins = s.pins ++ ps ∧
      delaySum ps = 24 * s.cfg.tRead.total + s.cfg.tMassErase.total) ∧
    (∀ a n buf, (exec (.read a n) s = .next t ∨ n = buf.length ∧ (exec (.compare a buf) s = .next t ∨
        exec (.verify a buf) s = .next t)) →
      ∃ ps, t.pins = s.pins ++ ps ∧ delaySum ps = 24 * s.cfg.tRead.total + 9 * n * s.cfg.tRead.total) ∧
    (∀ a buf, s.cfg.slices = [] → buf.length * s.cfg.tProgram.total ≤ s.cfg.capProgram.at buf.length →
      exec (.write a buf) s = .next t → ∃ ps, t.pins = s.pins ++ ps ∧ delaySum ps =
        if s.cfg.writeMode = .burst then
          24 * s.cfg.tRead.total + buf.length * (8 * s.cfg.tRead.total + s.cfg.tProgram.total)
        else buf.length * (24 * s.cfg.tRead.total + 8 * s.cfg.tRead.total + s.cfg.tProgram.total)) ∧
    (∀ a n k, s.cfg.slices = [] → k = (a.toNat + n - 1) / pageSizeOf s.did - a.toNat / pageSizeOf s.did + 1 →
      k * s.cfg.tPageErase.total ≤ s.cfg.capPageErase.at n → exec (.flashErase a n) s = .next t →
      ∃ ps, t.pins = s.pins ++ ps ∧ delaySum ps = k * (24 * s.cfg.tRead.total + s.cfg.tPageErase.total)) ∧
    (∀ (i : Instr) (o : Byte) (p : Word32) (res : CompareResult) (did : DeviceId) (flag : Bool) (n : Nat),
      i ∈ [Instr.deviceId, .pageSize, .flashSize, .pack o p, .needErase res, .needWrite res, .equal res, .pageSizeOf did,
        .flashSizeOf did, .config0 flag, .cbs o, .config1 n, .ldsize o] →
      exec i s = .next t → t.pins = s.pins)

/-- R163: the increments of a capped operation: each at most the class profile componentwise, their sum at most the cap, and the
cap monotone in the length. -/
def Obligations.CappedDelaysStayWithinTheCap : Prop :=
  ∀ (c : Config) (cls : CapClass) (n count : Nat),
    (slicesOf c cls n count).length = count ∧
    ((slicesOf c cls n count).map Profile.total).sum ≤ (capOf c cls).at n ∧
    (∀ t ∈ slicesOf c cls n count, t.setup ≤ (capProfile c cls).setup ∧ t.hold ≤ (capProfile c cls).hold) ∧
    (∀ m, n ≤ m → (capOf c cls).at n ≤ (capOf c cls).at m)

/-- R163: the settle delays of one FLASH_ERASE and the trailer delays of one WRITE are within their caps. -/
def Obligations.OperationsHonourTheirCaps : Prop :=
  (∀ (a : Word32) (n : Nat) (s t : State), exec (.flashErase a n) s = .next t →
    ∃ evs, t.wire = s.wire ++ evs ∧ settleSum evs ≤ s.cfg.capPageErase.at n) ∧
  (∀ (a : Word32) (buf : List Byte) (s t : State), exec (.write a buf) s = .next t →
    ∃ evs, t.wire = s.wire ++ evs ∧ trailerSum evs ≤ s.cfg.capProgram.at buf.length)

/-! ### Admission -/

/-- R286, R289: the checks of `admission` in their order. -/
def Obligations.AdmissionChecksInOrder : Prop :=
  ∀ (a n : Nat) (s : State),
    (s.sess = .disconnected → admission a n s = some .notEntered) ∧
    (s.sess = .entered → n = 0 → admission a n s = some .emptyRequest) ∧
    (s.sess = .entered → 0 < n → 262144 ≤ a ∨ 262144 < a + n → admission a n s = some .unencodable) ∧
    (s.sess = .entered → 0 < n → a < 262144 → a + n ≤ 262144 → flashSizeOf s.cfg s.did < a + n →
      a < s.cfg.configBase.toNat ∨ s.cfg.configBase.toNat + 5 < a + n → admission a n s = some .outOfRegion) ∧
    (admission a n s = none ↔ Admissible a n s)

/-- R283: outside a session LOCKED and every memory operation is refused with `NotEntered`. -/
def Obligations.MemoryOperationsNeedASession : Prop :=
  ∀ (a : Word32) (n : Nat) (buf : List Byte) (i : Instr) (s : State), s.sess = .disconnected →
    i ∈ [Instr.locked, .massErase, .configErase, .configRead, .configWrite buf, .configCompare buf, .configVerify buf,
      .flashErase a n, .flashRead a n, .flashWrite a buf, .flashCompare a buf, .flashVerify a buf,
      .erase a, .read a n, .write a buf, .compare a buf, .verify a buf] →
    exec i s = .refused .notEntered

/-- R230, R287: a config buffer of another length than 5 is refused with `BadConfigLength`; with valid parameters nothing else can
refuse a CONFIG_x request inside a session. -/
def Obligations.ConfigRequestsAreAdmittedByLength : Prop :=
  (∀ (buf : List Byte) (i : Instr) (s : State), s.sess = .entered → buf.length ≠ 5 →
    i ∈ [Instr.configWrite buf, .configCompare buf, .configVerify buf] → exec i s = .refused .badConfigLength) ∧
  (∀ (buf : List Byte) (i : Instr) (s : State), s.sess = .entered → s.cfg.valid = true → buf.length = 5 →
    i ∈ [Instr.configErase, .configRead, .configWrite buf, .configCompare buf, .configVerify buf] →
    ∃ t, exec i s = .next t)

/-- R288: no instruction ends in a fault (R280), and which operation is refused for which reason, and exactly when, by the spec's
decisions D16 to D19, D29, D32 and D34 (R283 to R287). That a wire word or a frame by itself is never refused is the model's
(log 24). -/
def Obligations.RefusalTable : Prop :=
  ∀ (i : Instr) (s : State), ((∃ t, exec i s = .next t) ∨ ∃ why, exec i s = .refused why) ∧ ∀ why : Refusal,
    match i with
    | .locked => exec i s = .refused why ↔ why = .notEntered ∧ s.sess = .disconnected
    | .massErase => exec i s = .refused why ↔ why = .notEntered ∧ s.sess = .disconnected
    | .deviceId => exec i s = .refused why ↔ why = .identityUnknown ∧ s.idValid = false
    | .pageSize => exec i s = .refused why ↔ why = .identityUnknown ∧ s.idValid = false
    | .flashSize => exec i s = .refused why ↔ why = .identityUnknown ∧ s.idValid = false
    | .configErase => s.cfg.valid = true → (exec i s = .refused why ↔ why = .notEntered ∧ s.sess = .disconnected)
    | .configRead => s.cfg.valid = true → (exec i s = .refused why ↔ why = .notEntered ∧ s.sess = .disconnected)
    | .configWrite buf => s.cfg.valid = true → (exec i s = .refused why ↔
        why = .notEntered ∧ s.sess = .disconnected ∨ why = .badConfigLength ∧ s.sess = .entered ∧ buf.length ≠ 5)
    | .configCompare buf => s.cfg.valid = true → (exec i s = .refused why ↔
        why = .notEntered ∧ s.sess = .disconnected ∨ why = .badConfigLength ∧ s.sess = .entered ∧ buf.length ≠ 5)
    | .configVerify buf => s.cfg.valid = true → (exec i s = .refused why ↔
        why = .notEntered ∧ s.sess = .disconnected ∨ why = .badConfigLength ∧ s.sess = .entered ∧ buf.length ≠ 5)
    | .flashErase a n => exec i s = .refused why ↔ admission a.toNat n s = some why
    | .flashRead a n => exec i s = .refused why ↔ admission a.toNat n s = some why
    | .flashWrite a buf => exec i s = .refused why ↔ admission a.toNat buf.length s = some why
    | .flashCompare a buf => exec i s = .refused why ↔ admission a.toNat buf.length s = some why
    | .flashVerify a buf => exec i s = .refused why ↔ admission a.toNat buf.length s = some why
    | .erase a => exec i s = .refused why ↔ admission a.toNat 1 s = some why
    | .read a n => exec i s = .refused why ↔ admission a.toNat n s = some why
    | .write a buf => exec i s = .refused why ↔ admission a.toNat buf.length s = some why
    | .compare a buf => exec i s = .refused why ↔ admission a.toNat buf.length s = some why
    | .verify a buf => exec i s = .refused why ↔ admission a.toNat buf.length s = some why
    | .config1 n => exec i s = .refused why ↔ why = .badCodecArgument ∧ 7168 ≤ n
    | _ => exec i s ≠ .refused why

/-! ### Session -/

/-- R120, R32: ENTER in every state: its eight frame events, the cached identity, the session and the lines; and with a matching
target the identity is the target's and the target is ready in programming mode with its memory as it was (R71, R77). The protocol
position after it is the model's (log 11), and so is that the reset pulse and the entry keep `TPTR` and `TLOCK`, and keep the memory
before the enter word (log 13), and that the entry works and keeps the memory under a set lock too (log 15). -/
def Obligations.EnterRunsTheHandshake : Prop :=
  ∀ s : State, ∃ (c b0 b1 : Byte) (t : State), exec .enter s = .next t ∧
    t.wire = s.wire ++ [.drive, .resetPulse s.cfg.resetLiteral s.cfg.tReset, .tx24 s.cfg.enterWord s.cfg.tMode,
      .tx24 (commandWord s.cfg.opReadCid s.cfg.paramReadCid) s.cfg.tRead, .rx9 c true s.cfg.tRead,
      .tx24 (commandWord s.cfg.opReadDid s.cfg.paramReadDid) s.cfg.tRead, .rx9 b0 false s.cfg.tRead,
      .rx9 b1 true s.cfg.tRead] ∧
    t.result = some (.byte c) ∧ t.cid = c ∧ t.did = (if s.cfg.didByteOrder = .lowFirst then b1 ++ b0 else b0 ++ b1) ∧
    t.idValid = true ∧ t.sess = .entered ∧
    t.lines = ⟨.low, .low, (s.cfg.resetLiteral.getLast?.map Level.ofBit).getD s.lines.rst⟩ ∧
    t.txsr = commandWord s.cfg.opReadDid s.cfg.paramReadDid ∧ t.rxsr = b1 ++ (0#1) ∧ t.bitcnt = 0 ∧
    t = { s with sess := t.sess, cid := t.cid, did := t.did, idValid := t.idValid, txsr := t.txsr, rxsr := t.rxsr,
                 bitcnt := t.bitcnt, seq := .idle, lines := t.lines, wire := t.wire, pins := t.pins, result := t.result,
                 draws := t.draws, target := t.target } ∧
    (s.cfg.valid = true → s.target.matched = true →
      c = s.target.cid ∧ t.did = s.target.did ∧ t.draws = s.draws ∧
      t.target = { s.target with mode := .prog, resetSeen := false, broken := false, burst := .idle, frame := .boundary })

/-- R122: EXIT in every state: its frame events, the released lines, the identity gone; a ready target goes to run mode
with its memory as it was (R72). That the exit works under a set lock too is the model's (log 15). -/
def Obligations.ExitReleasesTheLines : Prop :=
  ∀ s : State, ∃ t : State, exec .exit s = .next t ∧
    t.wire = s.wire ++ (if s.sess = .disconnected then [.drive] else []) ++ [.tx24 s.cfg.exitWord s.cfg.tMode, .release] ∧
    t.result = some .unit ∧ t.idValid = false ∧ t.sess = .disconnected ∧ t.lines = ⟨.z, .z, .z⟩ ∧
    t.txsr = s.cfg.exitWord ∧ t.bitcnt = 0 ∧
    t = { s with sess := t.sess, idValid := t.idValid, txsr := t.txsr, bitcnt := t.bitcnt, seq := .idle, lines := t.lines,
                 wire := t.wire, pins := t.pins, result := t.result, draws := t.draws, target := t.target } ∧
    (s.target.ready = true →
      t.draws = s.draws ∧ t.target = { s.target with mode := .run })

/-- R124: LOCKED in a session: one opaque frame event, no cached answer, nothing host-visible changed; from a ready target the answer
is `TLOCK`, locked or not (R78), and the target is as it was. R124 and R80 give that `TMem` is kept and no burst is left open; that
the rest of the target, `TPTR` and its protocol position, is as it was too, and the query as a list of calls, are the model's
choices (log 17). -/
def Obligations.LockedReportsTheFlag : Prop :=
  ∀ s : State, s.sess = .entered → ∃ (l : Bool) (t : State), exec .locked s = .next t ∧
    t.result = some (.bool l) ∧ t.wire = s.wire ++ [.lockQuery] ∧ t.addr = s.addr ∧ t.rem = s.rem ∧ wireFrame s t ∧
    (s.lines.clk = .low → s.lines.dat ≠ .z → t.lines.clk = .low ∧ t.lines.dat ≠ .z) ∧
    (s.target.ready = true → l = s.target.lock ∧ t.target = s.target)

/-- R123, R43 (iv), R24: over all instructions, only ENTER enters the session and only EXIT leaves it, only ENTER writes the
identity, only ENTER and EXIT write `ID_VALID`, and only the compare family writes `CMP`. -/
def Obligations.OnlyTheirOwnersWriteHostVisibleRegisters : Prop :=
  ∀ (i : Instr) (s t : State), exec i s = .next t →
    t.sess = (if i = .enter then .entered else if i = .exit then .disconnected else s.sess) ∧
    t.idValid = (if i = .enter then true else if i = .exit then false else s.idValid) ∧
    (i ≠ .enter → t.cid = s.cid ∧ t.did = s.did) ∧
    (t.cmp = s.cmp ∨ (∃ a buf, i = .compare a buf ∨ i = .verify a buf ∨ i = .flashCompare a buf ∨ i = .flashVerify a buf) ∨
      (∃ buf, i = .configCompare buf ∨ i = .configVerify buf))

/-- R31, R40, R41: no step changes the parameters or the target's constants. -/
def Obligations.ParametersAndTargetConstantsAreFixed : Prop :=
  ∀ s t : State, step s = .next t →
    t.cfg = s.cfg ∧ t.target.matched = s.target.matched ∧ t.target.cid = s.target.cid ∧ t.target.did = s.target.did ∧
    t.target.page = s.target.page ∧ t.target.flash = s.target.flash

/-! ### Memory operations -/

/-- R184, R232, R237: READ in every admitted state: one command word and `n` response frames, the last one marked; under the contract
the bytes are the target's, the memory is as it was and the pointer ends at `a + n` (R73), which does not wrap (the model's, log 12). -/
def Obligations.ReadReturnsTheBurst : Prop :=
  ∀ (i : Instr) (a : Word32) (n : Nat) (s : State),
    (i = .read a n ∨ i = .flashRead a n ∨ (i = .configRead ∧ a = configAddress s.cfg ∧ n = 5)) →
    Admissible a.toNat n s →
    ∃ (out : List Byte) (t : State), exec i s = .next t ∧ out.length = n ∧ t.result = some (.bytes out) ∧
      t.wire = s.wire ++
        (.tx24 (commandWord s.cfg.opRead (a.setWidth 18)) s.cfg.tRead :: responseTrace s.cfg.tRead out) ∧
      t.addr = a.setWidth 18 ∧ t.rem = 0 ∧ t.txsr = commandWord s.cfg.opRead (a.setWidth 18) ∧
      (∀ d, out.getLast? = some d → t.rxsr = d ++ (0#1)) ∧ t.bitcnt = 0 ∧
      t.lines = { s.lines with dat := .low, clk := .low } ∧ wireFrame s t ∧
      (Contract s → s.target.covers s.cfg a.toNat n →
        out = s.target.mem.slice a.toNat n ∧ t.draws = s.draws ∧
        t.target = { s.target with ptr := a.toNat + n })

/-- R180, R231: ERASE in every admitted state: the unmasked command word and one settle; under the contract exactly the page that
contains the address becomes `0xFF`: the target's page in flash, the whole block in the Config region (R75, R181). The command word
carries the address, so it is in `TPTR` after (R37). -/
def Obligations.EraseClearsExactlyItsPage : Prop :=
  ∀ (i : Instr) (a : Word32) (s : State),
    (i = .erase a ∨ (i = .configErase ∧ a = configAddress s.cfg)) → Admissible a.toNat 1 s →
    ∃ t : State, exec i s = .next t ∧ t.result = some .unit ∧
      t.wire = s.wire ++ eraseTrace s.cfg a.toNat s.cfg.tPageErase ∧
      t.addr = a.setWidth 18 ∧ t.rem = s.rem ∧ t.rxsr = s.rxsr ∧
      t.txsr = commandWord s.cfg.opPageErase (a.setWidth 18) ∧ t.bitcnt = 0 ∧
      t.lines = { s.lines with dat := Level.ofBit (s.cfg.opPageErase.getLsbD 0), clk := .low } ∧ wireFrame s t ∧
      (Contract s → s.target.covers s.cfg a.toNat 1 →
        t.draws = s.draws ∧ t.target = { s.target with ptr := a.toNat, mem := t.target.mem } ∧
        (a.toNat < s.target.flash → ∀ x, t.target.mem.read x =
          if a.toNat - a.toNat % s.target.page ≤ x ∧ x < a.toNat - a.toNat % s.target.page + s.target.page then 0xFF
          else s.target.mem.read x) ∧
        (s.target.flash ≤ a.toNat → ∀ x, t.target.mem.read x =
          if s.cfg.configBase.toNat ≤ x ∧ x < s.cfg.configBase.toNat + 5 then 0xFF else s.target.mem.read x))

/-- R182, R76: MASS_ERASE in a session: one command word and one settle; under the contract all of flash becomes `0xFF` and nothing but
the config bytes and `TLOCK`, which are free, may change besides. -/
def Obligations.MassEraseClearsFlash : Prop :=
  ∀ s : State, s.sess = .entered → ∃ t : State, exec .massErase s = .next t ∧ t.result = some .unit ∧
    t.wire = s.wire ++ [.tx24 (commandWord s.cfg.opMassErase s.cfg.paramMassErase) s.cfg.tRead, .settle s.cfg.tMassErase] ∧
    t.addr = s.addr ∧ t.rem = s.rem ∧ t.rxsr = s.rxsr ∧
    t.txsr = commandWord s.cfg.opMassErase s.cfg.paramMassErase ∧ t.bitcnt = 0 ∧
    t.lines = { s.lines with dat := Level.ofBit (s.cfg.opMassErase.getLsbD 0), clk := .low } ∧ wireFrame s t ∧
    (Contract s → s.target.mem.wf = true → s.target.flash ≤ s.cfg.configBase.toNat →
      t.target = { s.target with lock := t.target.lock, mem := t.target.mem } ∧
      (∀ x, x < s.target.flash → t.target.mem.read x = 0xFF) ∧
      (∀ x, s.target.flash ≤ x → ¬ (s.cfg.configBase.toNat ≤ x ∧ x < s.cfg.configBase.toNat + 5) →
        t.target.mem.read x = s.target.mem.read x))

/-- R186, R233, R238: WRITE in every admitted state: the frames of the mode in force, no read, no content check; `TXSR` holds the last
command word and `REM` has counted down (R27; log 19); under the contract byte `a + i` becomes `old & buf[i]` in both modes and every
other byte is as it was (R74, R187), and `TPTR` is the address after the last byte in burst mode, the last byte's in per-byte mode
(R74; no wrap, log 12). The delay pair of each trailer where the cap shortens it (log 20), and that the last payload frame leaves
nothing open (log 34), are the model's. -/
def Obligations.WriteAndsTheBufferIn : Prop :=
  ∀ (i : Instr) (a : Word32) (buf : List Byte) (s : State),
    (i = .write a buf ∨ i = .flashWrite a buf ∨ (i = .configWrite buf ∧ a = configAddress s.cfg ∧ buf.length = 5)) →
    Admissible a.toNat buf.length s →
    ∃ t : State, exec i s = .next t ∧ t.result = some .unit ∧
      t.wire = s.wire ++ programTrace s.cfg a.toNat buf ∧
      t.addr = a.setWidth 18 ∧ t.rem = 0 ∧ t.rxsr = s.rxsr ∧ t.bitcnt = 0 ∧
      t.txsr = commandWord s.cfg.opProgram
        (BitVec.ofNat 18 (if s.cfg.writeMode = .burst then a.toNat else a.toNat + buf.length - 1)) ∧
      t.lines = { s.lines with dat := .low, clk := .low } ∧ wireFrame s t ∧
      (Contract s → s.target.mem.wf = true → s.target.covers s.cfg a.toNat buf.length →
        t.draws = s.draws ∧ t.target = { s.target with
          ptr := if s.cfg.writeMode = .burst then a.toNat + buf.length else a.toNat + buf.length - 1
          mem := t.target.mem } ∧
        t.target.mem.wf = true ∧
        ∀ x, t.target.mem.read x =
          if a.toNat ≤ x ∧ x < a.toNat + buf.length then s.target.mem.read x &&& buf.getD (x - a.toNat) 0
          else s.target.mem.read x)

/-- R210, R234, R239: COMPARE in every admitted state is READ, trace and working registers included, with the flags of the bytes it
read left in `CMP` and returned; NOT_EMPTY depends on the buffer alone (R221); under the contract the flags are those of
the target's bytes and the memory is as it was; `TPTR` does not wrap (the model's, log 12). -/
def Obligations.CompareFlagsTheRange : Prop :=
  ∀ (i : Instr) (a : Word32) (buf : List Byte) (s : State),
    (i = .compare a buf ∨ i = .flashCompare a buf ∨
      (i = .configCompare buf ∧ a = configAddress s.cfg ∧ buf.length = 5)) →
    Admissible a.toNat buf.length s →
    ∃ (cur : List Byte) (t u : State), exec i s = .next t ∧ exec (.read a buf.length) s = .next u ∧
      u.result = some (.bytes cur) ∧ cur.length = buf.length ∧
      t = { u with cmp := compareBytes cur buf, result := some (.flags (compareBytes cur buf)) } ∧
      t.cmp.nemp = buf.any (fun d => d != 0xFF) ∧ wireFrame { s with cmp := t.cmp } t ∧
      (Contract s → s.target.covers s.cfg a.toNat buf.length →
        cur = s.target.mem.slice a.toNat buf.length ∧ t.draws = s.draws ∧
        t.target = { s.target with ptr := a.toNat + buf.length })

/-- R241, R235, R240: VERIFY in every admitted state is COMPARE reduced to `not NE`: it answers true exactly when every byte
that READ returns equals the buffer's, and leaves the other flags in `CMP`; under the contract those bytes are the target's. -/
def Obligations.VerifyIsEqualityOfTheRange : Prop :=
  ∀ (i : Instr) (a : Word32) (buf : List Byte) (s : State),
    (i = .verify a buf ∨ i = .flashVerify a buf ∨
      (i = .configVerify buf ∧ a = configAddress s.cfg ∧ buf.length = 5)) →
    Admissible a.toNat buf.length s →
    ∃ (cur : List Byte) (t u v : State), exec i s = .next t ∧ exec (.compare a buf) s = .next u ∧
      exec (.read a buf.length) s = .next v ∧ v.result = some (.bytes cur) ∧
      t = { u with result := some (.bool (!u.cmp.ne)) } ∧ t.wire = v.wire ∧
      (t.result = some (.bool true) ↔ cur = buf) ∧
      (Contract s → s.target.covers s.cfg a.toNat buf.length → cur = s.target.mem.slice a.toNat buf.length)

/-- R236: FLASH_ERASE in every admitted state: the first ERASE at the caller's address, the following ones at page bases, one for each
page of the engine's size that the range touches, each address inside the range. -/
def Obligations.FlashEraseStepsThroughThePages : Prop :=
  ∀ (a : Word32) (n : Nat) (s : State), Admissible a.toNat n s →
    ∃ (addrs : List Nat) (delays : List Profile) (t : State), exec (.flashErase a n) s = .next t ∧
      t.result = some .unit ∧
      addrs.length = (a.toNat + n - 1) / pageSizeOf s.did - a.toNat / pageSizeOf s.did + 1 ∧
      delays.length = addrs.length ∧
      addrs.head? = some a.toNat ∧
      (∀ j e, addrs[j + 1]? = some e → e = (a.toNat / pageSizeOf s.did + j + 1) * pageSizeOf s.did) ∧
      (∀ e ∈ addrs, a.toNat ≤ e ∧ e < a.toNat + n) ∧
      t.wire = s.wire ++ (addrs.zip delays).flatMap (fun e => eraseTrace s.cfg e.1 e.2) ∧
      (∀ p ∈ delays, p.setup ≤ s.cfg.tPageErase.setup ∧ p.hold ≤ s.cfg.tPageErase.hold) ∧
      (∀ e, addrs.getLast? = some e → t.addr = BitVec.ofNat 18 e ∧
        t.txsr = commandWord s.cfg.opPageErase (BitVec.ofNat 18 e)) ∧
      t.rem = s.rem ∧ t.rxsr = s.rxsr ∧ t.bitcnt = 0 ∧
      t.lines = { s.lines with dat := Level.ofBit (s.cfg.opPageErase.getLsbD 0), clk := .low } ∧ wireFrame s t

/-- R236: under the contract, with the engine's page size equal to the target's, FLASH_ERASE over a flash range erases every page the
range touches, whole, and nothing else; over a range of the Config region, whatever the page size, it erases the whole block and
nothing else (R75). The last address, which `ADDR` holds, is in `TPTR` (R37). -/
def Obligations.FlashEraseClearsEveryPageTouched : Prop :=
  ∀ (a : Word32) (n : Nat) (s t : State), Contract s → 0 < n → exec (.flashErase a n) s = .next t →
    (pageSizeOf s.did = s.target.page → a.toNat + n ≤ s.target.flash →
      t.target = { s.target with ptr := t.addr.toNat, mem := t.target.mem } ∧
      ∀ x, t.target.mem.read x =
        if a.toNat / s.target.page * s.target.page ≤ x ∧ x < ((a.toNat + n - 1) / s.target.page + 1) * s.target.page then 0xFF
        else s.target.mem.read x) ∧
    (s.target.flash ≤ a.toNat → s.cfg.configBase.toNat ≤ a.toNat → a.toNat + n ≤ s.cfg.configBase.toNat + 5 →
      t.target = { s.target with ptr := t.addr.toNat, mem := t.target.mem } ∧
      ∀ x, t.target.mem.read x =
        if s.cfg.configBase.toNat ≤ x ∧ x < s.cfg.configBase.toNat + 5 then 0xFF else s.target.mem.read x)

/-- R105, R231 to R235, R237 to R240: every wrapper but FLASH_ERASE (a loop of its own, R236) is its expansion, exactly: the same outcome
in the same state. -/
def Obligations.WrappersAreTheirExpansions : Prop :=
  ∀ (a : Word32) (n : Nat) (buf : List Byte) (s : State),
    exec .configErase s = exec (.erase (configAddress s.cfg)) s ∧
    exec .configRead s = exec (.read (configAddress s.cfg) 5) s ∧
    (buf.length = 5 →
      exec (.configWrite buf) s = exec (.write (configAddress s.cfg) buf) s ∧
      exec (.configCompare buf) s = exec (.compare (configAddress s.cfg) buf) s ∧
      exec (.configVerify buf) s = exec (.verify (configAddress s.cfg) buf) s) ∧
    exec (.flashRead a n) s = exec (.read a n) s ∧
    exec (.flashWrite a buf) s = exec (.write a buf) s ∧
    exec (.flashCompare a buf) s = exec (.compare a buf) s ∧
    exec (.flashVerify a buf) s = exec (.verify a buf) s

/-- R80: under the contract only ERASE, WRITE and MASS_ERASE and their wrappers change the target's memory. -/
def Obligations.OnlyMutatingOperationsChangeMemory : Prop :=
  ∀ (i : Instr) (s t : State), Contract s → i.isHostOp = true →
    (∀ a n, i ≠ .flashErase a n) → (∀ a buf, i ≠ .flashWrite a buf) → (∀ buf, i ≠ .configWrite buf) → i ≠ .configErase →
    i ≠ .massErase →
    (∀ a n, (i = .flashRead a n ∨ i = .configRead ∧ a = configAddress s.cfg ∧ n = 5) → s.target.covers s.cfg a.toNat n) →
    (∀ a buf, (i = .flashCompare a buf ∨ i = .flashVerify a buf) → s.target.covers s.cfg a.toNat buf.length) →
    exec i s = .next t → t.target.mem = s.target.mem

/-- S9, R76, R216: after MASS_ERASE a comparison with all-`0xFF` over the full flash range finds it equal, provided the engine knows
the target's flash size. A mass erase leaves the lock flag free (R76), so the claim is about the state `u` with the flag clear,
which is `t` itself where the draw is clear. -/
def Obligations.MassErasedFlashVerifiesAsErased : Prop :=
  ∀ (s t u : State), Contract s → LaunchPremise s.cfg s.target → s.target.mem.wf = true → s.sess = .entered →
    flashSizeOf s.cfg s.did = s.target.flash → 0 < s.target.flash → exec .massErase s = .next t →
    u = { t with target := { t.target with lock := false } } →
    (t.target.lock = false → u = t) ∧
    ∃ v w, exec (.flashCompare 0 (List.replicate s.target.flash 0xFF)) u = .next v ∧ v.cmp = ⟨false, false, false⟩ ∧
      exec (.flashVerify 0 (List.replicate s.target.flash 0xFF)) u = .next w ∧ w.result = some (.bool true)

/-- S5 and R68: writing the same buffer again changes no byte of the target's memory. That the first leaves nothing open is the
model's (log 34). -/
def Obligations.WritingTwiceIsWritingOnce : Prop :=
  ∀ (a : Word32) (buf : List Byte) (s t u : State), Contract s → s.target.mem.wf = true →
    s.target.covers s.cfg a.toNat buf.length → exec (.flashWrite a buf) s = .next t → exec (.flashWrite a buf) t = .next u →
    u.target.mem = t.target.mem

/-- R219: the decision loop the flags drive, over one whole page of the target: compare, erase if `need_erase`, write if
`need_write`; then VERIFY answers true and the page holds the buffer. That the write leaves nothing open is the model's (log 34). -/
def Obligations.DecisionLoopReachesTheDesiredPage : Prop :=
  ∀ (a : Word32) (buf : List Byte) (s t e w : State), Contract s → s.target.mem.wf = true →
    0 < s.target.page → buf.length = s.target.page → a.toNat % s.target.page = 0 →
    a.toNat + buf.length ≤ s.target.flash → Admissible a.toNat buf.length s →
    exec (.compare a buf) s = .next t →
    (if needErase t.cmp then exec (.erase a) t = .next e else e = t) →
    (if needWrite t.cmp then exec (.write a buf) e = .next w else w = e) →
    w.target.mem.slice a.toNat buf.length = buf ∧
    ∃ v, exec (.verify a buf) w = .next v ∧ v.result = some (.bool true)

/-! ### Disruption -/

/-- R320: an operation on the wire that an external disruption stops leaves the target in an unknown mode and the session registers as
they were, whatever the target's state; under the contract, no bit that a WRITE covers rises and no byte outside what an erase or a
write could have changed is touched: the bytes of a WRITE, the page of an ERASE, the pages of the addresses of a FLASH_ERASE, all of
flash and the config bytes for MASS_ERASE. The granularity of the prefix is the model's, and so is that a COMPARE stopped on the wire
has not yet cleared `CMP` (log 23). -/
def Obligations.DisruptedWriteLowersBitsOnly : Prop :=
  ∀ (i : Instr) (steps : Nat) (s t : State) (r : Request) (rest : List Request),
    s.port = r :: rest → decode s.cfg r = .ok i → s.disrupt = some steps → step s = .next t →
    ((∃ a n buf, i ∈ [Instr.write a buf, .flashWrite a buf, .configWrite buf, .erase a, .configErase, .flashErase a n,
        .massErase]) ∨ (∃ p, planOf i { s with port := rest, disrupt := none } = some p) →
      t.target.mode = .unknown ∧ t.sess = s.sess ∧ t.cid = s.cid ∧ t.did = s.did ∧ t.idValid = s.idValid ∧ t.cmp = s.cmp ∧
      t.result = s.result) ∧
    (Contract s → s.target.mem.wf = true →
      (∀ (a : Word32) (buf : List Byte),
        (i = .write a buf ∨ i = .flashWrite a buf ∨ (i = .configWrite buf ∧ a = configAddress s.cfg)) →
        s.target.covers s.cfg a.toNat buf.length → ∀ x, t.target.mem.read x &&& s.target.mem.read x = t.target.mem.read x ∧
          (¬ (a.toNat ≤ x ∧ x < a.toNat + buf.length) → t.target.mem.read x = s.target.mem.read x)) ∧
      (∀ (a : Word32) (n : Nat),
        ((i = .erase a ∧ n = 1) ∨ (i = .configErase ∧ a = configAddress s.cfg ∧ n = 1) ∨ i = .flashErase a n) →
        (a.toNat + n ≤ s.target.flash → ∀ x, (∀ e, a.toNat ≤ e → e < a.toNat + n → x / s.target.page ≠ e / s.target.page) →
          t.target.mem.read x = s.target.mem.read x) ∧
        (s.target.flash ≤ a.toNat → s.cfg.configBase.toNat ≤ a.toNat → a.toNat + n ≤ s.cfg.configBase.toNat + 5 →
          ∀ x, ¬ (s.cfg.configBase.toNat ≤ x ∧ x < s.cfg.configBase.toNat + 5) →
            t.target.mem.read x = s.target.mem.read x)) ∧
      (i = .massErase → ∀ x, s.target.flash ≤ x → ¬ (s.cfg.configBase.toNat ≤ x ∧ x < s.cfg.configBase.toNat + 5) →
        t.target.mem.read x = s.target.mem.read x))

/-- R320, R130, R70 (d): after any disruption that stopped an operation on the wire, the target's mode is unknown, and ENTER recovers a
matching target; until then it is out of the contract: no other instruction brings it back, RESETPULSE, the first part of an ENTER,
included. The prefix at which an operation stops and the memory of the disruption are the model's (log 23), and so is that the
recovery works and keeps the memory under a set lock too (log 15). -/
def Obligations.EnterRecoversFromADisruption : Prop :=
  (∀ (s t : State) (r : Request) (rest : List Request) (i : Instr) (steps : Nat) (p : Plan),
    s.cfg.valid = true → s.target.matched = true → s.port = r :: rest → decode s.cfg r = .ok i → s.disrupt = some steps →
    planOf i { s with port := rest, disrupt := none } = some p → step s = .next t →
    t.target.mode = .unknown ∧ (t.target.broken = true ∧ t.target.resetSeen = false ∧ t.target.live = false) ∧
    ∃ u, exec .enter t = .next u ∧ u.sess = .entered ∧ u.target.ready = true ∧ u.target.mem = t.target.mem) ∧
  (∀ (j : Instr) (v w : State), j ≠ .enter → j ≠ .resetpulse → v.target.broken = true → v.target.resetSeen = false →
    exec j v = .next w → w.target.broken = true ∧ w.target.resetSeen = false ∧ w.target.live = false) ∧
  (∀ v w : State, v.target.broken = true → exec .resetpulse v = .next w → w.target.broken = true ∧ w.target.live = false)
end

