-- ==== Sys2Proof/Laws/Encoding.lean ====
section
/-! SUPPORT. Bits, packed words and their classification: one lemma per function, cited by everything that sends or reads a word. -/

namespace Sys2Proof.Laws

open Sys2Proof.Machine

/-! ### Bits -/

/-- The bits of a byte in arrival order give the byte back (R65, R155). -/
theorem byteOfBits_bitsMsb : ∀ d : Byte, byteOfBits (bitsMsb d) = d := by decide

theorem bitsMsb_length {n : Nat} (v : BitVec n) : (bitsMsb v).length = n := by simp [bitsMsb]

theorem bitsMsb_byte (d : Byte) : bitsMsb d =
    [d.getMsbD 0, d.getMsbD 1, d.getMsbD 2, d.getMsbD 3, d.getMsbD 4, d.getMsbD 5, d.getMsbD 6, d.getMsbD 7] := rfl

theorem frameData_frame9 (d : Byte) (last : Bool) : frameData (frame9 d last) = d := by
  revert d last; decide

theorem frameLast_frame9 (d : Byte) (last : Bool) : frameLast (frame9 d last) = last := by
  revert d last; decide

theorem frame9_fields (f : Frame9) : frame9 (frameData f) (frameLast f) = f := by
  revert f; decide

/-! ### Packed words (R92) -/

/-- The value of a packed word whose opcode has six bits. -/
theorem pack_toNat {o : Byte} {p : Word32} (ho : o.toNat < 64) (hp : p.toNat < 262144) :
    (pack o p).toNat = p.toNat * 64 + o.toNat := by
  unfold pack
  rw [BitVec.toNat_ofNat, ← Nat.shiftLeft_add_eq_or_of_lt (by simpa using ho), Nat.shiftLeft_eq]
  omega

theorem wordOpcode_toNat (w : Word24) : (wordOpcode w).toNat = w.toNat % 64 := by
  simp [wordOpcode]

theorem wordParam_toNat (w : Word24) : (wordParam w).toNat = w.toNat / 64 := by
  have := w.isLt
  simp only [wordParam, BitVec.extractLsb'_toNat, Nat.shiftRight_eq_div_pow]
  omega

theorem opcodeArg_toNat (o : BitVec 6) : (opcodeArg o).toNat = o.toNat := by
  have := o.isLt
  simp only [opcodeArg, BitVec.toNat_setWidth]
  omega

theorem opcodeArg_lt (o : BitVec 6) : (opcodeArg o).toNat < 64 := by
  rw [opcodeArg_toNat]; exact o.isLt

theorem paramArg_toNat (p : Addr18) : (paramArg p).toNat = p.toNat := by
  have := p.isLt
  simp only [paramArg, BitVec.toNat_setWidth]
  omega

theorem paramArg_lt (p : Addr18) : (paramArg p).toNat < 262144 := by
  rw [paramArg_toNat]; exact p.isLt

/-- `pack(o, p)[5:0] = o` (R92). -/
theorem wordOpcode_pack (o : BitVec 6) {p : Word32} (hp : p.toNat < 262144) : wordOpcode (pack (opcodeArg o) p) = o := by
  apply BitVec.eq_of_toNat_eq
  have := o.isLt
  rw [wordOpcode_toNat, pack_toNat (opcodeArg_lt o) hp, opcodeArg_toNat]
  omega

/-- `pack(o, p)[23:6] = p` (R92). -/
theorem wordParam_pack (o : BitVec 6) {p : Word32} (hp : p.toNat < 262144) :
    wordParam (pack (opcodeArg o) p) = p.setWidth 18 := by
  apply BitVec.eq_of_toNat_eq
  have := o.isLt
  rw [wordParam_toNat, pack_toNat (opcodeArg_lt o) hp, opcodeArg_toNat, BitVec.toNat_setWidth]
  omega

theorem wordOpcode_commandWord (o : BitVec 6) (p : Addr18) : wordOpcode (commandWord o p) = o :=
  wordOpcode_pack o (paramArg_lt p)

theorem wordParam_commandWord (o : BitVec 6) (p : Addr18) : wordParam (commandWord o p) = p := by
  rw [commandWord, wordParam_pack o (paramArg_lt p)]
  apply BitVec.eq_of_toNat_eq
  have := p.isLt
  rw [BitVec.toNat_setWidth, paramArg_toNat]
  omega

/-- A word is the packing of its two fields (R91). -/
theorem commandWord_fields (w : Word24) : commandWord (wordOpcode w) (wordParam w) = w := by
  apply BitVec.eq_of_toNat_eq
  rw [commandWord, pack_toNat (opcodeArg_lt _) (paramArg_lt _), opcodeArg_toNat, paramArg_toNat, wordOpcode_toNat,
    wordParam_toNat]
  omega

theorem setWidth18_toNat {p : Word32} (hp : p.toNat < 262144) : (p.setWidth 18).toNat = p.toNat := by
  rw [BitVec.toNat_setWidth]; omega

theorem configAddress_toNat (c : Config) : (configAddress c).toNat = c.configBase.toNat := by
  have := c.configBase.isLt
  rw [configAddress, BitVec.toNat_setWidth]
  omega

/-! ### Operands of a packet (log 2) -/

/-- Bit `i` of a word read from four bytes, least-significant byte first. -/
theorem word32OfBytes_bit (b0 b1 b2 b3 : Byte) (i : Nat) : (word32OfBytes b0 b1 b2 b3).getLsbD i =
    if i < 8 then b0.getLsbD i else if i - 8 < 8 then b1.getLsbD (i - 8) else
      if i - 8 - 8 < 8 then b2.getLsbD (i - 8 - 8) else b3.getLsbD (i - 8 - 8 - 8) := by
  show BitVec.getLsbD (w := 8 + 8 + 8 + 8) (b3 ++ b2 ++ b1 ++ b0) i = _
  rw [BitVec.getLsbD_append, BitVec.getLsbD_append, BitVec.getLsbD_append]

/-- The four bytes of the word of four bytes. -/
theorem word32Bytes_word32OfBytes (b0 b1 b2 b3 : Byte) : word32Bytes (word32OfBytes b0 b1 b2 b3) = [b0, b1, b2, b3] := by
  have h : ∀ (k : Nat) (b : Byte), (∀ i < 8, (word32OfBytes b0 b1 b2 b3).getLsbD (k + i) = b.getLsbD i) →
      (word32OfBytes b0 b1 b2 b3).extractLsb' k 8 = b := by
    intro k b h
    apply BitVec.eq_of_getLsbD_eq
    intro i hi
    rw [BitVec.getLsbD_extractLsb', h i hi]
    simp [hi]
  simp only [word32Bytes]
  rw [h 0 b0, h 8 b1, h 16 b2, h 24 b3] <;> intro i hi <;> rw [word32OfBytes_bit]
  · rw [if_neg (by omega), if_neg (by omega), if_neg (by omega)]; congr 1; omega
  · rw [if_neg (by omega), if_neg (by omega), if_pos (by omega)]; congr 1; omega
  · rw [if_neg (by omega), if_pos (by omega)]; congr 1; omega
  · rw [if_pos (by omega)]; congr 1; omega

/-- The word of the four bytes of a word. -/
theorem word32OfBytes_word32Bytes (w : Word32) : ∃ b0 b1 b2 b3, word32Bytes w = [b0, b1, b2, b3] ∧
    word32OfBytes b0 b1 b2 b3 = w := by
  refine ⟨_, _, _, _, rfl, ?_⟩
  apply BitVec.eq_of_getLsbD_eq
  intro i hi
  rw [word32OfBytes_bit]
  simp only [BitVec.getLsbD_extractLsb']
  split
  · simp [*]
  split
  · rw [show 8 + (i - 8) = i by omega]; simp [*]
  split
  · rw [show 16 + (i - 8 - 8) = i by omega]; simp [*]
  · rw [show 24 + (i - 8 - 8 - 8) = i by omega]; simp [show i - 8 - 8 - 8 < 8 by omega]

/-- An operand of four bytes is read back. -/
theorem takeWord32_append (w : Word32) (rest : List Byte) : takeWord32 (word32Bytes w ++ rest) = .ok (w, rest) := by
  obtain ⟨b0, b1, b2, b3, h, h'⟩ := word32OfBytes_word32Bytes w
  rw [h]
  simp [takeWord32, h']

/-- A buffer operand is read back. -/
theorem takeBuffer_append {buf : List Byte} (h : lengthFits buf.length = true) (rest : List Byte) :
    takeBuffer (bufferBytes buf ++ rest) = .ok (buf, rest) := by
  simp only [lengthFits, decide_eq_true_eq] at h
  have : (BitVec.ofNat 32 buf.length).toNat = buf.length := by rw [BitVec.toNat_ofNat, Nat.mod_eq_of_lt h]
  simp [takeBuffer, bufferBytes, lengthBytes, List.append_assoc, takeWord32_append, this]

/-- What a four-byte operand was read from. -/
theorem takeWord32_inv {bs : List Byte} {w : Word32} {rest : List Byte} (h : takeWord32 bs = .ok (w, rest)) :
    bs = word32Bytes w ++ rest := by
  unfold takeWord32 at h
  split at h
  · simp only [Except.ok.injEq, Prod.mk.injEq] at h
    obtain ⟨rfl, rfl⟩ := h
    rw [word32Bytes_word32OfBytes]
    rfl
  · cases h

/-- What a buffer operand was read from. -/
theorem takeBuffer_inv {bs buf rest : List Byte} (h : takeBuffer bs = .ok (buf, rest)) : bs = bufferBytes buf ++ rest := by
  unfold takeBuffer at h
  split at h
  · cases h
  · rename_i n r hn
    split at h
    · rename_i hle
      simp only [Except.ok.injEq, Prod.mk.injEq] at h
      obtain ⟨rfl, rfl⟩ := h
      rw [takeWord32_inv hn]
      simp [bufferBytes, lengthBytes, Nat.min_eq_left hle]
    · cases h

/-! ### What valid parameters give -/

/-- The constraints of the parameter table as propositions. -/
theorem valid_iff (c : Config) : c.valid = true ↔
    c.enterWord ≠ c.exitWord ∧ c.exitWord.setWidth 6 ∉ c.opcodes ∧ c.opcodes.Nodup ∧ c.resetLiteral.length ≠ 0 ∧
    c.configBase.toNat + 5 ≤ 262144 ∧ c.maxTier ≤ 15 ∧ c.flashSizeTable.length = c.maxTier + 1 ∧
    (∀ n ∈ c.flashSizeTable, n ≤ c.configBase.toNat) ∧
    (∀ t ∈ [c.tReset, c.tMode, c.tMassErase, c.tPageErase, c.tProgram], c.tRead.total ≤ t.total) ∧
    c.tPageErase.total < c.tMassErase.total ∧ (c.cbsTrueByte = 0xFF ∨ c.cbsTrueByte = 0x7F) ∧
    [c.pinDat, c.pinClk, c.pinRst].Nodup ∧ c.enterWord.setWidth 6 ∉ c.opcodes ∧ c.lockQueryFits = true := by
  simp only [Config.valid, Bool.and_eq_true, bne_iff_ne, Bool.not_eq_true', List.contains_eq_mem, decide_eq_false_iff_not,
    decide_eq_true_eq, List.all_eq_true, beq_iff_eq, Bool.or_eq_true, and_assoc, ne_eq]

/-- The six opcodes are distinct and none is the opcode field of the exit word. -/
theorem valid_opcodes {c : Config} (h : c.valid = true) :
    c.exitWord.setWidth 6 ∉ c.opcodes ∧ c.opcodes.Nodup := ⟨((valid_iff c).1 h).2.1, ((valid_iff c).1 h).2.2.1⟩

theorem wordOpcode_eq_setWidth (w : Word24) : wordOpcode w = w.setWidth 6 := by
  apply BitVec.eq_of_toNat_eq
  rw [wordOpcode_toNat, BitVec.toNat_setWidth]

/-- No opcode is the opcode field of the enter word (log 30). -/
theorem valid_enterWord {c : Config} (h : c.valid = true) : c.enterWord.setWidth 6 ∉ c.opcodes :=
  ((valid_iff c).1 h).2.2.2.2.2.2.2.2.2.2.2.2.1

theorem enter_ne_exit {c : Config} (h : c.valid = true) : c.enterWord ≠ c.exitWord := ((valid_iff c).1 h).1

/-- A packed command is not the enter word. -/
theorem command_ne_enter {c : Config} (h : c.valid = true) {o : BitVec 6} (ho : o ∈ c.opcodes) {p : Word32}
    (hp : p.toNat < 262144) : pack (opcodeArg o) p ≠ c.enterWord := by
  intro he
  apply valid_enterWord h
  rw [← wordOpcode_eq_setWidth, ← he, wordOpcode_pack o hp]
  exact ho

/-- A packed command is not the exit word. -/
theorem command_ne_exit {c : Config} (h : c.valid = true) {o : BitVec 6} (ho : o ∈ c.opcodes) {p : Word32}
    (hp : p.toNat < 262144) : pack (opcodeArg o) p ≠ c.exitWord := by
  intro he
  apply (valid_opcodes h).1
  rw [← wordOpcode_eq_setWidth, ← he, wordOpcode_pack o hp]
  exact ho

/-! ### Classification (R99) -/

theorem classify_exit (c : Config) : classify c c.exitWord = .exit := by simp [classify]

theorem classify_enter {c : Config} (h : c.enterWord ≠ c.exitWord) : classify c c.enterWord = .enter := by
  simp [classify, h]

/-- What a packed command of valid parameters is read as. -/
theorem classify_pack {c : Config} (h : c.valid = true) {p : Word32} (hp : p.toNat < 262144) :
    classify c (pack (opcodeArg c.opReadCid) p) = .readCid (p.setWidth 18) ∧
    classify c (pack (opcodeArg c.opReadDid) p) = .readDid (p.setWidth 18) ∧
    classify c (pack (opcodeArg c.opRead) p) = .read (p.setWidth 18) ∧
    classify c (pack (opcodeArg c.opProgram) p) = .program (p.setWidth 18) ∧
    classify c (pack (opcodeArg c.opPageErase) p) = .pageErase (p.setWidth 18) ∧
    classify c (pack (opcodeArg c.opMassErase) p) = .massErase (p.setWidth 18) := by
  have hn := (valid_opcodes h).2
  have he : ∀ o ∈ c.opcodes, pack (opcodeArg o) p ≠ c.exitWord := fun o ho => command_ne_exit h ho hp
  have hf : ∀ o ∈ c.opcodes, pack (opcodeArg o) p ≠ c.enterWord := fun o ho => command_ne_enter h ho hp
  simp only [Config.opcodes, List.mem_cons, List.not_mem_nil, or_false, forall_eq_or_imp, forall_eq] at he hf
  simp only [Config.opcodes, List.nodup_cons, List.mem_cons, List.not_mem_nil, or_false, not_or] at hn
  obtain ⟨⟨h1, h2, h3, h4, h5⟩, ⟨h6, h7, h8, h9⟩, ⟨h10, h11, h12⟩, ⟨h13, h14⟩, h15, -⟩ := hn
  obtain ⟨e1, e2, e3, e4, e5, e6⟩ := he
  obtain ⟨f1, f2, f3, f4, f5, f6⟩ := hf
  refine ⟨?_, ?_, ?_, ?_, ?_, ?_⟩ <;>
    simp [classify, wordOpcode_pack _ hp, wordParam_pack _ hp, e1, e2, e3, e4, e5, e6, f1, f2, f3, f4, f5, f6, Ne.symm h1, Ne.symm h2, Ne.symm h3,
      Ne.symm h4, Ne.symm h5, Ne.symm h6, Ne.symm h7, Ne.symm h8, Ne.symm h9, Ne.symm h10, Ne.symm h11, Ne.symm h12,
      Ne.symm h13, Ne.symm h14, Ne.symm h15]

/-- A word whose opcode is none of the six and that is no literal word is unassigned (R102). -/
theorem classify_unassigned {c : Config} {w : Word24} (he : w ≠ c.exitWord) (hf : w ≠ c.enterWord) (ho : wordOpcode w ∉ c.opcodes) :
    classify c w = .unassigned := by
  simp only [Config.opcodes, List.mem_cons, List.not_mem_nil, or_false, not_or] at ho
  simp [classify, he, hf, ho]

end Sys2Proof.Laws
end

