-- ==== Sys2Proof/Laws/Memory.lean ====
section
/-! SUPPORT. The laws of the target's memory: reads after writes, erases and fills, and that each keeps the canonical form. -/

namespace Sys2Proof.Laws

open Sys2Proof.Machine

/-! ### Reads -/

@[simp] theorem read_nil (a : Nat) : Memory.read [] a = 0xFF := rfl

theorem read_cons (k : Nat) (b : Byte) (m : Memory) (a : Nat) :
    Memory.read ((k, b) :: m) a = if k = a then b else m.read a := rfl

/-- A memory whose addresses are all above `a` lists nothing at `a`. -/
theorem read_below {m : Memory} : ∀ {lo a : Nat}, Memory.wfAbove (some lo) m = true → a ≤ lo → m.read a = 0xFF := by
  induction m with
  | nil => intros; rfl
  | cons c m ih =>
    obtain ⟨k, b⟩ := c
    intro lo a h ha
    simp only [Memory.wfAbove, Bool.and_eq_true, decide_eq_true_eq] at h
    rw [read_cons, if_neg (by omega)]
    exact ih h.2 (by omega)

theorem wfAbove_weaken {m : Memory} : ∀ {lo lo' : Nat}, Memory.wfAbove (some lo) m = true → lo' ≤ lo →
    Memory.wfAbove (some lo') m = true := by
  cases m with
  | nil => intros; rfl
  | cons c m =>
    obtain ⟨k, b⟩ := c
    intro lo lo' h hl
    simp only [Memory.wfAbove, Bool.and_eq_true, decide_eq_true_eq] at h ⊢
    exact ⟨⟨by omega, h.1.2⟩, h.2⟩

theorem wf_of_wfAbove {m : Memory} {lo : Nat} (h : Memory.wfAbove (some lo) m = true) : m.wf = true := by
  cases m with
  | nil => rfl
  | cons c m =>
    simp only [Memory.wf, Memory.wfAbove, Bool.and_eq_true, decide_eq_true_eq] at h ⊢
    exact ⟨⟨trivial, h.1.2⟩, h.2⟩

theorem read_put {m : Memory} {a : Nat} (b : Byte) (h : m.read a = 0xFF) (x : Nat) :
    (Memory.put a b m).read x = if x = a then b else m.read x := by
  unfold Memory.put
  by_cases hb : b = Memory.unlisted
  · rw [if_pos hb]
    by_cases hx : x = a
    · subst hx; rw [if_pos rfl, h, hb]; rfl
    · rw [if_neg hx]
  · rw [if_neg hb, read_cons]
    by_cases hx : x = a
    · simp [hx]
    · rw [if_neg (fun h => hx h.symm), if_neg hx]

/-- The read of a write, in a memory that is canonical above some bound. -/
theorem read_write_above {m : Memory} (a : Nat) (b : Byte) (x : Nat) : ∀ {lo : Option Nat},
    Memory.wfAbove lo m = true → (m.write a b).read x = if x = a then b else m.read x := by
  induction m with
  | nil => intro lo _; exact read_put b rfl x
  | cons c m ih =>
    obtain ⟨k, c⟩ := c
    intro lo h
    have h2 : Memory.wfAbove (some k) m = true := by
      simp only [Memory.wfAbove, Bool.and_eq_true] at h; exact h.2
    simp only [Memory.write]
    by_cases hk : k < a
    · rw [if_pos hk, read_cons, ih h2, read_cons]
      by_cases hkx : k = x
      · subst hkx; rw [if_pos rfl, if_pos rfl, if_neg (by omega)]
      · rw [if_neg hkx, if_neg hkx]
    · rw [if_neg hk]
      by_cases hka : k = a
      · subst hka
        rw [if_pos rfl, read_put b (read_below h2 (Nat.le_refl _))]
        by_cases hx : x = k
        · rw [if_pos hx, if_pos hx]
        · rw [if_neg hx, if_neg hx, read_cons, if_neg (fun e => hx e.symm)]
      · rw [if_neg hka]
        apply read_put
        rw [read_cons, if_neg hka]
        exact read_below h2 (by omega)

/-- A read after a write: the value at its address, everything else unchanged. -/
theorem read_write {m : Memory} (h : m.wf = true) (a : Nat) (b : Byte) (x : Nat) :
    (m.write a b).read x = if x = a then b else m.read x := read_write_above a b x h

theorem read_write_same {m : Memory} (h : m.wf = true) (a : Nat) (b : Byte) : (m.write a b).read a = b := by
  rw [read_write h, if_pos rfl]

theorem read_write_other {m : Memory} (h : m.wf = true) {a x : Nat} (b : Byte) (hx : x ≠ a) :
    (m.write a b).read x = m.read x := by rw [read_write h, if_neg hx]

theorem inRange_iff {lo n a : Nat} : inRange lo n a = true ↔ lo ≤ a ∧ a < lo + n := by
  simp only [inRange, Bool.and_eq_true, decide_eq_true_eq]

/-- An erased range reads `0xFF`, everything else is unchanged. -/
theorem read_erase (m : Memory) (lo n x : Nat) :
    (m.erase lo n).read x = if inRange lo n x then 0xFF else m.read x := by
  induction m with
  | nil => simp [Memory.erase]
  | cons c m ih =>
    obtain ⟨k, b⟩ := c
    unfold Memory.erase at ih ⊢
    rw [List.filter_cons]
    by_cases hk : inRange lo n k = true
    · rw [if_neg (by simp [hk]), ih, read_cons]
      by_cases hkx : k = x
      · subst hkx; simp [hk]
      · rw [if_neg hkx]
    · rw [if_pos (by simp [hk]), read_cons, ih, read_cons]
      by_cases hkx : k = x
      · subst hkx; simp [hk]
      · rw [if_neg hkx, if_neg hkx]

/-! ### The canonical form is kept -/

theorem wfAbove_put {m : Memory} {a : Nat} (b : Byte) : ∀ {lo : Option Nat}, (∀ l, lo = some l → l < a) →
    Memory.wfAbove (some a) m = true → Memory.wfAbove lo (Memory.put a b m) = true := by
  intro lo hlo h
  unfold Memory.put
  by_cases hb : b = Memory.unlisted
  · rw [if_pos hb]
    cases lo with
    | none => exact wf_of_wfAbove h
    | some l => exact wfAbove_weaken h (by have := hlo l rfl; omega)
  · rw [if_neg hb]
    cases lo with
    | none => simp [Memory.wfAbove, hb, h]
    | some l => simp [Memory.wfAbove, hb, h, hlo l rfl]

theorem wfAbove_write {m : Memory} (a : Nat) (b : Byte) : ∀ {lo : Option Nat}, (∀ l, lo = some l → l < a) →
    Memory.wfAbove lo m = true → Memory.wfAbove lo (m.write a b) = true := by
  induction m with
  | nil => intro lo hlo _; exact wfAbove_put b hlo rfl
  | cons c m ih =>
    obtain ⟨k, c⟩ := c
    intro lo hlo h
    have h2 : Memory.wfAbove (some k) m = true := by
      simp only [Memory.wfAbove, Bool.and_eq_true] at h; exact h.2
    simp only [Memory.write]
    by_cases hk : k < a
    · rw [if_pos hk]
      simp only [Memory.wfAbove, Bool.and_eq_true] at h ⊢
      exact ⟨h.1, ih (by rintro l ⟨rfl⟩; exact hk) h2⟩
    · rw [if_neg hk]
      by_cases hka : k = a
      · subst hka; rw [if_pos rfl]; exact wfAbove_put b hlo h2
      · rw [if_neg hka]
        apply wfAbove_put b hlo
        simp only [Memory.wfAbove, Bool.and_eq_true, decide_eq_true_eq] at h ⊢
        exact ⟨⟨by omega, h.1.2⟩, h2⟩

/-- A write keeps the canonical form. -/
theorem write_keeps_wf {m : Memory} (h : m.wf = true) (a : Nat) (b : Byte) : (m.write a b).wf = true :=
  wfAbove_write a b (by simp) h

/-- A fill keeps the canonical form. -/
theorem fill_keeps_wf (f : Nat → Byte) (lo : Nat) {m : Memory} (h : m.wf = true) (n : Nat) :
    (Memory.fill f lo n m).wf = true := by
  induction n with
  | zero => exact h
  | succ n ih => exact write_keeps_wf ih _ _

theorem wfAbove_filter (p : Host.Cell → Bool) {m : Memory} : ∀ {lo : Option Nat},
    Memory.wfAbove lo m = true → Memory.wfAbove lo (m.filter p) = true := by
  induction m with
  | nil => intros; rfl
  | cons c m ih =>
    obtain ⟨k, b⟩ := c
    intro lo h
    have h2 : Memory.wfAbove (some k) m = true := by
      simp only [Memory.wfAbove, Bool.and_eq_true] at h; exact h.2
    rw [List.filter_cons]
    split
    · simp only [Memory.wfAbove, Bool.and_eq_true] at h ⊢
      exact ⟨h.1, ih h2⟩
    · cases lo with
      | none => exact wf_of_wfAbove (ih h2)
      | some l =>
        simp only [Memory.wfAbove, Bool.and_eq_true, decide_eq_true_eq] at h
        exact wfAbove_weaken (ih h2) (by omega)

/-- An erase keeps the canonical form. -/
theorem erase_keeps_wf {m : Memory} (h : m.wf = true) (lo n : Nat) : (m.erase lo n).wf = true := wfAbove_filter _ h

/-- A filled range reads the function, everything else is unchanged. -/
theorem read_fill (f : Nat → Byte) (lo : Nat) {m : Memory} (h : m.wf = true) (n x : Nat) :
    (Memory.fill f lo n m).read x = if inRange lo n x then f x else m.read x := by
  induction n with
  | zero => rw [if_neg (by simp [inRange])]; rfl
  | succ n ih =>
    simp only [Memory.fill]
    rw [read_write (fill_keeps_wf f lo h n), ih]
    by_cases hx : x = lo + n
    · subst hx; rw [if_pos rfl, if_pos (by simp [inRange])]
    · rw [if_neg hx]
      by_cases hr : inRange lo n x = true
      · rw [if_pos hr, if_pos (by simp [inRange] at hr ⊢; omega)]
      · rw [if_neg hr, if_neg (by simp [inRange] at hr ⊢; omega)]

/-- Two canonical memories above a bound that read alike are the same data. -/
theorem ext_above {m : Memory} : ∀ {m' : Memory} {lo : Option Nat}, Memory.wfAbove lo m = true → Memory.wfAbove lo m' = true →
    (∀ x, m.read x = m'.read x) → m = m' := by
  induction m with
  | nil =>
    intro m' lo _ h' hr
    cases m' with
    | nil => rfl
    | cons c m' =>
      obtain ⟨k, b⟩ := c
      simp only [Memory.wfAbove, Bool.and_eq_true, decide_eq_true_eq] at h'
      have := hr k
      rw [read_cons, if_pos rfl] at this
      exact absurd this.symm h'.1.2
  | cons c m ih =>
    obtain ⟨k, b⟩ := c
    intro m' lo h h' hr
    simp only [Memory.wfAbove, Bool.and_eq_true, decide_eq_true_eq] at h
    cases m' with
    | nil =>
      have := hr k
      rw [read_cons, if_pos rfl] at this
      exact absurd this h.1.2
    | cons c' m' =>
      obtain ⟨k', b'⟩ := c'
      simp only [Memory.wfAbove, Bool.and_eq_true, decide_eq_true_eq] at h'
      have hk : k = k' := by
        rcases Nat.lt_trichotomy k k' with hlt | heq | hgt
        · have := hr k
          rw [read_cons, if_pos rfl, read_cons, if_neg (by omega), read_below h'.2 (by omega)] at this
          exact absurd this h.1.2
        · exact heq
        · have := hr k'
          rw [read_cons, if_neg (by omega), read_below h.2 (by omega), read_cons, if_pos rfl] at this
          exact absurd this.symm h'.1.2
      subst hk
      have hb : b = b' := by have := hr k; rwa [read_cons, if_pos rfl, read_cons, if_pos rfl] at this
      subst hb
      rw [ih h.2 h'.2 (fun x => ?_)]
      by_cases hx : k = x
      · subst hx; rw [read_below h.2 (Nat.le_refl _), read_below h'.2 (Nat.le_refl _)]
      · have := hr x; rwa [read_cons, if_neg hx, read_cons, if_neg hx] at this

/-- Equal memories are equal data. -/
theorem memory_ext {m m' : Memory} (h : m.wf = true) (h' : m'.wf = true) (hr : ∀ x, m.read x = m'.read x) : m = m' :=
  ext_above h h' hr

end Sys2Proof.Laws
end

