-- ==== Sys2Proof/Laws/Target.lean ====
section
/-! SUPPORT. What each frame can do to the target: its constants are never changed, its memory stays canonical, and under the
contract each word, response and payload has exactly the effect of 20_memory.md R71 to R77. -/

namespace Sys2Proof.Laws

open Sys2Proof.Machine

/-! ### Constants and canonical form -/

/-- The target's constants and connection are those of another target (R40). -/
def sameConstants (t t' : Target) : Prop :=
  t'.matched = t.matched ∧ t'.cid = t.cid ∧ t'.did = t.did ∧ t'.page = t.page ∧ t'.flash = t.flash

theorem sameConstants_refl (t : Target) : sameConstants t t := ⟨rfl, rfl, rfl, rfl, rfl⟩

theorem sameConstants_trans {t u v : Target} (h : sameConstants t u) (h' : sameConstants u v) : sameConstants t v := by
  obtain ⟨a, b, c, d, e⟩ := h
  obtain ⟨a', b', c', d', e'⟩ := h'
  exact ⟨a'.trans a, b'.trans b, c'.trans c, d'.trans d, e'.trans e⟩

theorem redrawMem_wf {c : Config} {k : Nat} {t : Target} (h : t.mem.wf = true) : (t.redrawMem c k).wf = true :=
  fill_keeps_wf _ _ (fill_keeps_wf _ _ h _) _

/-- What every frame keeps: the constants, and the canonical form if it held. -/
def keeps (t t' : Target) : Prop := sameConstants t t' ∧ (t.mem.wf = true → t'.mem.wf = true)

theorem keeps_refl (t : Target) : keeps t t := ⟨sameConstants_refl t, id⟩

theorem keeps_trans {t u v : Target} (h : keeps t u) (h' : keeps u v) : keeps t v :=
  ⟨sameConstants_trans h.1 h'.1, fun hw => h'.2 (h.2 hw)⟩

/-- A target with the same constants and the same memory is kept. -/
theorem keeps_of_mem {t t' : Target} (h : sameConstants t t') (hm : t'.mem = t.mem) : keeps t t' := ⟨h, fun hw => hm ▸ hw⟩

theorem outside_keeps (c : Config) (k : Nat) (t : Target) : keeps t (t.outside c k) :=
  ⟨sameConstants_refl t, redrawMem_wf⟩

theorem underLock_keeps (c : Config) (k : Nat) (t : Target) : keeps t (t.underLock c k) :=
  ⟨sameConstants_refl t, redrawMem_wf⟩

theorem onReset_keeps (t : Target) : keeps t t.onReset := keeps_refl t

theorem lockedPayload_keeps (c : Config) (k : Nat) (last : Bool) (t : Target) : keeps t (t.lockedPayload c k last) :=
  underLock_keeps c k t

theorem trailerPulse_keeps (c : Config) (k : Nat) (dat : Level) (t : Target) : keeps t (t.trailerPulse c k dat).1 := by
  unfold Target.trailerPulse
  split
  · exact keeps_refl t
  · exact keeps_refl t
  · exact outside_keeps c k t

theorem delivered_keeps (c : Config) (k : Nat) (t : Target) : keeps t (t.delivered c k).1 := by
  unfold Target.delivered
  split <;> first | exact keeps_refl t | (split <;> exact keeps_refl t)

theorem onPageErase_keeps (c : Config) (k a : Nat) (t : Target) : keeps t (t.onPageErase c k a).1 := by
  unfold Target.onPageErase
  split
  · exact underLock_keeps c k t
  · split
    · exact ⟨sameConstants_refl t, fun h => erase_keeps_wf h _ _⟩
    · exact outside_keeps c k t

theorem onMassErase_keeps (c : Config) (k : Nat) (t : Target) : keeps t (t.onMassErase c k).1 := by
  unfold Target.onMassErase
  split
  · exact underLock_keeps c k t
  · exact ⟨sameConstants_refl t, fun h => fill_keeps_wf _ _ (erase_keeps_wf h _ _) _⟩

theorem onReadCommand_keeps (k a : Nat) (t : Target) : keeps t (t.onReadCommand k a).1 := by
  unfold Target.onReadCommand; split <;> exact keeps_refl t

theorem onProgramCommand_keeps (c : Config) (k a : Nat) (t : Target) : keeps t (t.onProgramCommand c k a).1 := by
  unfold Target.onProgramCommand
  split
  · exact underLock_keeps c k t
  · exact keeps_refl t

theorem onCommand_keeps (c : Config) (k : Nat) (w : Word24) (t : Target) : keeps t (t.onCommand c k w).1 := by
  unfold Target.onCommand
  split
  · exact keeps_refl t
  · exact outside_keeps c k t
  · exact keeps_refl t
  · exact keeps_refl t
  · exact onReadCommand_keeps _ _ t
  · exact onProgramCommand_keeps _ _ _ t
  · exact onPageErase_keeps _ _ _ t
  · exact onMassErase_keeps _ _ t
  · exact outside_keeps c k t

/-- A word changes no constant and keeps the canonical form. -/
theorem onWord_keeps (c : Config) (k : Nat) (w : Word24) (t : Target) : keeps t (t.onWord c k w).1 := by
  unfold Target.onWord
  split
  · exact keeps_refl t
  · split
    · exact onCommand_keeps c k w t
    · exact outside_keeps c k t

/-- A payload frame changes no constant and keeps the canonical form. -/
theorem onPayload_keeps (c : Config) (k : Nat) (d : Byte) (last : Bool) (t : Target) :
    keeps t (t.onPayload c k d last).1 := by
  unfold Target.onPayload
  split
  · split
    · exact lockedPayload_keeps c k last t
    · split
      · exact ⟨sameConstants_refl t, fun h => write_keeps_wf h _ _⟩
      · exact outside_keeps c k t
  · exact lockedPayload_keeps c k last t
  · exact outside_keeps c k t

/-- An answer changes no constant and keeps the canonical form. -/
theorem answer_keeps (c : Config) (k : Nat) (t : Target) : keeps t (t.answer c k).2.1 := by
  unfold Target.answer
  dsimp only
  split
  · exact keeps_refl t
  · exact outside_keeps c k t

theorem dataBit_keeps (c : Config) (k : Nat) (b : Bool) (rest : List Bool) (t : Target) : keeps t (t.dataBit c k b rest).2.1 := by
  unfold Target.dataBit
  split
  · split
    · exact delivered_keeps c k { t with frame := .presenting true [] }
    · exact keeps_refl t
  · exact outside_keeps c (k + 1) t

/-- A sampled pulse changes no constant and keeps the canonical form. -/
theorem present_keeps (c : Config) (k : Nat) (dat : Level) (t : Target) : keeps t (t.present c k dat).2.1 := by
  unfold Target.present
  split
  · exact answer_keeps c k t
  · exact trailerPulse_keeps c _ dat t
  · exact dataBit_keeps c k _ _ t
  · exact outside_keeps c k t

/-- A whole response frame changes no constant and keeps the canonical form. -/
theorem afterFrame_keeps (c : Config) (k : Nat) (last : Bool) (t : Target) : keeps t (t.afterFrame c k last).1 :=
  keeps_trans (u := (({ t with frame := .presenting true [] } : Target).delivered c k).1)
    (delivered_keeps c k { t with frame := .presenting true [] }) (trailerPulse_keeps c _ _ _)

/-- A part of a response frame changes no constant and keeps the canonical form. -/
theorem respondPart_keeps (c : Config) (k : Nat) (d : Byte) (last : Bool) (bits : Nat) (t : Target) :
    keeps t (t.respondPart c k d last bits).1 := by
  unfold Target.respondPart
  split
  · exact outside_keeps c k t
  · split
    · exact keeps_refl t
    · split
      · exact keeps_refl t
      · split
        · exact delivered_keeps c k { t with frame := .presenting true [] }
        · exact afterFrame_keeps c k last t

/-- A response frame changes no constant and keeps the canonical form. -/
theorem respond_keeps (c : Config) (k : Nat) (d : Byte) (last : Bool) (t : Target) :
    keeps t (t.respond c k d last).1 := by
  unfold Target.respond
  split
  · exact afterFrame_keeps c k last t
  · exact outside_keeps c k t

/-- The lock query changes no constant and keeps the canonical form. -/
theorem lockAnswer_keeps (c : Config) (k : Nat) (t : Target) : keeps t (t.lockAnswer c k).2.1 := by
  unfold Target.lockAnswer
  split
  · exact keeps_refl t
  · exact outside_keeps c _ t

/-! ### After a disruption -/

/-- A disruption is remembered and no reset handshake has been seen since: the contract stays off (R70 (d), R320). -/
def Stuck (t : Target) : Prop := t.broken = true ∧ t.resetSeen = false

theorem broken_live {t : Target} (h : t.broken = true) : t.live = false := by simp [Target.live, h]

theorem Stuck.ready {t : Target} (h : Stuck t) : t.ready = false := by simp [Target.ready, broken_live h.1]

theorem Stuck.answering {t : Target} (h : Stuck t) : t.answering = false := by simp [Target.answering, broken_live h.1]

/-- Every frame finds a stuck target outside the contract, and leaves it stuck (R79). -/
theorem Stuck.outside {t : Target} (h : Stuck t) (c : Config) (k : Nat) : Stuck (t.outside c k) := ⟨h.1, rfl⟩

theorem Stuck.onWord {t : Target} (h : Stuck t) (c : Config) (k : Nat) (w : Word24) : Stuck (t.onWord c k w).1 := by
  simp only [Target.onWord, h.2, h.ready, Bool.and_false, Bool.false_and, Bool.false_eq_true, if_false]
  exact h.outside c k

theorem Stuck.onPayload {t : Target} (h : Stuck t) (c : Config) (k : Nat) (d : Byte) (last : Bool) :
    Stuck (t.onPayload c k d last).1 := by
  simp only [Target.onPayload, broken_live h.1, Bool.false_and]
  exact h.outside c k

theorem Stuck.trailerPulse {t : Target} (h : Stuck t) (c : Config) (k : Nat) (dat : Level) :
    Stuck (t.trailerPulse c k dat).1 := by
  simp only [Target.trailerPulse, Target.inResponse, broken_live h.1, Bool.false_and]
  split
  · exact absurd ‹false = true› (by decide)
  · exact absurd ‹false = true› (by decide)
  · exact h.outside c k

theorem Stuck.present {t : Target} (h : Stuck t) (c : Config) (k : Nat) (dat : Level) : Stuck (t.present c k dat).2.1 := by
  unfold Target.present
  split
  · simp only [Target.answer, h.answering]; exact h.outside c k
  · exact h.trailerPulse c _ dat
  · simp only [Target.dataBit, h.answering]; exact h.outside c (k + 1)
  · exact h.outside c k

theorem Stuck.respond {t : Target} (h : Stuck t) (c : Config) (k : Nat) (d : Byte) (last : Bool) :
    Stuck (t.respond c k d last).1 := by
  simp only [Target.respond, Target.mayCarry, h.answering, Bool.false_and]
  exact h.outside c k

theorem Stuck.lockAnswer {t : Target} (h : Stuck t) (c : Config) (k : Nat) : Stuck (t.lockAnswer c k).2.1 := by
  simp only [Target.lockAnswer, h.ready]
  exact h.outside c (k + 1)

/-! ### A ready target -/

/-- What readiness says, field by field (R70). -/
theorem ready_iff (t : Target) : t.ready = true ↔
    t.matched = true ∧ t.mode = .prog ∧ t.resetSeen = false ∧ t.burst = .idle ∧ t.frame = .boundary ∧ t.broken = false := by
  simp only [Target.ready, Target.live, Bool.and_eq_true, beq_iff_eq, Bool.not_eq_true', and_assoc]
  constructor <;> (rintro ⟨a, b, c, d, e, f⟩; exact ⟨a, b, c, by assumption, by assumption, by assumption⟩)

theorem inContract_iff (t : Target) : t.inContract = true ↔
    t.matched = true ∧ t.mode = .prog ∧ t.resetSeen = false ∧ t.burst = .idle ∧ t.frame = .boundary ∧ t.lock = false ∧
      t.broken = false := by
  rw [Target.inContract, Bool.and_eq_true, ready_iff, Bool.not_eq_true']
  constructor
  · rintro ⟨⟨a, b, c, d, e, f⟩, g⟩; exact ⟨a, b, c, d, e, g, f⟩
  · rintro ⟨a, b, c, d, e, g, f⟩; exact ⟨⟨a, b, c, d, e, f⟩, g⟩

/-- A ready target reads every word as a command. -/
theorem onWord_ready {c : Config} {k : Nat} {w : Word24} {t : Target} (h : t.ready = true) :
    t.onWord c k w = t.onCommand c k w := by
  have := (ready_iff t).1 h
  simp [Target.onWord, this.2.2.1, h]

/-- The enter word right after the reset handshake (R71). -/
theorem onWord_enter {c : Config} {k : Nat} {t : Target} (hm : t.matched = true) (hr : t.resetSeen = true) :
    t.onWord c k c.enterWord = ({ t with mode := .prog, resetSeen := false, broken := false }, k) := by
  simp [Target.onWord, hm, hr]

section Commands

variable {c : Config} {k : Nat} {t : Target} (hv : c.valid = true) {p : Word32} (hp : p.toNat < 262144)
include hv hp

/-- The company-id query (R77). -/
theorem onWord_readCid (h : t.ready = true) :
    t.onWord c k (pack (opcodeArg c.opReadCid) p) = ({ t with burst := .answer [t.cid] }, k) := by
  rw [onWord_ready h, Target.onCommand, (classify_pack hv hp).1]

/-- The device-id query (R77). -/
theorem onWord_readDid (h : t.ready = true) :
    t.onWord c k (pack (opcodeArg c.opReadDid) p) = ({ t with burst := .answer (didBytes c t.did) }, k) := by
  rw [onWord_ready h, Target.onCommand, (classify_pack hv hp).2.1]

/-- The read command (R73). -/
theorem onWord_read (h : t.inContract = true) :
    t.onWord c k (pack (opcodeArg c.opRead) p) = ({ t with ptr := p.toNat, burst := .read }, k) := by
  obtain ⟨hr, hl⟩ := Bool.and_eq_true_iff.1 h
  rw [onWord_ready hr, Target.onCommand, (classify_pack hv hp).2.2.1]
  simp only [Target.onReadCommand, setWidth18_toNat hp]
  rw [if_neg (by simpa using hl)]

/-- The program command (R74). -/
theorem onWord_program (h : t.inContract = true) :
    t.onWord c k (pack (opcodeArg c.opProgram) p) = ({ t with ptr := p.toNat, burst := .program }, k) := by
  obtain ⟨hr, hl⟩ := Bool.and_eq_true_iff.1 h
  rw [onWord_ready hr, Target.onCommand, (classify_pack hv hp).2.2.2.1]
  simp only [Target.onProgramCommand, setWidth18_toNat hp]
  rw [if_neg (by simpa using hl)]

/-- The page-erase command (R75). -/
theorem onWord_pageErase (h : t.inContract = true) (ha : t.has c p.toNat = true) :
    t.onWord c k (pack (opcodeArg c.opPageErase) p) =
      ({ t with ptr := p.toNat, mem := t.mem.erase (t.pageOf c p.toNat).1 (t.pageOf c p.toNat).2 }, k) := by
  obtain ⟨hr, hl⟩ := Bool.and_eq_true_iff.1 h
  rw [onWord_ready hr, Target.onCommand, (classify_pack hv hp).2.2.2.2.1]
  simp only [Target.onPageErase, setWidth18_toNat hp]
  rw [if_neg (by simpa using hl), if_pos ha]

/-- The mass-erase command (R76). -/
theorem onWord_massErase (h : t.inContract = true) :
    t.onWord c k (pack (opcodeArg c.opMassErase) p) =
      ({ t with
        lock := Config.drawLock k
        mem := Memory.fill (Config.drawMem k) c.configBase.toNat configLen (t.mem.erase 0 t.flash) }, k + 1) := by
  obtain ⟨hr, hl⟩ := Bool.and_eq_true_iff.1 h
  rw [onWord_ready hr, Target.onCommand, (classify_pack hv hp).2.2.2.2.2]
  simp only [Target.onMassErase]
  rw [if_neg (by simpa using hl)]

end Commands

/-- The exit word (R72). -/
theorem onWord_exit {c : Config} {k : Nat} {t : Target} (h : t.ready = true) :
    t.onWord c k c.exitWord = ({ t with mode := .run }, k) := by
  rw [onWord_ready h, Target.onCommand, classify_exit]

/-! ### Bursts under the contract -/

/-- A read burst is open on an unlocked target in programming mode. -/
structure Reading (t : Target) : Prop where
  live   : t.live = true
  unlock : t.lock = false
  burst  : t.burst = .read
  frame  : t.frame = .boundary

/-- A program burst is open on an unlocked target in programming mode. -/
structure Programming (t : Target) : Prop where
  live   : t.live = true
  unlock : t.lock = false
  burst  : t.burst = .program
  frame  : t.frame = .boundary

theorem Reading.determined {t : Target} (h : Reading t) {c : Config} (ha : t.has c t.ptr = true) : t.determined c = true := by
  simp [Target.determined, h.live, h.burst, h.unlock, ha]

theorem Reading.answering {t : Target} (h : Reading t) : t.answering = true := by
  simp [Target.answering, h.live, h.burst]

/-- One payload byte of a program burst (R74). -/
theorem Programming.payload {t : Target} (h : Programming t) {c : Config} {k : Nat} {d : Byte} {last : Bool}
    (ha : t.has c t.ptr = true) : t.onPayload c k d last = ({ t with
      mem := t.mem.write t.ptr (t.mem.read t.ptr &&& d)
      ptr := if c.writeMode = .burst then t.ptr + 1 else t.ptr
      burst := if last then .idle else .program }, k) := by
  simp [Target.onPayload, h.live, h.burst, h.frame, h.unlock, ha]

/-! ### Response frames -/

theorem delivered_frame (c : Config) (k : Nat) (t : Target) : (t.delivered c k).1.frame = t.frame := by
  unfold Target.delivered
  split <;> first | rfl | (split <;> rfl)

/-- The trailer of an expected frame (R95). -/
theorem trailerPulse_expected {t : Target} (h : t.frame = .presenting true []) (hi : t.inResponse = true) (c : Config) (k : Nat) (last : Bool) :
    t.trailerPulse c k (Level.ofBit last) = ({ t with frame := .boundary, burst := if last then .idle else t.burst }, k) := by
  cases last <;> simp [Target.trailerPulse, Level.ofBit, h, hi]

/-- A whole response frame of a read burst (R73). -/
theorem Reading.afterFrame {t : Target} (h : Reading t) {c : Config} {k : Nat} (ha : t.has c t.ptr = true) (last : Bool) :
    t.afterFrame c k last = ({ t with ptr := t.ptr + 1, burst := if last then .idle else .read }, k) := by
  have hd : ({ t with frame := .presenting true [], burst := .read } : Target).determined c = true := by
    rw [← h.burst]
    exact h.determined ha
  have h1 : ({ t with frame := .presenting true [] } : Target).delivered c k =
      ({ t with frame := .presenting true [], ptr := t.ptr + 1 }, k) := by
    simp only [Target.delivered, h.burst, hd, if_true]
  rw [Target.afterFrame, h1, trailerPulse_expected rfl (by simpa [Target.inResponse, Target.live, h.burst] using h.live)]
  simp [h.burst, ← h.frame]

/-- A whole response frame of an identity query (R77). -/
theorem afterFrame_identity {t : Target} {b : Byte} {bs : List Byte} (hl : t.live = true) (hb : t.burst = .answer (b :: bs))
    (hf : t.frame = .boundary) (c : Config) (k : Nat) (last : Bool) :
    t.afterFrame c k last = ({ t with burst := if last then .idle else .answer bs }, k) := by
  have h1 : ({ t with frame := .presenting true [] } : Target).delivered c k =
      ({ t with frame := .presenting true [], burst := .answer bs }, k) := by simp [Target.delivered, hb]
  rw [Target.afterFrame, h1, trailerPulse_expected rfl (by simpa [Target.inResponse, Target.live] using hl)]
  simp [← hf]

/-- The byte of a read burst is `TMem[TPTR]` (R73). -/
theorem Reading.nextByte {t : Target} (h : Reading t) {c : Config} {k : Nat} (ha : t.has c t.ptr = true) :
    t.nextByte c k = (t.mem.read t.ptr, k) := by
  simp [Target.nextByte, h.determined ha, h.burst]

/-- The next identity byte (R77). -/
theorem nextByte_identity {t : Target} {c : Config} {k : Nat} {b : Byte} {bs : List Byte} (hl : t.live = true)
    (hb : t.burst = .answer (b :: bs)) : t.nextByte c k = (b, k) := by
  have hd : t.determined c = true := by simp [Target.determined, hl, hb]
  simp [Target.nextByte, hd, hb]

theorem answering_identity {t : Target} {b : Byte} {bs : List Byte} (hl : t.live = true)
    (hb : t.burst = .answer (b :: bs)) : t.answering = true := by
  simp [Target.answering, hl, hb]

/-- Every address of a covered range is an address of the target's memory. -/
theorem covers_has {c : Config} {t : Target} {a n : Nat} (h : t.covers c a n) {i : Nat} (hi : i < n) :
    t.has c (a + i) = true := by
  simp only [Target.has, inRange, configLen, Bool.or_eq_true, Bool.and_eq_true, decide_eq_true_eq]
  rcases h with h | h
  · left; omega
  · right; exact ⟨by omega, decide_eq_true (by omega)⟩

end Sys2Proof.Laws
end

