-- ==== Sys2Proof/Laws/Admission.lean ====
section
/-! SUPPORT. What the admission checks say, as propositions (60_exceptions.md R283 to R289). -/

namespace Sys2Proof.Laws

open Sys2Proof.Machine

theorem encodable_iff {a n : Nat} : encodable a n = true ↔ a < 262144 ∧ a + n ≤ 262144 := by
  unfold encodable addressSpace
  rw [Bool.and_eq_true, decide_eq_true_iff, decide_eq_true_iff]

theorem inFlash_iff {c : Config} {did : DeviceId} {a n : Nat} : inFlash c did a n = true ↔ a + n ≤ flashSizeOf c did := by
  unfold inFlash
  rw [decide_eq_true_iff]

theorem inConfig_iff {c : Config} {a n : Nat} :
    inConfig c a n = true ↔ c.configBase.toNat ≤ a ∧ a + n ≤ c.configBase.toNat + 5 := by
  unfold inConfig configLen
  rw [Bool.and_eq_true, decide_eq_true_iff, decide_eq_true_iff]

/-- `admission` lets a request through exactly when it is admissible (R286). -/
theorem admission_eq_none {a n : Nat} {s : State} : admission a n s = none ↔ Admissible a n s := by
  have he : (!encodable a n) = true ↔ ¬ (a < 262144 ∧ a + n ≤ 262144) := by
    rw [← encodable_iff]; cases encodable a n <;> simp
  have hr : (!(inFlash s.cfg s.did a n || inConfig s.cfg a n)) = true ↔ ¬ (a + n ≤ flashSizeOf s.cfg s.did ∨
      s.cfg.configBase.toNat ≤ a ∧ a + n ≤ s.cfg.configBase.toNat + 5) := by
    rw [← inFlash_iff, ← inConfig_iff]; cases inFlash s.cfg s.did a n <;> cases inConfig s.cfg a n <;> simp
  unfold admission
  constructor
  · intro h
    split at h; · cases h
    split at h; · cases h
    split at h; · cases h
    split at h; · cases h
    rename_i h1 h2 h3 h4
    rw [he, not_not] at h3
    rw [hr, not_not] at h4
    exact ⟨not_not.1 h1, Nat.pos_of_ne_zero h2, h3.1, h3.2, h4⟩
  · intro h
    rw [if_neg (not_not.2 h.entered), if_neg (Nat.ne_of_gt h.nonempty), if_neg (by rw [he]; exact not_not.2 ⟨h.address, h.fits⟩),
      if_neg (by rw [hr]; exact not_not.2 h.region)]

/-- `CONFIG_BASE + 5` fits the address space (the parameter table). -/
theorem configBase_fits {c : Config} (hv : c.valid = true) : c.configBase.toNat + 5 ≤ 262144 := by
  simp only [Config.valid, Bool.and_eq_true, decide_eq_true_eq] at hv
  omega

/-- Inside a session and with valid parameters, a request inside the Config region is admitted (R287). -/
theorem admission_config {s : State} (hv : s.cfg.valid = true) (h : s.sess = .entered) {n : Nat} (h0 : 0 < n) (hn : n ≤ 5) :
    admission s.cfg.configBase.toNat n s = none := by
  have := configBase_fits hv
  exact admission_eq_none.2 ⟨h, h0, by omega, by omega, .inr ⟨Nat.le_refl _, by omega⟩⟩

/-- A Config buffer of five bytes is admitted inside a session (R230). -/
theorem admitConfigBuffer_eq_none {s : State} (hv : s.cfg.valid = true) (h : s.sess = .entered) {buf : List Byte}
    (hn : buf.length = 5) : admitConfigBuffer buf s = none := by
  have hl : buf.length = configLen := hn
  rw [admitConfigBuffer, if_neg (not_not.2 h), if_neg (not_not.2 hl)]
  exact admission_config hv h (by decide) (by decide)

theorem admitSession_eq_some {s : State} {why : Refusal} :
    admitSession s = some why ↔ why = .notEntered ∧ s.sess = .disconnected := by
  unfold admitSession; cases s.sess <;> simp [eq_comm]

theorem admitIdentity_eq_some {s : State} {why : Refusal} :
    admitIdentity s = some why ↔ why = .identityUnknown ∧ s.idValid = false := by
  unfold admitIdentity; cases s.idValid <;> simp [eq_comm]

end Sys2Proof.Laws
end

