-- ==== Sys2Proof/Laws/Flags.lean ====
section
/-! SUPPORT. What COMPARE's loop computes (43_compare.md R210 to R212): each flag is the OR over the pairs. -/

namespace Sys2Proof.Laws

open Sys2Proof.Machine

/-- The loop from any flag set: every flag is OR-ed with its pairs. -/
theorem compareFrom_eq (cur : List Byte) : ∀ (buf : List Byte) (r : CompareResult), compareFrom r cur buf =
    ⟨r.ne || (cur.zip buf).any (fun p => neOf p.1 p.2), r.gt || (cur.zip buf).any (fun p => gtOf p.1 p.2),
      r.nemp || (cur.zip buf).any (fun p => nempOf p.2)⟩ := by
  induction cur with
  | nil => intro buf r; simp [compareFrom]
  | cons c cur ih =>
    intro buf r
    cases buf with
    | nil => simp [compareFrom]
    | cons d buf => simp [compareFrom, ih, accumulate, Bool.or_assoc]

theorem compareBytes_eq (cur buf : List Byte) : compareBytes cur buf =
    ⟨(cur.zip buf).any (fun p => neOf p.1 p.2), (cur.zip buf).any (fun p => gtOf p.1 p.2),
      (cur.zip buf).any (fun p => nempOf p.2)⟩ := by
  rw [compareBytes, compareFrom_eq]
  rfl

/-- GREATER implies NOT_EQUAL on a pair. -/
theorem neOf_of_gtOf {c d : Byte} (h : gtOf c d = true) : neOf c d = true := by
  simp only [gtOf, neOf, bne_iff_ne] at *
  rintro rfl
  exact h (BitVec.and_self)

/-- An OR over pairs of equal length, by index. -/
theorem zip_any_iff {f : Byte × Byte → Bool} : ∀ {cur buf : List Byte}, cur.length = buf.length →
    ((cur.zip buf).any f = true ↔ ∃ i < buf.length, f (cur.getD i 0, buf.getD i 0) = true) := by
  intro cur buf
  induction buf generalizing cur with
  | nil => intro hl; cases cur <;> simp at *
  | cons d buf ih =>
    intro hl
    cases cur with
    | nil => simp at hl
    | cons x cur =>
      simp only [List.zip_cons_cons, List.any_cons, Bool.or_eq_true, ih (by simpa using hl), List.length_cons]
      constructor
      · rintro (h | ⟨i, hi, h⟩)
        · exact ⟨0, by omega, h⟩
        · exact ⟨i + 1, by omega, h⟩
      · rintro ⟨i, hi, h⟩
        cases i with
        | zero => exact .inl h
        | succ i => exact .inr ⟨i, by omega, h⟩

/-- Two ranges of equal length have no NOT_EQUAL exactly when they are equal. -/
theorem compareBytes_ne_iff : ∀ {cur buf : List Byte}, cur.length = buf.length →
    ((compareBytes cur buf).ne = true ↔ cur ≠ buf) := by
  intro cur buf hl
  rw [compareBytes_eq]
  dsimp only
  induction buf generalizing cur with
  | nil => cases cur <;> simp at *
  | cons d buf ih =>
    cases cur with
    | nil => simp at hl
    | cons x cur =>
      rw [List.zip_cons_cons, List.any_cons, Bool.or_eq_true, ih (by simpa using hl)]
      simp only [neOf, bne_iff_ne, ne_eq, List.cons.injEq]
      tauto

end Sys2Proof.Laws
end

