-- ==== Sys2Proof/Laws/Operands.lean ====
section
/-! SUPPORT. The addresses FLASH_ERASE passes to ERASE (R236) and the number of increments of a capped operation (R163). -/

namespace Sys2Proof.Laws

open Sys2Proof.Machine

theorem sliceFrom_length (profile : Profile) (wanted : Nat → Profile) (count : Nat) : ∀ k budget,
    (sliceFrom profile wanted count k budget).length = count := by
  induction count with
  | zero => intros; rfl
  | succ count ih => intros; simp only [sliceFrom, List.length_cons, ih]

theorem slicesOf_length (c : Config) (cls : CapClass) (n count : Nat) : (slicesOf c cls n count).length = count :=
  sliceFrom_length _ _ _ _ _

theorem pageSizeOf_pos (did : DeviceId) : 0 < pageSizeOf did := by unfold pageSizeOf; split <;> omega

/-- The page bases of the loop: each one page after the last, all below the end of the range. -/
theorem pageSteps_get {p stop : Nat} : ∀ fuel e j x, (pageSteps p stop fuel e)[j]? = some x → x = e + j * p ∧ x < stop := by
  intro fuel
  induction fuel with
  | zero => intro e j x h; simp [pageSteps] at h
  | succ fuel ih =>
    intro e j x h
    simp only [pageSteps] at h
    split at h
    · rename_i hlt
      cases j with
      | zero =>
        obtain rfl : e = x := by simpa using h
        exact ⟨by simp, hlt⟩
      | succ j =>
        obtain ⟨hx, hs⟩ := ih _ _ _ (by simpa using h)
        exact ⟨by rw [hx, Nat.succ_mul]; omega, hs⟩
    · simp at h

/-- With fuel enough, the loop takes as many steps as there are page bases before the end. -/
theorem pageSteps_length {p stop : Nat} (hp : 0 < p) : ∀ fuel e, stop ≤ e + fuel * p →
    (pageSteps p stop fuel e).length = (stop - e + p - 1) / p := by
  intro fuel
  induction fuel with
  | zero => intro e h; simp only [pageSteps, List.length_nil]; rw [Nat.div_eq_of_lt]; omega
  | succ fuel ih =>
    intro e h
    simp only [pageSteps]
    split
    · rename_i hlt
      rw [List.length_cons, ih _ (by rw [Nat.add_mul] at h; omega)]
      by_cases hh : e + p ≤ stop
      · rw [show stop - e + p - 1 = (stop - (e + p) + p - 1) + p by omega, Nat.add_div_right _ hp]
      · rw [show stop - (e + p) = 0 by omega, Nat.div_eq_of_lt (by omega : 0 + p - 1 < p),
          show stop - e + p - 1 = (stop - e - 1) + p by omega, Nat.add_div_right _ hp, Nat.div_eq_of_lt (by omega)]
    · rw [show stop - e = 0 by omega, Nat.div_eq_of_lt (by omega)]
      rfl

/-- The number of pages a range touches (R236). -/
theorem eraseAddresses_length {p a n : Nat} (hp : 0 < p) (hn : 0 < n) :
    (eraseAddresses p a n).length = (a + n - 1) / p - a / p + 1 := by
  have hm := Nat.div_add_mod a p
  have hml := Nat.mod_lt a hp
  have hnp : n ≤ n * p := Nat.le_mul_of_pos_right n hp
  rw [eraseAddresses, List.length_cons, pageSteps_length hp _ _ (by simp only [pageBase]; omega)]
  congr 1
  simp only [pageBase]
  generalize hq : a / p = q at *
  rw [show a - a % p = p * q by omega]
  have hd : (a + n - 1) / p = q + (a + n - 1 - p * q) / p := by
    conv_lhs => rw [show a + n - 1 = (a + n - 1 - p * q) + p * q by omega, Nat.add_mul_div_left _ _ hp]
    exact Nat.add_comm _ _
  rw [hd, Nat.add_sub_cancel_left]
  by_cases h : p * q + p ≤ a + n
  · congr 1; omega
  · rw [Nat.div_eq_of_lt, Nat.div_eq_of_lt] <;> omega

/-- Every address after the first is the base of the next page, inside the range (R236). -/
theorem eraseAddresses_get {p a n j x : Nat} (h : (eraseAddresses p a n)[j + 1]? = some x) :
    x = (a / p + j + 1) * p ∧ x < a + n := by
  simp only [eraseAddresses, List.getElem?_cons_succ] at h
  obtain ⟨e, l⟩ := pageSteps_get _ _ _ _ h
  refine ⟨?_, l⟩
  have hm := Nat.div_add_mod a p
  rw [e, pageBase, show a - a % p = p * (a / p) by omega, Nat.add_mul, Nat.add_mul, Nat.mul_comm p, Nat.one_mul]
  omega

/-- Every address lies in the range (R236). -/
theorem eraseAddresses_mem {p a n x : Nat} (hp : 0 < p) (hn : 0 < n) (h : x ∈ eraseAddresses p a n) : a ≤ x ∧ x < a + n := by
  obtain ⟨j, hj⟩ := List.mem_iff_getElem?.1 h
  cases j with
  | zero =>
    obtain rfl : a = x := by simpa [eraseAddresses] using hj
    omega
  | succ j =>
    obtain ⟨e, l⟩ := eraseAddresses_get hj
    have h1 := Nat.lt_div_mul_add (a := a) hp
    have h2 : (a / p + 1) * p ≤ (a / p + j + 1) * p := Nat.mul_le_mul_right _ (by omega)
    rw [Nat.add_mul] at h2
    exact ⟨by omega, l⟩

end Sys2Proof.Laws
end

