-- ==== Sys2Proof/Laws/State.lean ====
section
/-! SUPPORT. One lemma per field for each shared update of State, true by unfolding, and the inversion of the answer forms. -/

namespace Sys2Proof.Laws

open Sys2Proof.Machine

@[simp] theorem emitPins_cfg (evs : List PinEvent) (s : State) : (emitPins evs s).cfg = s.cfg := rfl
@[simp] theorem emitPins_sess (evs : List PinEvent) (s : State) : (emitPins evs s).sess = s.sess := rfl
@[simp] theorem emitPins_cid (evs : List PinEvent) (s : State) : (emitPins evs s).cid = s.cid := rfl
@[simp] theorem emitPins_did (evs : List PinEvent) (s : State) : (emitPins evs s).did = s.did := rfl
@[simp] theorem emitPins_idValid (evs : List PinEvent) (s : State) : (emitPins evs s).idValid = s.idValid := rfl
@[simp] theorem emitPins_cmp (evs : List PinEvent) (s : State) : (emitPins evs s).cmp = s.cmp := rfl
@[simp] theorem emitPins_txsr (evs : List PinEvent) (s : State) : (emitPins evs s).txsr = s.txsr := rfl
@[simp] theorem emitPins_rxsr (evs : List PinEvent) (s : State) : (emitPins evs s).rxsr = s.rxsr := rfl
@[simp] theorem emitPins_bitcnt (evs : List PinEvent) (s : State) : (emitPins evs s).bitcnt = s.bitcnt := rfl
@[simp] theorem emitPins_addr (evs : List PinEvent) (s : State) : (emitPins evs s).addr = s.addr := rfl
@[simp] theorem emitPins_rem (evs : List PinEvent) (s : State) : (emitPins evs s).rem = s.rem := rfl
@[simp] theorem emitPins_seq (evs : List PinEvent) (s : State) : (emitPins evs s).seq = s.seq := rfl
@[simp] theorem emitPins_lines (evs : List PinEvent) (s : State) : (emitPins evs s).lines = s.lines.afterAll evs := rfl
@[simp] theorem emitPins_wire (evs : List PinEvent) (s : State) : (emitPins evs s).wire = s.wire := rfl
@[simp] theorem emitPins_pins (evs : List PinEvent) (s : State) : (emitPins evs s).pins = s.pins ++ evs := rfl
@[simp] theorem emitPins_result (evs : List PinEvent) (s : State) : (emitPins evs s).result = s.result := rfl
@[simp] theorem emitPins_port (evs : List PinEvent) (s : State) : (emitPins evs s).port = s.port := rfl
@[simp] theorem emitPins_disrupt (evs : List PinEvent) (s : State) : (emitPins evs s).disrupt = s.disrupt := rfl
@[simp] theorem emitPins_draws (evs : List PinEvent) (s : State) : (emitPins evs s).draws = s.draws := rfl
@[simp] theorem emitPins_target (evs : List PinEvent) (s : State) : (emitPins evs s).target = s.target := rfl

@[simp] theorem emit_cfg (e : WireEvent) (s : State) : (emit e s).cfg = s.cfg := rfl
@[simp] theorem emit_sess (e : WireEvent) (s : State) : (emit e s).sess = s.sess := rfl
@[simp] theorem emit_cid (e : WireEvent) (s : State) : (emit e s).cid = s.cid := rfl
@[simp] theorem emit_did (e : WireEvent) (s : State) : (emit e s).did = s.did := rfl
@[simp] theorem emit_idValid (e : WireEvent) (s : State) : (emit e s).idValid = s.idValid := rfl
@[simp] theorem emit_cmp (e : WireEvent) (s : State) : (emit e s).cmp = s.cmp := rfl
@[simp] theorem emit_txsr (e : WireEvent) (s : State) : (emit e s).txsr = s.txsr := rfl
@[simp] theorem emit_rxsr (e : WireEvent) (s : State) : (emit e s).rxsr = s.rxsr := rfl
@[simp] theorem emit_bitcnt (e : WireEvent) (s : State) : (emit e s).bitcnt = s.bitcnt := rfl
@[simp] theorem emit_addr (e : WireEvent) (s : State) : (emit e s).addr = s.addr := rfl
@[simp] theorem emit_rem (e : WireEvent) (s : State) : (emit e s).rem = s.rem := rfl
@[simp] theorem emit_seq (e : WireEvent) (s : State) : (emit e s).seq = s.seq := rfl
@[simp] theorem emit_lines (e : WireEvent) (s : State) : (emit e s).lines = s.lines.afterAll e.pins := rfl
@[simp] theorem emit_wire (e : WireEvent) (s : State) : (emit e s).wire = s.wire ++ [e] := rfl
@[simp] theorem emit_pins (e : WireEvent) (s : State) : (emit e s).pins = s.pins ++ e.pins := rfl
@[simp] theorem emit_result (e : WireEvent) (s : State) : (emit e s).result = s.result := rfl
@[simp] theorem emit_port (e : WireEvent) (s : State) : (emit e s).port = s.port := rfl
@[simp] theorem emit_disrupt (e : WireEvent) (s : State) : (emit e s).disrupt = s.disrupt := rfl
@[simp] theorem emit_draws (e : WireEvent) (s : State) : (emit e s).draws = s.draws := rfl
@[simp] theorem emit_target (e : WireEvent) (s : State) : (emit e s).target = s.target := rfl

@[simp] theorem withTarget_cfg (s : State) (r : Target × Nat) : (s.withTarget r).cfg = s.cfg := rfl
@[simp] theorem withTarget_sess (s : State) (r : Target × Nat) : (s.withTarget r).sess = s.sess := rfl
@[simp] theorem withTarget_cid (s : State) (r : Target × Nat) : (s.withTarget r).cid = s.cid := rfl
@[simp] theorem withTarget_did (s : State) (r : Target × Nat) : (s.withTarget r).did = s.did := rfl
@[simp] theorem withTarget_idValid (s : State) (r : Target × Nat) : (s.withTarget r).idValid = s.idValid := rfl
@[simp] theorem withTarget_cmp (s : State) (r : Target × Nat) : (s.withTarget r).cmp = s.cmp := rfl
@[simp] theorem withTarget_txsr (s : State) (r : Target × Nat) : (s.withTarget r).txsr = s.txsr := rfl
@[simp] theorem withTarget_rxsr (s : State) (r : Target × Nat) : (s.withTarget r).rxsr = s.rxsr := rfl
@[simp] theorem withTarget_bitcnt (s : State) (r : Target × Nat) : (s.withTarget r).bitcnt = s.bitcnt := rfl
@[simp] theorem withTarget_addr (s : State) (r : Target × Nat) : (s.withTarget r).addr = s.addr := rfl
@[simp] theorem withTarget_rem (s : State) (r : Target × Nat) : (s.withTarget r).rem = s.rem := rfl
@[simp] theorem withTarget_seq (s : State) (r : Target × Nat) : (s.withTarget r).seq = s.seq := rfl
@[simp] theorem withTarget_lines (s : State) (r : Target × Nat) : (s.withTarget r).lines = s.lines := rfl
@[simp] theorem withTarget_wire (s : State) (r : Target × Nat) : (s.withTarget r).wire = s.wire := rfl
@[simp] theorem withTarget_pins (s : State) (r : Target × Nat) : (s.withTarget r).pins = s.pins := rfl
@[simp] theorem withTarget_result (s : State) (r : Target × Nat) : (s.withTarget r).result = s.result := rfl
@[simp] theorem withTarget_port (s : State) (r : Target × Nat) : (s.withTarget r).port = s.port := rfl
@[simp] theorem withTarget_disrupt (s : State) (r : Target × Nat) : (s.withTarget r).disrupt = s.disrupt := rfl
@[simp] theorem withTarget_draws (s : State) (r : Target × Nat) : (s.withTarget r).draws = r.2 := rfl
@[simp] theorem withTarget_target (s : State) (r : Target × Nat) : (s.withTarget r).target = r.1 := rfl

@[simp] theorem received_cfg (d : Byte) (last : Bool) (t : Profile) (s : State) : (received d last t s).cfg = s.cfg := rfl
@[simp] theorem received_sess (d : Byte) (last : Bool) (t : Profile) (s : State) : (received d last t s).sess = s.sess := rfl
@[simp] theorem received_cid (d : Byte) (last : Bool) (t : Profile) (s : State) : (received d last t s).cid = s.cid := rfl
@[simp] theorem received_did (d : Byte) (last : Bool) (t : Profile) (s : State) : (received d last t s).did = s.did := rfl
@[simp] theorem received_idValid (d : Byte) (last : Bool) (t : Profile) (s : State) : (received d last t s).idValid = s.idValid := rfl
@[simp] theorem received_cmp (d : Byte) (last : Bool) (t : Profile) (s : State) : (received d last t s).cmp = s.cmp := rfl
@[simp] theorem received_txsr (d : Byte) (last : Bool) (t : Profile) (s : State) : (received d last t s).txsr = s.txsr := rfl
@[simp] theorem received_rxsr (d : Byte) (last : Bool) (t : Profile) (s : State) : (received d last t s).rxsr = frame9 d false := rfl
@[simp] theorem received_bitcnt (d : Byte) (last : Bool) (t : Profile) (s : State) : (received d last t s).bitcnt = 0 := rfl
@[simp] theorem received_addr (d : Byte) (last : Bool) (t : Profile) (s : State) : (received d last t s).addr = s.addr := rfl
@[simp] theorem received_rem (d : Byte) (last : Bool) (t : Profile) (s : State) : (received d last t s).rem = s.rem := rfl
@[simp] theorem received_seq (d : Byte) (last : Bool) (t : Profile) (s : State) : (received d last t s).seq = s.seq := rfl
@[simp] theorem received_lines (d : Byte) (last : Bool) (t : Profile) (s : State) : (received d last t s).lines = s.lines.afterAll (WireEvent.rx9 d last t).pins := rfl
@[simp] theorem received_wire (d : Byte) (last : Bool) (t : Profile) (s : State) : (received d last t s).wire = s.wire ++ [.rx9 d last t] := rfl
@[simp] theorem received_pins (d : Byte) (last : Bool) (t : Profile) (s : State) : (received d last t s).pins = s.pins ++ (WireEvent.rx9 d last t).pins := rfl
@[simp] theorem received_result (d : Byte) (last : Bool) (t : Profile) (s : State) : (received d last t s).result = s.result := rfl
@[simp] theorem received_port (d : Byte) (last : Bool) (t : Profile) (s : State) : (received d last t s).port = s.port := rfl
@[simp] theorem received_disrupt (d : Byte) (last : Bool) (t : Profile) (s : State) : (received d last t s).disrupt = s.disrupt := rfl
@[simp] theorem received_draws (d : Byte) (last : Bool) (t : Profile) (s : State) : (received d last t s).draws = s.draws := rfl
@[simp] theorem received_target (d : Byte) (last : Bool) (t : Profile) (s : State) : (received d last t s).target = s.target := rfl

@[simp] theorem write24_cfg (w : Word24) (t : Profile) (s : State) : (write24 w t s).cfg = s.cfg := rfl
@[simp] theorem write24_sess (w : Word24) (t : Profile) (s : State) : (write24 w t s).sess = s.sess := rfl
@[simp] theorem write24_cid (w : Word24) (t : Profile) (s : State) : (write24 w t s).cid = s.cid := rfl
@[simp] theorem write24_did (w : Word24) (t : Profile) (s : State) : (write24 w t s).did = s.did := rfl
@[simp] theorem write24_idValid (w : Word24) (t : Profile) (s : State) : (write24 w t s).idValid = s.idValid := rfl
@[simp] theorem write24_cmp (w : Word24) (t : Profile) (s : State) : (write24 w t s).cmp = s.cmp := rfl
@[simp] theorem write24_txsr (w : Word24) (t : Profile) (s : State) : (write24 w t s).txsr = w := rfl
@[simp] theorem write24_rxsr (w : Word24) (t : Profile) (s : State) : (write24 w t s).rxsr = s.rxsr := rfl
@[simp] theorem write24_bitcnt (w : Word24) (t : Profile) (s : State) : (write24 w t s).bitcnt = 0 := rfl
@[simp] theorem write24_addr (w : Word24) (t : Profile) (s : State) : (write24 w t s).addr = s.addr := rfl
@[simp] theorem write24_rem (w : Word24) (t : Profile) (s : State) : (write24 w t s).rem = s.rem := rfl
@[simp] theorem write24_seq (w : Word24) (t : Profile) (s : State) : (write24 w t s).seq = s.seq := rfl
@[simp] theorem write24_lines (w : Word24) (t : Profile) (s : State) : (write24 w t s).lines = s.lines.afterAll (WireEvent.tx24 w t).pins := by
  rw [write24, emit_lines]; rfl
@[simp] theorem write24_wire (w : Word24) (t : Profile) (s : State) : (write24 w t s).wire = s.wire ++ [.tx24 w t] := rfl
@[simp] theorem write24_pins (w : Word24) (t : Profile) (s : State) : (write24 w t s).pins = s.pins ++ (WireEvent.tx24 w t).pins := rfl
@[simp] theorem write24_result (w : Word24) (t : Profile) (s : State) : (write24 w t s).result = s.result := rfl
@[simp] theorem write24_port (w : Word24) (t : Profile) (s : State) : (write24 w t s).port = s.port := rfl
@[simp] theorem write24_disrupt (w : Word24) (t : Profile) (s : State) : (write24 w t s).disrupt = s.disrupt := rfl
@[simp] theorem write24_draws (w : Word24) (t : Profile) (s : State) : (write24 w t s).draws = (s.target.onWord s.cfg s.draws w).2 := rfl
@[simp] theorem write24_target (w : Word24) (t : Profile) (s : State) : (write24 w t s).target = (s.target.onWord s.cfg s.draws w).1 := rfl

@[simp] theorem write9_cfg (d : Byte) (last : Bool) (tb tt : Profile) (s : State) : (write9 d last tb tt s).cfg = s.cfg := rfl
@[simp] theorem write9_sess (d : Byte) (last : Bool) (tb tt : Profile) (s : State) : (write9 d last tb tt s).sess = s.sess := rfl
@[simp] theorem write9_cid (d : Byte) (last : Bool) (tb tt : Profile) (s : State) : (write9 d last tb tt s).cid = s.cid := rfl
@[simp] theorem write9_did (d : Byte) (last : Bool) (tb tt : Profile) (s : State) : (write9 d last tb tt s).did = s.did := rfl
@[simp] theorem write9_idValid (d : Byte) (last : Bool) (tb tt : Profile) (s : State) : (write9 d last tb tt s).idValid = s.idValid := rfl
@[simp] theorem write9_cmp (d : Byte) (last : Bool) (tb tt : Profile) (s : State) : (write9 d last tb tt s).cmp = s.cmp := rfl
@[simp] theorem write9_txsr (d : Byte) (last : Bool) (tb tt : Profile) (s : State) : (write9 d last tb tt s).txsr = s.txsr := rfl
@[simp] theorem write9_rxsr (d : Byte) (last : Bool) (tb tt : Profile) (s : State) : (write9 d last tb tt s).rxsr = s.rxsr := rfl
@[simp] theorem write9_bitcnt (d : Byte) (last : Bool) (tb tt : Profile) (s : State) : (write9 d last tb tt s).bitcnt = 0 := rfl
@[simp] theorem write9_addr (d : Byte) (last : Bool) (tb tt : Profile) (s : State) : (write9 d last tb tt s).addr = s.addr := rfl
@[simp] theorem write9_rem (d : Byte) (last : Bool) (tb tt : Profile) (s : State) : (write9 d last tb tt s).rem = s.rem := rfl
@[simp] theorem write9_seq (d : Byte) (last : Bool) (tb tt : Profile) (s : State) : (write9 d last tb tt s).seq = s.seq := rfl
@[simp] theorem write9_lines (d : Byte) (last : Bool) (tb tt : Profile) (s : State) : (write9 d last tb tt s).lines = s.lines.afterAll (WireEvent.tx9 d last tb tt).pins := rfl
@[simp] theorem write9_wire (d : Byte) (last : Bool) (tb tt : Profile) (s : State) : (write9 d last tb tt s).wire = s.wire ++ [.tx9 d last tb tt] := rfl
@[simp] theorem write9_pins (d : Byte) (last : Bool) (tb tt : Profile) (s : State) : (write9 d last tb tt s).pins = s.pins ++ (WireEvent.tx9 d last tb tt).pins := rfl
@[simp] theorem write9_result (d : Byte) (last : Bool) (tb tt : Profile) (s : State) : (write9 d last tb tt s).result = s.result := rfl
@[simp] theorem write9_port (d : Byte) (last : Bool) (tb tt : Profile) (s : State) : (write9 d last tb tt s).port = s.port := rfl
@[simp] theorem write9_disrupt (d : Byte) (last : Bool) (tb tt : Profile) (s : State) : (write9 d last tb tt s).disrupt = s.disrupt := rfl
@[simp] theorem write9_draws (d : Byte) (last : Bool) (tb tt : Profile) (s : State) : (write9 d last tb tt s).draws = (s.target.onPayload s.cfg s.draws d last).2 := rfl
@[simp] theorem write9_target (d : Byte) (last : Bool) (tb tt : Profile) (s : State) : (write9 d last tb tt s).target = (s.target.onPayload s.cfg s.draws d last).1 := rfl

@[simp] theorem resetPulse_cfg (s : State) : (resetPulse s).cfg = s.cfg := rfl
@[simp] theorem resetPulse_sess (s : State) : (resetPulse s).sess = s.sess := rfl
@[simp] theorem resetPulse_cid (s : State) : (resetPulse s).cid = s.cid := rfl
@[simp] theorem resetPulse_did (s : State) : (resetPulse s).did = s.did := rfl
@[simp] theorem resetPulse_idValid (s : State) : (resetPulse s).idValid = s.idValid := rfl
@[simp] theorem resetPulse_cmp (s : State) : (resetPulse s).cmp = s.cmp := rfl
@[simp] theorem resetPulse_txsr (s : State) : (resetPulse s).txsr = s.txsr := rfl
@[simp] theorem resetPulse_rxsr (s : State) : (resetPulse s).rxsr = s.rxsr := rfl
@[simp] theorem resetPulse_bitcnt (s : State) : (resetPulse s).bitcnt = s.bitcnt := rfl
@[simp] theorem resetPulse_addr (s : State) : (resetPulse s).addr = s.addr := rfl
@[simp] theorem resetPulse_rem (s : State) : (resetPulse s).rem = s.rem := rfl
@[simp] theorem resetPulse_seq (s : State) : (resetPulse s).seq = s.seq := rfl
@[simp] theorem resetPulse_lines (s : State) : (resetPulse s).lines = s.lines.afterAll (WireEvent.resetPulse s.cfg.resetLiteral s.cfg.tReset).pins := rfl
@[simp] theorem resetPulse_wire (s : State) : (resetPulse s).wire = s.wire ++ [.resetPulse s.cfg.resetLiteral s.cfg.tReset] := rfl
@[simp] theorem resetPulse_pins (s : State) : (resetPulse s).pins = s.pins ++ (WireEvent.resetPulse s.cfg.resetLiteral s.cfg.tReset).pins := rfl
@[simp] theorem resetPulse_result (s : State) : (resetPulse s).result = s.result := rfl
@[simp] theorem resetPulse_port (s : State) : (resetPulse s).port = s.port := rfl
@[simp] theorem resetPulse_disrupt (s : State) : (resetPulse s).disrupt = s.disrupt := rfl
@[simp] theorem resetPulse_draws (s : State) : (resetPulse s).draws = s.draws := rfl
@[simp] theorem resetPulse_target (s : State) : (resetPulse s).target = s.target.onReset := rfl

/-- A meaning behind its admission answers a refusal only of the admission or of what it runs. -/
theorem guarded_eq_refused {r : Option Refusal} {run : Res} {why : Refusal} :
    guarded r run = .refused why ↔ r = some why ∨ (r = none ∧ run = .refused why) := by
  cases r <;> simp [guarded]

/-- A meaning behind its admission answers a next state only when it is admitted. -/
theorem guarded_eq_next {r : Option Refusal} {run : Res} {t : State} :
    guarded r run = .next t ↔ r = none ∧ run = .next t := by
  cases r <;> simp [guarded]

@[simp] theorem guarded_none (run : Res) : guarded none run = run := rfl

@[simp] theorem guarded_some (why : Refusal) (run : Res) : guarded (some why) run = .refused why := rfl

@[simp] theorem reply_eq_next {v : Value} {s t : State} : reply v s = .next t ↔ { s with result := some v } = t := by
  simp [reply]

@[simp] theorem reply_ne_refused {v : Value} {s : State} {why : Refusal} : reply v s = .refused why ↔ False := by
  simp [reply]

end Sys2Proof.Laws
end

