-- ==== Sys2Proof/Laws/Wire.lean ====
section
/-! SUPPORT. What each frame event does to the lines, how many clock pulses, samples and delays its expansion has, and READ9 as one
answer of the target. -/

namespace Sys2Proof.Laws

open Sys2Proof.Machine

/-! ### Lines after an expansion -/

theorem afterAll_append (l : Lines) (xs ys : List PinEvent) : l.afterAll (xs ++ ys) = (l.afterAll xs).afterAll ys :=
  List.foldl_append ..

@[simp] theorem afterAll_tiktok (l : Lines) (s h : Nat) : l.afterAll (tiktokPins s h) = { l with clk := .low } := rfl

@[simp] theorem afterAll_bitOut (l : Lines) (t : Profile) (b : Bool) :
    l.afterAll (bitOutPins t b) = { l with dat := Level.ofBit b, clk := .low } := rfl

@[simp] theorem afterAll_bitIn (l : Lines) (t : Profile) (b : Bool) :
    l.afterAll (bitInPins t b) = { l with clk := .low } := rfl

theorem afterAll_bitsOut (t : Profile) (bits : List Bool) : ∀ (l : Lines) (b : Bool),
    l.afterAll ((bits ++ [b]).flatMap (bitOutPins t)) = { l with dat := Level.ofBit b, clk := .low } := by
  induction bits with
  | nil => intros; rfl
  | cons a bits ih =>
    intro l b
    rw [List.cons_append, List.flatMap_cons, afterAll_append, afterAll_bitOut, ih]

theorem afterAll_bitsIn (t : Profile) (bits : List Bool) : ∀ (l : Lines), bits ≠ [] →
    l.afterAll (bits.flatMap (bitInPins t)) = { l with clk := .low } := by
  induction bits with
  | nil => intro l h; exact absurd rfl h
  | cons a bits ih =>
    intro l _
    rw [List.flatMap_cons, afterAll_append, afterAll_bitIn]
    by_cases hb : bits = []
    · subst hb; rfl
    · rw [ih _ hb]

theorem afterAll_reset (t : Profile) (lit : List Bool) : ∀ (l : Lines) (b : Bool),
    l.afterAll ((lit ++ [b]).flatMap (resetBitPins t)) = { l with rst := Level.ofBit b } := by
  induction lit with
  | nil => intros; rfl
  | cons a lit ih =>
    intro l b
    rw [List.cons_append, List.flatMap_cons, afterAll_append, ih]
    rfl

theorem bitsMsb_split {n : Nat} (v : BitVec (n + 1)) :
    bitsMsb v = (List.range n).map v.getMsbD ++ [v.getLsbD 0] := by
  have : v.getMsbD n = v.getLsbD 0 := by simp [BitVec.getMsbD]
  rw [bitsMsb, List.range_succ, List.map_append, List.map_cons, List.map_nil, this]

/-- WRITE24 leaves `CLK = 0` and `DAT = w[0]` (R152). -/
@[simp] theorem lines_tx24 (l : Lines) (w : Word24) (t : Profile) :
    l.afterAll (WireEvent.tx24 w t).pins = { l with dat := Level.ofBit (w.getLsbD 0), clk := .low } := by
  simp only [WireEvent.pins]
  rw [bitsMsb_split, afterAll_bitsOut]

/-- READ9 leaves `CLK = 0` and `DAT = 0` (R155). -/
@[simp] theorem lines_rx9 (l : Lines) (d : Byte) (last : Bool) (t : Profile) :
    l.afterAll (WireEvent.rx9 d last t).pins = { l with dat := .low, clk := .low } := by
  simp only [WireEvent.pins]
  rw [show ∀ (e : PinEvent) xs, l.afterAll (e :: xs) = (l.after e).afterAll xs from fun _ _ => rfl, afterAll_append,
    afterAll_bitsIn _ _ _ (by rw [bitsMsb_byte]; simp), afterAll_append, afterAll_bitOut]
  rfl

/-- WRITE9 leaves `CLK = 0` and `DAT = 0` (R156). -/
@[simp] theorem lines_tx9 (l : Lines) (d : Byte) (last : Bool) (tb tt : Profile) :
    l.afterAll (WireEvent.tx9 d last tb tt).pins = { l with dat := .low, clk := .low } := by
  simp only [WireEvent.pins]
  rw [bitsMsb_split, afterAll_append, afterAll_bitsOut, afterAll_append, afterAll_bitOut]
  rfl

@[simp] theorem lines_settle (l : Lines) (t : Profile) :
    l.afterAll (WireEvent.settle t).pins = { l with clk := .low } := rfl

@[simp] theorem lines_drive (l : Lines) : l.afterAll WireEvent.drive.pins = { l with dat := .low, clk := .low } := rfl

@[simp] theorem lines_release (l : Lines) : l.afterAll WireEvent.release.pins = ⟨.z, .z, .z⟩ := rfl

@[simp] theorem lines_lockQuery (l : Lines) : l.afterAll WireEvent.lockQuery.pins = l := rfl

/-- RESETPULSE moves RST only, and leaves it driven at the last bit of the literal (R158). -/
theorem lines_resetPulse (l : Lines) (lit : List Bool) (b : Bool) (t : Profile) :
    l.afterAll (WireEvent.resetPulse (lit ++ [b]) t).pins = { l with rst := Level.ofBit b } := afterAll_reset t lit l b

/-- RESETPULSE over any literal (R158). -/
theorem lines_resetPulse_last (l : Lines) (lit : List Bool) (t : Profile) :
    l.afterAll (WireEvent.resetPulse lit t).pins = { l with rst := (lit.getLast?.map Level.ofBit).getD l.rst } := by
  rcases List.eq_nil_or_concat lit with rfl | ⟨init, b, rfl⟩
  · rfl
  · rw [List.concat_eq_append, lines_resetPulse]
    simp

/-- WRITE24 over the whole state (R152). -/
theorem write24_eq (w : Word24) (p : Profile) (s : State) : write24 w p s = { s with
    txsr := w, bitcnt := 0
    wire := s.wire ++ [.tx24 w p]
    pins := s.pins ++ (WireEvent.tx24 w p).pins
    lines := { s.lines with dat := Level.ofBit (w.getLsbD 0), clk := .low }
    draws := (s.target.onWord s.cfg s.draws w).2
    target := (s.target.onWord s.cfg s.draws w).1 } := by
  have := lines_tx24 s.lines w p
  simp only [write24, emit, emitPins, State.withTarget, this]

/-- WRITE9 over the whole state (R156). -/
theorem write9_eq (d : Byte) (last : Bool) (tb tt : Profile) (s : State) : write9 d last tb tt s = { s with
    bitcnt := 0
    wire := s.wire ++ [.tx9 d last tb tt]
    pins := s.pins ++ (WireEvent.tx9 d last tb tt).pins
    lines := { s.lines with dat := .low, clk := .low }
    draws := (s.target.onPayload s.cfg s.draws d last).2
    target := (s.target.onPayload s.cfg s.draws d last).1 } := by
  have := lines_tx9 s.lines d last tb tt
  simp only [write9, emit, emitPins, State.withTarget, this]

theorem ofBit_ne_z (b : Bool) : Level.ofBit b ≠ .z := by cases b <;> decide

/-! ### READ9 as one answer of the target -/

/-- The bits of an expected frame are presented in order, and the last of them ends its data (R73). -/
theorem sampleBits_expected : ∀ (bits : List Bool) (b : Bool) (s : State), s.target.frame = .presenting true (b :: bits) →
    s.target.answering = true → sampleBits (bits.length + 1) s = (b :: bits,
      s.withTarget ({ s.target with frame := .presenting true [] }.delivered s.cfg s.draws)) := by
  intro bits
  induction bits with
  | nil =>
    intro b s h ha
    simp only [List.length_nil, sampleBits, sampleBit, Target.present, h, Target.dataBit, ha, if_true]
  | cons b' bits ih =>
    intro b s h ha
    have h1 : sampleBit .z s =
        (b, s.withTarget ({ s.target with frame := .presenting true (b' :: bits) }, s.draws)) := by
      simp only [sampleBit, Target.present, h, Target.dataBit, ha, if_true]
    have h2 := ih b' (sampleBit .z s).2 (by rw [h1]; rfl) (by rw [h1]; exact ha)
    rw [List.length_cons, sampleBits, h2, h1]
    rfl

/-- The bits of a frame outside the contract are presented in order (R79). -/
theorem sampleBits_stray : ∀ (bits : List Bool) (s : State), s.target.frame = .presenting false bits →
    (sampleBits bits.length s).1 = bits := by
  intro bits
  induction bits with
  | nil => intro s _; rfl
  | cons b bits ih =>
    intro s h
    have h1 : sampleBit .z s =
        (b, s.withTarget ({ s.target.outside s.cfg s.draws with frame := .presenting false bits }, s.draws + 1)) := by
      simp only [sampleBit, Target.present, h]
    rw [List.length_cons, sampleBits, h1, ih _ rfl]

theorem answer_byte (c : Config) (k : Nat) (t : Target) : (t.answer c k).1 = (t.nextByte c k).1 := by
  unfold Target.answer; dsimp only; split <;> rfl

theorem tail_byte (d : Byte) : (bitsMsb d).tail = d.getMsbD 1 :: (bitsMsb d).tail.tail := rfl

theorem msb_cons_tail (d : Byte) : d.msb :: (bitsMsb d).tail = bitsMsb d := rfl

/-- The eight samples of a response frame the target expects, from a frame boundary (R73, R155). -/
theorem sampleBits_frame {s : State} (h : s.target.frame = .boundary) (ha : s.target.answering = true) :
    sampleBits 8 s = (bitsMsb (s.target.nextByte s.cfg s.draws).1, s.withTarget
      ({ s.target with frame := .presenting true [] }.delivered s.cfg (s.target.nextByte s.cfg s.draws).2)) := by
  generalize hr : s.target.nextByte s.cfg s.draws = r
  have h1 : sampleBit .z s = (r.1.msb, s.withTarget
      ({ s.target with frame := .presenting true (bitsMsb r.1).tail }, r.2)) := by
    simp only [sampleBit, Target.present, h, Target.answer, ha, if_true, hr]
  have h2 := sampleBits_expected (bitsMsb r.1).tail.tail (r.1.getMsbD 1) (sampleBit .z s).2 (by rw [h1]; rfl)
    (by rw [h1]; exact ha)
  have h3 : sampleBits 8 s =
      ((sampleBit .z s).1 :: (sampleBits 7 (sampleBit .z s).2).1, (sampleBits 7 (sampleBit .z s).2).2) := rfl
  have h4 : (bitsMsb r.1).tail.tail.length + 1 = 7 := by simp [bitsMsb_length]
  rw [h4] at h2
  rw [h3, h2, h1, ← tail_byte, msb_cons_tail]
  rfl

/-- The eight samples of a response frame the target does not expect (R79). -/
theorem sampleBits_outside {s : State} (h : s.target.frame = .boundary) (ha : s.target.answering = false) :
    (sampleBits 8 s).1 = bitsMsb (s.target.nextByte s.cfg s.draws).1 := by
  generalize hr : s.target.nextByte s.cfg s.draws = r
  have h1 : sampleBit .z s = (r.1.msb, s.withTarget
      ({ s.target.outside s.cfg s.draws with frame := .presenting false (bitsMsb r.1).tail }, s.draws + 1)) := by
    simp only [sampleBit, Target.present, h, Target.answer, ha, hr]
    rfl
  have h2 := sampleBits_stray (bitsMsb r.1).tail (sampleBit .z s).2 (by rw [h1]; rfl)
  have h3 : (sampleBits 8 s).1 = (sampleBit .z s).1 :: (sampleBits 7 (sampleBit .z s).2).1 := rfl
  have h4 : (bitsMsb r.1).tail.length = 7 := by simp [bitsMsb_length]
  rw [h4] at h2
  rw [h3, h2, h1, msb_cons_tail]

/-- The byte READ9 returns from a frame boundary (R155). -/
theorem read9_byte {last : Bool} {t : Profile} {s : State} (h : s.target.frame = .boundary) :
    (read9 last t s).1 = (s.target.answer s.cfg s.draws).1 := by
  unfold read9
  rw [answer_byte]
  cases ha : s.target.answering with
  | true => rw [sampleBits_frame h ha]; simp only [byteOfBits_bitsMsb]
  | false => simp only [sampleBits_outside h ha, byteOfBits_bitsMsb]

/-- READ9 of a frame the target expects: one answer of the target, and the trailer (R155). -/
theorem read9_eq {last : Bool} {t : Profile} {s : State} (h : s.target.frame = .boundary) (ha : s.target.answering = true) :
    read9 last t s = ((s.target.nextByte s.cfg s.draws).1, received (s.target.nextByte s.cfg s.draws).1 last t
      (s.withTarget (s.target.afterFrame s.cfg (s.target.nextByte s.cfg s.draws).2 last))) := by
  unfold read9
  rw [sampleBits_frame h ha]
  simp only [byteOfBits_bitsMsb]
  rfl

/-! ### Measures of an expansion -/

theorem clockPulses_append (xs ys : List PinEvent) : clockPulses (xs ++ ys) = clockPulses xs + clockPulses ys :=
  List.countP_append

theorem delaySum_append (xs ys : List PinEvent) : delaySum (xs ++ ys) = delaySum xs + delaySum ys := by
  simp [delaySum]

theorem clockPulses_bitsOut (t : Profile) (bits : List Bool) :
    clockPulses (bits.flatMap (bitOutPins t)) = bits.length := by
  induction bits with
  | nil => rfl
  | cons b bits ih => rw [List.flatMap_cons, clockPulses_append, ih, List.length_cons, Nat.add_comm]; rfl

theorem clockPulses_bitsIn (t : Profile) (bits : List Bool) :
    clockPulses (bits.flatMap (bitInPins t)) = bits.length := by
  induction bits with
  | nil => rfl
  | cons b bits ih => rw [List.flatMap_cons, clockPulses_append, ih, List.length_cons, Nat.add_comm]; rfl

theorem delaySum_bitsOut (t : Profile) (bits : List Bool) :
    delaySum (bits.flatMap (bitOutPins t)) = bits.length * t.total := by
  induction bits with
  | nil => simp [delaySum]
  | cons b bits ih =>
    rw [List.flatMap_cons, delaySum_append, ih, List.length_cons, Nat.succ_mul, Nat.add_comm]
    congr 1
    simp [delaySum, bitOutPins, tiktokPins, PinEvent.us, Profile.total]

theorem delaySum_bitsIn (t : Profile) (bits : List Bool) :
    delaySum (bits.flatMap (bitInPins t)) = bits.length * t.total := by
  induction bits with
  | nil => simp [delaySum]
  | cons b bits ih =>
    rw [List.flatMap_cons, delaySum_append, ih, List.length_cons, Nat.succ_mul, Nat.add_comm]
    congr 1
    simp [delaySum, bitInPins, PinEvent.us, Profile.total]

end Sys2Proof.Laws
end

