-- ==== Sys2Proof/Laws/Script.lean ====
section
/-! SUPPORT. What a list of steps can do: the sequencer position is read by nothing, the host-visible registers are kept, and the
bursts of READ and WRITE in every state and under the contract. -/

namespace Sys2Proof.Laws

open Sys2Proof.Machine

/-! ### The sequencer position is read by no step -/

theorem sampleBit_withSeq (dat : Level) (s : State) (q : Seq) :
    sampleBit dat { s with seq := q } = ((sampleBit dat s).1, { (sampleBit dat s).2 with seq := q }) := rfl

theorem sampleBits_withSeq (n : Nat) : ∀ (s : State) (q : Seq),
    sampleBits n { s with seq := q } = ((sampleBits n s).1, { (sampleBits n s).2 with seq := q }) := by
  induction n with
  | zero => intros; rfl
  | succ n ih =>
    intro s q
    simp only [sampleBits]
    rw [sampleBit_withSeq, ih]

theorem read9_withSeq (last : Bool) (t : Profile) (s : State) (q : Seq) :
    read9 last t { s with seq := q } = ((read9 last t s).1, { (read9 last t s).2 with seq := q }) := by
  unfold read9
  rw [sampleBits_withSeq]
  rfl

theorem lockCalls_withSeq (calls : List LockCall) : ∀ (s : State) (q : Seq),
    calls.foldl lockCall { s with seq := q } = { calls.foldl lockCall s with seq := q } := by
  induction calls with
  | nil => intros; rfl
  | cons call calls ih =>
    intro s q
    rw [List.foldl_cons, List.foldl_cons, ← ih]
    cases call <;> rfl

theorem lockQuery_withSeq (s : State) (q : Seq) :
    (lockQuery { s with seq := q }).2 = { (lockQuery s).2 with seq := q } :=
  lockCalls_withSeq s.cfg.lockQuery (emit .lockQuery (s.withTarget (s.target.lockAnswer s.cfg s.draws).2)) q

theorem run_withSeq (m : Micro) (s : State) (q : Seq) :
    m.run { s with seq := q } = ((m.run s).1, { (m.run s).2 with seq := q }) := by
  cases m with
  | receive last t => simp only [Micro.run, read9_withSeq]
  | lockQuery => simp only [Micro.run, lockQuery_withSeq]
  | _ => rfl

/-! ### Steps without the sequencer -/

/-- The run of a list of steps with the sequencer position left alone. -/
def runSteps : List Micro → State → List Byte × State
  | [], s => ([], s)
  | m :: ms, s => ((m.run s).1 ++ (runSteps ms (m.run s).2).1, (runSteps ms (m.run s).2).2)

@[simp] theorem runSteps_nil (s : State) : runSteps [] s = ([], s) := rfl

theorem runSteps_cons (m : Micro) (ms : List Micro) (s : State) :
    runSteps (m :: ms) s = ((m.run s).1 ++ (runSteps ms (m.run s).2).1, (runSteps ms (m.run s).2).2) := rfl

theorem runSteps_append (xs ys : List Micro) : ∀ s : State, runSteps (xs ++ ys) s =
    ((runSteps xs s).1 ++ (runSteps ys (runSteps xs s).2).1, (runSteps ys (runSteps xs s).2).2) := by
  induction xs with
  | nil => intro s; rfl
  | cons m xs ih => intro s; rw [List.cons_append, runSteps_cons, runSteps_cons, ih, List.append_assoc]

theorem runScript_eq (ms : List Micro) : ∀ (s : State) (q : Seq), ∃ q',
    runScript ms { s with seq := q } = ((runSteps ms s).1, { (runSteps ms s).2 with seq := q' }) := by
  induction ms with
  | nil => intro s q; exact ⟨q, rfl⟩
  | cons m ms ih =>
    intro s q
    obtain ⟨q', h⟩ := ih (m.run s).2 (q.advance m)
    refine ⟨q', ?_⟩
    simp only [runScript, run_withSeq]
    rw [h]
    rfl

/-- An operation is its steps, with `SEQ` idle after (R26). -/
theorem perform_eq (op : Instr) (ms : List Micro) (s : State) :
    perform op ms s = ((runSteps ms s).1, { (runSteps ms s).2 with seq := .idle }) := by
  obtain ⟨q', h⟩ := runScript_eq ms s (.running op 0 0 0)
  simp only [perform, h]

/-! ### What no step changes -/

/-- Every field that only the operations themselves write is kept, and the target keeps its constants and canonical form. -/
structure Quiet (s t : State) : Prop where
  cfg     : t.cfg = s.cfg
  sess    : t.sess = s.sess
  cid     : t.cid = s.cid
  did     : t.did = s.did
  idValid : t.idValid = s.idValid
  cmp     : t.cmp = s.cmp
  result  : t.result = s.result
  port    : t.port = s.port
  disrupt : t.disrupt = s.disrupt
  target  : keeps s.target t.target

theorem Quiet.refl (s : State) : Quiet s s := ⟨rfl, rfl, rfl, rfl, rfl, rfl, rfl, rfl, rfl, keeps_refl _⟩

theorem Quiet.trans {s t u : State} (h : Quiet s t) (h' : Quiet t u) : Quiet s u :=
  ⟨h'.1.trans h.1, h'.2.trans h.2, h'.3.trans h.3, h'.4.trans h.4, h'.5.trans h.5, h'.6.trans h.6, h'.7.trans h.7,
    h'.8.trans h.8, h'.9.trans h.9, keeps_trans h.10 h'.10⟩

theorem sampleBit_quiet (dat : Level) (s : State) : Quiet s (sampleBit dat s).2 :=
  ⟨rfl, rfl, rfl, rfl, rfl, rfl, rfl, rfl, rfl, present_keeps s.cfg s.draws dat s.target⟩

theorem sampleBits_quiet (n : Nat) : ∀ s : State, Quiet s (sampleBits n s).2 := by
  induction n with
  | zero => intro s; exact Quiet.refl s
  | succ n ih => intro s; exact (sampleBit_quiet .z s).trans (ih _)

theorem read9_quiet (last : Bool) (t : Profile) (s : State) : Quiet s (read9 last t s).2 := by
  unfold read9
  generalize hr : sampleBits 8 s = r
  have h : Quiet s r.2 := hr ▸ sampleBits_quiet 8 s
  exact ⟨h.1, h.2, h.3, h.4, h.5, h.6, h.7, h.8, h.9, keeps_trans h.10 (trailerPulse_keeps _ _ _ _)⟩

theorem lockCalls_quiet (calls : List LockCall) : ∀ s : State, Quiet s (calls.foldl lockCall s) := by
  induction calls with
  | nil => intro s; exact Quiet.refl s
  | cons call calls ih =>
    intro s
    refine Quiet.trans ?_ (ih _)
    cases call <;> exact ⟨rfl, rfl, rfl, rfl, rfl, rfl, rfl, rfl, rfl, keeps_refl _⟩

theorem lockQuery_quiet (s : State) : Quiet s (lockQuery s).2 :=
  Quiet.trans (t := emit .lockQuery (s.withTarget (s.target.lockAnswer s.cfg s.draws).2))
    ⟨rfl, rfl, rfl, rfl, rfl, rfl, rfl, rfl, rfl, lockAnswer_keeps s.cfg s.draws s.target⟩ (lockCalls_quiet _ _)

/-- One step writes no host-visible register (R154, R28). -/
theorem run_quiet (m : Micro) (s : State) : Quiet s (m.run s).2 := by
  cases m with
  | receive last t => exact read9_quiet last t s
  | lockQuery => exact lockQuery_quiet s
  | word w t => exact ⟨rfl, rfl, rfl, rfl, rfl, rfl, rfl, rfl, rfl, onWord_keeps _ _ _ _⟩
  | command o p t => exact ⟨rfl, rfl, rfl, rfl, rfl, rfl, rfl, rfl, rfl, onWord_keeps _ _ _ _⟩
  | payload d last tb tt => exact ⟨rfl, rfl, rfl, rfl, rfl, rfl, rfl, rfl, rfl, onPayload_keeps _ _ _ _ _⟩
  | bitIn t => exact ⟨rfl, rfl, rfl, rfl, rfl, rfl, rfl, rfl, rfl, present_keeps _ _ _ _⟩
  | respond d last t => exact ⟨rfl, rfl, rfl, rfl, rfl, rfl, rfl, rfl, rfl, respond_keeps _ _ _ _ _⟩
  | _ => exact ⟨rfl, rfl, rfl, rfl, rfl, rfl, rfl, rfl, rfl, keeps_refl _⟩

/-- A list of steps writes no host-visible register. -/
theorem runSteps_quiet (ms : List Micro) : ∀ s : State, Quiet s (runSteps ms s).2 := by
  induction ms with
  | nil => intro s; exact Quiet.refl s
  | cons m ms ih => intro s; exact (run_quiet m s).trans (ih _)

/-- A state that agrees in everything the quiet fields leave is a wire frame of the former, once `SEQ` is idle. -/
theorem Quiet.wireFrame {s t : State} (h : Quiet s t) (v : Option Value) :
    wireFrame s { t with seq := .idle, result := v } := by
  obtain ⟨h1, h2, h3, h4, h5, h6, -, h8, h9, -⟩ := h
  cases s
  cases t
  simp only [Machine.wireFrame] at *
  simp_all

/-! ### After a disruption -/

theorem sampleBits_stuck (n : Nat) : ∀ s : State, Stuck s.target → Stuck (sampleBits n s).2.target := by
  induction n with
  | zero => intro s h; exact h
  | succ n ih => intro s h; exact ih (sampleBit .z s).2 (h.present _ _ _)

theorem read9_stuck (last : Bool) (t : Profile) {s : State} (h : Stuck s.target) : Stuck (read9 last t s).2.target := by
  unfold read9
  exact (sampleBits_stuck 8 s h).trailerPulse _ _ _

theorem lockCalls_target (calls : List LockCall) : ∀ s : State, (calls.foldl lockCall s).target = s.target := by
  induction calls with
  | nil => intro s; rfl
  | cons call calls ih => intro s; rw [List.foldl_cons, ih]; cases call <;> rfl

theorem lockQuery_stuck {s : State} (h : Stuck s.target) : Stuck (lockQuery s).2.target := by
  simp only [lockQuery, lockCalls_target]
  exact h.lockAnswer _ _

/-- No step but the reset pulse moves a stuck target out of it (R320). -/
theorem run_stuck {m : Micro} (hm : m ≠ .resetPulse) {s : State} (h : Stuck s.target) : Stuck (m.run s).2.target := by
  cases m with
  | resetPulse => exact absurd rfl hm
  | receive last t => exact read9_stuck last t h
  | lockQuery => exact lockQuery_stuck h
  | word w t => exact h.onWord _ _ _
  | command o p t => exact h.onWord _ _ _
  | payload d last tb tt => exact h.onPayload _ _ _ _
  | bitIn t => exact h.present _ _ _
  | respond d last t => exact h.respond _ _ _ _
  | _ => exact h

/-- Nor does a list of steps without one. -/
theorem runSteps_stuck (ms : List Micro) : ∀ s : State, (∀ m ∈ ms, m ≠ .resetPulse) → Stuck s.target →
    Stuck (runSteps ms s).2.target := by
  induction ms with
  | nil => intro s _ h; exact h
  | cons m ms ih => intro s hm h; exact ih _ (fun x hx => hm x (by simp [hx])) (run_stuck (hm m (by simp)) h)

/-! ### The traces follow the frames -/

/-- Sampling by itself touches no trace and no line. -/
theorem sampleBits_traces (n : Nat) : ∀ s : State, (sampleBits n s).2.wire = s.wire ∧ (sampleBits n s).2.pins = s.pins ∧
    (sampleBits n s).2.lines = s.lines := by
  induction n with
  | zero => intro s; exact ⟨rfl, rfl, rfl⟩
  | succ n ih => intro s; exact ih (sampleBit .z s).2

/-- The frame event and the pin events of READ9 (R155). -/
theorem read9_traces (last : Bool) (t : Profile) (s : State) :
    (read9 last t s).2.wire = s.wire ++ [.rx9 (read9 last t s).1 last t] ∧
    (read9 last t s).2.pins = s.pins ++ (WireEvent.rx9 (read9 last t s).1 last t).pins ∧
    (read9 last t s).2.lines = s.lines.afterAll (WireEvent.rx9 (read9 last t s).1 last t).pins := by
  unfold read9
  generalize hr : sampleBits 8 s = r
  obtain ⟨a, b, c⟩ := hr ▸ sampleBits_traces 8 s
  simp only [received_wire, received_pins, received_lines, withTarget_wire, withTarget_pins, withTarget_lines, a, b, c, and_self]

/-- A step whose pin events are those of frames: no lock query, and no pulse or sampled bit by itself. -/
def Micro.framed : Micro → Bool
  | .lockQuery => false
  | .pulse _ _ => false
  | .bitIn _ => false
  | .setAddr _ => true
  | .setRem _ => true
  | .decRem => true
  | .drive => true
  | .resetPulse => true
  | .word _ _ => true
  | .command _ _ _ => true
  | .receive _ _ => true
  | .payload _ _ _ _ => true
  | .settle _ => true
  | .release => true
  | .respond _ _ _ => true

/-- The frame events of a step, given the bytes it received. -/
theorem run_trace (m : Micro) (s : State) (hm : Micro.framed m = true) : ∃ evs : List WireEvent,
    (m.run s).2.wire = s.wire ++ evs ∧ (m.run s).2.pins = s.pins ++ evs.flatMap WireEvent.pins ∧
    (m.run s).2.lines = s.lines.afterAll (evs.flatMap WireEvent.pins) := by
  cases m with
  | setAddr a => exact ⟨[], by simp [Micro.run, Lines.afterAll]⟩
  | setRem n => exact ⟨[], by simp [Micro.run, Lines.afterAll]⟩
  | decRem => exact ⟨[], by simp [Micro.run, Lines.afterAll]⟩
  | drive => exact ⟨[.drive], by simp [Micro.run, Machine.drive]⟩
  | resetPulse => exact ⟨[.resetPulse s.cfg.resetLiteral s.cfg.tReset], by simp [Micro.run]⟩
  | word w t => exact ⟨[.tx24 w t], by simp [Micro.run]⟩
  | command o p t => exact ⟨[.tx24 (pack (opcodeArg o) p) t], by simp [Micro.run, write24p]⟩
  | receive last t =>
    refine ⟨[.rx9 (read9 last t s).1 last t], ?_⟩
    obtain ⟨a, b, c⟩ := read9_traces last t s
    simp only [Micro.run, a, b, c, List.flatMap_cons, List.flatMap_nil, List.append_nil, and_self]
  | payload d last tb tt => exact ⟨[.tx9 d last tb tt], by simp [Micro.run]⟩
  | settle t => exact ⟨[.settle t], by simp [Micro.run, Machine.settle]⟩
  | lockQuery => exact absurd hm (by decide)
  | pulse setup hold => exact absurd hm (by simp [Micro.framed])
  | bitIn t => exact absurd hm (by simp [Micro.framed])
  | respond d last t => exact ⟨[.rx9 d last t], by simp [Micro.run, receiveFrame, State.withTarget]⟩
  | release => exact ⟨[.release], by simp [Micro.run, Machine.release]⟩

/-- The pin trace of a list of steps is the expansion of its frame trace (R150). -/
theorem runSteps_trace (ms : List Micro) : ∀ s : State, (∀ m ∈ ms, Micro.framed m = true) → ∃ evs : List WireEvent,
    (runSteps ms s).2.wire = s.wire ++ evs ∧ (runSteps ms s).2.pins = s.pins ++ evs.flatMap WireEvent.pins ∧
    (runSteps ms s).2.lines = s.lines.afterAll (evs.flatMap WireEvent.pins) := by
  induction ms with
  | nil => intro s _; exact ⟨[], by simp [Lines.afterAll]⟩
  | cons m ms ih =>
    intro s h
    obtain ⟨e1, a1, b1, c1⟩ := run_trace m s (h m (by simp))
    obtain ⟨e2, a2, b2, c2⟩ := ih (m.run s).2 (fun x hx => h x (by simp [hx]))
    refine ⟨e1 ++ e2, ?_, ?_, ?_⟩
    · rw [runSteps_cons, a2, a1, List.append_assoc]
    · rw [runSteps_cons, b2, b1, List.flatMap_append, List.append_assoc]
    · rw [runSteps_cons, c2, c1, List.flatMap_append, afterAll_append]

/-! ### Response bursts -/

/-- READ9 in every state: one response frame of some byte (R155). -/
theorem read9_shape (last : Bool) (t : Profile) (s : State) :
    (read9 last t s).2 = { s with
      rxsr := frame9 (read9 last t s).1 false, bitcnt := 0
      wire := s.wire ++ [.rx9 (read9 last t s).1 last t]
      pins := s.pins ++ (WireEvent.rx9 (read9 last t s).1 last t).pins
      lines := { s.lines with dat := .low, clk := .low }
      draws := (read9 last t s).2.draws, target := (read9 last t s).2.target } := by
  have h2 : ∀ n (s : State), (sampleBits n s).2 =
      { s with draws := (sampleBits n s).2.draws, target := (sampleBits n s).2.target } := by
    intro n
    induction n with
    | zero => intro s; rfl
    | succ n ih => intro s; simp only [sampleBits]; rw [ih]; rfl
  have h3 := h2 8 s
  generalize hd : (read9 last t s).1 = d
  simp only [read9] at hd ⊢
  rw [hd]
  simp only [received, emit, emitPins, lines_rx9, State.withTarget]
  rw [h3]

/-! READ9, field by field. -/

@[simp] theorem read9_cfg (last : Bool) (t : Profile) (s : State) : (read9 last t s).2.cfg = s.cfg := by
  rw [read9_shape]
@[simp] theorem read9_sess (last : Bool) (t : Profile) (s : State) : (read9 last t s).2.sess = s.sess := by
  rw [read9_shape]
@[simp] theorem read9_cid (last : Bool) (t : Profile) (s : State) : (read9 last t s).2.cid = s.cid := by
  rw [read9_shape]
@[simp] theorem read9_did (last : Bool) (t : Profile) (s : State) : (read9 last t s).2.did = s.did := by
  rw [read9_shape]
@[simp] theorem read9_idValid (last : Bool) (t : Profile) (s : State) : (read9 last t s).2.idValid = s.idValid := by
  rw [read9_shape]
@[simp] theorem read9_cmp (last : Bool) (t : Profile) (s : State) : (read9 last t s).2.cmp = s.cmp := by
  rw [read9_shape]
@[simp] theorem read9_txsr (last : Bool) (t : Profile) (s : State) : (read9 last t s).2.txsr = s.txsr := by
  rw [read9_shape]
@[simp] theorem read9_addr (last : Bool) (t : Profile) (s : State) : (read9 last t s).2.addr = s.addr := by
  rw [read9_shape]
@[simp] theorem read9_rem (last : Bool) (t : Profile) (s : State) : (read9 last t s).2.rem = s.rem := by
  rw [read9_shape]
@[simp] theorem read9_seq (last : Bool) (t : Profile) (s : State) : (read9 last t s).2.seq = s.seq := by
  rw [read9_shape]
@[simp] theorem read9_result (last : Bool) (t : Profile) (s : State) : (read9 last t s).2.result = s.result := by
  rw [read9_shape]
@[simp] theorem read9_port (last : Bool) (t : Profile) (s : State) : (read9 last t s).2.port = s.port := by
  rw [read9_shape]
@[simp] theorem read9_disrupt (last : Bool) (t : Profile) (s : State) : (read9 last t s).2.disrupt = s.disrupt := by
  rw [read9_shape]
@[simp] theorem read9_rxsr (last : Bool) (t : Profile) (s : State) :
    (read9 last t s).2.rxsr = frame9 (read9 last t s).1 false := by
  rw [read9_shape]
@[simp] theorem read9_bitcnt (last : Bool) (t : Profile) (s : State) : (read9 last t s).2.bitcnt = 0 := by
  rw [read9_shape]
@[simp] theorem read9_wire (last : Bool) (t : Profile) (s : State) :
    (read9 last t s).2.wire = s.wire ++ [.rx9 (read9 last t s).1 last t] := by
  rw [read9_shape]
@[simp] theorem read9_pins (last : Bool) (t : Profile) (s : State) :
    (read9 last t s).2.pins = s.pins ++ (WireEvent.rx9 (read9 last t s).1 last t).pins := by
  rw [read9_shape]
@[simp] theorem read9_lines (last : Bool) (t : Profile) (s : State) :
    (read9 last t s).2.lines = { s.lines with dat := .low, clk := .low } := by
  rw [read9_shape]

/-- The response frames of a burst in every state: as many bytes as frames, the last one marked (R184). -/
theorem receiveFrames_shape (t : Profile) (n : Nat) : ∀ s : State, ∃ rxsr bitcnt lines pins draws target,
    (runSteps (receiveFrames t n) s).2 = { s with
      rem := s.rem - n, rxsr := rxsr, bitcnt := bitcnt, lines := lines, pins := pins, draws := draws, target := target
      wire := s.wire ++ responseTrace t (runSteps (receiveFrames t n) s).1 } ∧
    (runSteps (receiveFrames t n) s).1.length = n ∧
    (n = 0 → rxsr = s.rxsr ∧ bitcnt = s.bitcnt ∧ lines = s.lines) ∧
    (0 < n → bitcnt = 0 ∧ lines = { s.lines with dat := .low, clk := .low } ∧
      ∀ d, (runSteps (receiveFrames t n) s).1.getLast? = some d → rxsr = frame9 d false) := by
  induction n with
  | zero =>
    intro s
    exact ⟨s.rxsr, s.bitcnt, s.lines, s.pins, s.draws, s.target, by simp [receiveFrames, responseTrace],
      rfl, by simp⟩
  | succ n ih =>
    intro s
    simp only [receiveFrames, runSteps_cons, Micro.run, List.nil_append]
    have h := read9_shape (decide (n = 0)) t s
    generalize (read9 (decide (n = 0)) t s).1 = d at h ⊢
    rw [h]
    obtain ⟨rxsr, bitcnt, lines, pins, draws, target, hs, hl, h0, hb⟩ := ih
      { s with
        rxsr := frame9 d false, bitcnt := 0, wire := s.wire ++ [.rx9 d (decide (n = 0)) t]
        pins := s.pins ++ (WireEvent.rx9 d (decide (n = 0)) t).pins
        lines := { s.lines with dat := .low, clk := .low }
        draws := (read9 (decide (n = 0)) t s).2.draws, target := (read9 (decide (n = 0)) t s).2.target
        rem := s.rem - 1 }
    dsimp only at hs h0 hb
    generalize runSteps (receiveFrames t n) _ = r at hs hl hb ⊢
    obtain ⟨out, r⟩ := r
    dsimp only at hs hl hb ⊢
    have he : decide (n = 0) = out.isEmpty := by subst hl; cases out <;> rfl
    refine ⟨rxsr, bitcnt, lines, pins, draws, target, ?_, by simp [hl], by simp, ?_⟩
    · rw [hs, he]
      simp [responseTrace, Nat.sub_sub, Nat.add_comm]
    · intro _
      by_cases hn : n = 0
      · obtain ⟨a, b, c⟩ := h0 hn
        obtain rfl : out = [] := List.length_eq_zero_iff.1 (hl.trans hn)
        exact ⟨b, c, by simp [a]⟩
      · obtain ⟨a, b, c⟩ := hb (by omega)
        refine ⟨a, b, ?_⟩
        intro x hx
        apply c x
        rw [← hx]
        cases out with
        | nil => simp at hl; omega
        | cons y ys => simp

/-- The response frames of a burst under the contract: the bytes from `TPTR` on, the pointer after the last, nothing else (R73). -/
theorem receiveFrames_contract (t : Profile) (n : Nat) : ∀ s : State, 0 < n → Reading s.target →
    (∀ i < n, s.target.has s.cfg (s.target.ptr + i) = true) →
    (runSteps (receiveFrames t n) s).1 = s.target.mem.slice s.target.ptr n ∧
    (runSteps (receiveFrames t n) s).2.draws = s.draws ∧
    (runSteps (receiveFrames t n) s).2.target = { s.target with ptr := s.target.ptr + n, burst := .idle } := by
  induction n with
  | zero => intro s h; omega
  | succ n ih =>
    intro s _ hr ha
    have h0 : s.target.has s.cfg s.target.ptr = true := by simpa using ha 0 (by omega)
    have h9 := read9_eq (last := decide (n = 0)) (t := t) (s := s) hr.frame hr.answering
    rw [hr.nextByte h0, hr.afterFrame h0] at h9
    simp only [receiveFrames, runSteps_cons, Micro.run, List.nil_append, h9, Memory.slice, List.range_succ_eq_map,
      List.map_cons, List.map_map, Nat.add_zero]
    by_cases hn : n = 0
    · subst hn
      simp [receiveFrames, State.withTarget]
    · simp only [hn, decide_false, if_false, Bool.false_eq_true]
      obtain ⟨a, b, c⟩ := ih
        { received (s.target.mem.read s.target.ptr) false t
            (s.withTarget ({ s.target with ptr := s.target.ptr + 1, burst := .read }, s.draws)) with rem := s.rem - 1 } (by omega)
        ⟨hr.live, hr.unlock, rfl, hr.frame⟩
        (by
          intro i hi
          have := ha (i + 1) (by omega)
          simpa [Target.has, Nat.add_assoc, Nat.add_comm, Nat.add_left_comm] using this)
      refine ⟨?_, ?_, ?_⟩
      · rw [List.singleton_append]
        refine congrArg _ (Eq.trans a ?_)
        simp only [Memory.slice]
        apply List.map_congr_left
        intro i _
        simp [State.withTarget, Nat.add_comm, Nat.add_left_comm]
      · exact b
      · refine Eq.trans c ?_
        simp only [received_target, withTarget_target, Target.mk.injEq, true_and, and_true]
        omega

/-! ### Payload bursts -/

/-- The payload frames of a burst in every state (R186). -/
theorem payloadFrames_shape (tb : Profile) (buf : List Byte) : ∀ (slices : List Profile) (s : State),
    slices.length = buf.length → ∃ bitcnt lines pins draws target,
    (runSteps (payloadFrames tb buf slices) s).2 = { s with
      rem := s.rem - buf.length
      bitcnt := bitcnt, lines := lines, pins := pins, draws := draws, target := target
      wire := s.wire ++ payloadTrace tb buf slices } ∧
    (buf = [] → bitcnt = s.bitcnt ∧ lines = s.lines) ∧
    (buf ≠ [] → bitcnt = 0 ∧ lines = { s.lines with dat := .low, clk := .low }) := by
  induction buf with
  | nil =>
    intro slices s h
    exact ⟨s.bitcnt, s.lines, s.pins, s.draws, s.target, by simp [payloadFrames, payloadTrace], by simp⟩
  | cons d buf ih =>
    intro slices s h
    obtain ⟨tt, slices, rfl⟩ : ∃ tt rest, slices = tt :: rest := by
      cases slices with
      | nil => simp at h
      | cons tt rest => exact ⟨tt, rest, rfl⟩
    simp only [payloadFrames, runSteps_cons, Micro.run]
    obtain ⟨bitcnt, lines, pins, draws, target, hs, h0, hb⟩ := ih slices
      { write9 d buf.isEmpty tb tt s with rem := (write9 d buf.isEmpty tb tt s).rem - 1 } (by simpa using h)
    refine ⟨bitcnt, lines, pins, draws, target, ?_, by simp, ?_⟩
    · rw [hs]
      simp [payloadTrace, write9, emit, emitPins, State.withTarget, Nat.sub_sub, Nat.add_comm]
    · intro _
      by_cases hn : buf = []
      · obtain ⟨a, b⟩ := h0 hn
        exact ⟨a, by rw [b]; simp⟩
      · obtain ⟨a, b⟩ := hb hn
        exact ⟨a, by rw [b]; simp⟩

/-- What a WRITE under the contract leaves in the memory: a buffer AND-ed in from an address on (R74). -/
def AndedIn (m m' : Memory) (a : Nat) (buf : List Byte) : Prop :=
  m'.wf = true ∧ ∀ x, m'.read x = if a ≤ x ∧ x < a + buf.length then m.read x &&& buf.getD (x - a) 0 else m.read x

theorem andedIn_nil {m : Memory} (h : m.wf = true) (a : Nat) : AndedIn m m a [] :=
  ⟨h, fun x => by rw [if_neg]; simp only [List.length_nil]; omega⟩

theorem andedIn_cons {m m' : Memory} {a : Nat} {d : Byte} {buf : List Byte} (hm : m.wf = true)
    (h : AndedIn (m.write a (m.read a &&& d)) m' (a + 1) buf) : AndedIn m m' a (d :: buf) := by
  refine ⟨h.1, fun x => ?_⟩
  rw [h.2 x, read_write hm]
  rcases Nat.lt_trichotomy x a with hx | hx | hx
  · rw [if_neg (by omega), if_neg (by omega), if_neg (by omega)]
  · subst hx
    rw [if_neg (by omega), if_pos rfl, if_pos (by simp)]
    simp
  · by_cases hb : x < a + 1 + buf.length
    · rw [if_pos ⟨by omega, hb⟩, if_neg (by omega), if_pos ⟨by omega, by simp; omega⟩]
      obtain ⟨i, rfl⟩ : ∃ i, x = a + 1 + i := ⟨x - (a + 1), by omega⟩
      rw [show a + 1 + i - (a + 1) = i by omega, show a + 1 + i - a = i + 1 by omega, List.getD_cons_succ]
    · rw [if_neg (by omega), if_neg (by omega), if_neg (by simp; omega)]

/-- The payload frames of a burst under the contract (R74). -/
theorem payloadFrames_contract (tb : Profile) (buf : List Byte) : ∀ (slices : List Profile) (s : State),
    slices.length = buf.length → buf ≠ [] → s.cfg.writeMode = .burst → Programming s.target → s.target.mem.wf = true →
    (∀ i < buf.length, s.target.has s.cfg (s.target.ptr + i) = true) →
    ∃ m, AndedIn s.target.mem m s.target.ptr buf ∧
    (runSteps (payloadFrames tb buf slices) s).2.draws = s.draws ∧
    (runSteps (payloadFrames tb buf slices) s).2.target =
      { s.target with ptr := s.target.ptr + buf.length, burst := .idle, mem := m } := by
  induction buf with
  | nil => intro _ _ _ h; exact absurd rfl h
  | cons d buf ih =>
    intro slices s h _ hw hp hm ha
    obtain ⟨tt, slices, rfl⟩ : ∃ tt rest, slices = tt :: rest := by
      cases slices with
      | nil => simp at h
      | cons tt rest => exact ⟨tt, rest, rfl⟩
    have hpay := hp.payload (c := s.cfg) (k := s.draws) (d := d) (last := buf.isEmpty) (by simpa using ha 0 (by simp))
    rw [if_pos hw] at hpay
    simp only [payloadFrames, runSteps_cons, Micro.run]
    by_cases hn : buf = []
    · subst hn
      simp only [List.isEmpty_nil, if_true] at hpay
      refine ⟨_, andedIn_cons hm (andedIn_nil (write_keeps_wf hm _ _) _), ?_, ?_⟩
      · simp [payloadFrames, hpay]
      · simp [payloadFrames, hpay]
    · have he : buf.isEmpty = false := by simpa using hn
      rw [he] at hpay ⊢
      simp only [Bool.false_eq_true, if_false] at hpay
      obtain ⟨m, hA, b, c⟩ := ih slices
        { write9 d false tb tt s with rem := (write9 d false tb tt s).rem - 1 } (by simpa using h) hn hw
        (by simp only [write9_target, hpay]; exact ⟨hp.live, hp.unlock, rfl, hp.frame⟩)
        (by simp only [write9_target, hpay]; exact write_keeps_wf hm _ _)
        (by
          intro i hi
          simp only [write9_target, hpay, write9_cfg]
          have := ha (i + 1) (by simp; omega)
          simpa [Target.has, Nat.add_assoc, Nat.add_comm, Nat.add_left_comm] using this)
      simp only [write9_target, hpay, write9_draws] at hA b c
      refine ⟨m, andedIn_cons hm hA, ?_, ?_⟩ <;> simp only [write9_target, hpay, write9_draws]
      · exact b
      · rw [c]; simp [Nat.add_assoc, Nat.add_comm]

/-! ### Per-byte programming -/

theorem word32_succ_toNat {a : Word32} (h : a.toNat + 1 < 4294967296) : (a + 1).toNat = a.toNat + 1 := by
  rw [BitVec.toNat_add, show (1 : Word32).toNat = 1 from rfl, Nat.mod_eq_of_lt (by omega)]

theorem pack_eq_commandWord (o : BitVec 6) {p : Word32} (hp : p.toNat < 262144) :
    pack (opcodeArg o) p = commandWord o (BitVec.ofNat 18 p.toNat) := by
  have h : paramArg (BitVec.ofNat 18 p.toNat) = p := by
    apply BitVec.eq_of_toNat_eq
    rw [paramArg_toNat, BitVec.toNat_ofNat, Nat.mod_eq_of_lt (by omega)]
  rw [commandWord, h]

theorem ofNat18_toNat (p : Word32) : BitVec.ofNat 18 p.toNat = p.setWidth 18 := by
  apply BitVec.eq_of_toNat_eq
  rw [BitVec.toNat_ofNat, BitVec.toNat_setWidth]

/-- The pairs of command word and payload frame in every state (R186). -/
theorem perByteFrames_shape (c : Config) (buf : List Byte) : ∀ (a : Word32) (slices : List Profile) (s : State),
    slices.length = buf.length → a.toNat + buf.length ≤ 262144 → ∃ txsr bitcnt lines pins draws target,
    (runSteps (perByteFrames c a buf slices) s).2 = { s with
      rem := s.rem - buf.length
      txsr := txsr, bitcnt := bitcnt, lines := lines, pins := pins, draws := draws, target := target
      wire := s.wire ++ perByteTrace c a.toNat buf slices } ∧
    (buf = [] → bitcnt = s.bitcnt ∧ lines = s.lines ∧ txsr = s.txsr) ∧
    (buf ≠ [] → bitcnt = 0 ∧ lines = { s.lines with dat := .low, clk := .low } ∧
      txsr = commandWord c.opProgram (BitVec.ofNat 18 (a.toNat + buf.length - 1))) := by
  induction buf with
  | nil =>
    intro a slices s h _
    exact ⟨s.txsr, s.bitcnt, s.lines, s.pins, s.draws, s.target, by simp [perByteFrames, perByteTrace], by simp⟩
  | cons d buf ih =>
    intro a slices s h hfit
    obtain ⟨tt, slices, rfl⟩ : ∃ tt rest, slices = tt :: rest := by
      cases slices with
      | nil => simp at h
      | cons tt rest => exact ⟨tt, rest, rfl⟩
    simp only [List.length_cons] at hfit
    have hsucc := word32_succ_toNat (a := a) (by omega)
    simp only [perByteFrames, runSteps_cons, Micro.run]
    obtain ⟨txsr, bitcnt, lines, pins, draws, target, hs, h0, hb⟩ := ih (a + 1) slices
      { write9 d true c.tRead tt (write24p (opcodeArg c.opProgram) a c.tRead s) with
        rem := (write9 d true c.tRead tt (write24p (opcodeArg c.opProgram) a c.tRead s)).rem - 1 } (by simpa using h) (by rw [hsucc]; omega)
    refine ⟨txsr, bitcnt, lines, pins, draws, target, ?_, by simp, ?_⟩
    · rw [hs, hsucc]
      simp [perByteTrace, write9, write24p, write24, emit, emitPins, State.withTarget, Nat.sub_sub, Nat.add_comm,
        pack_eq_commandWord c.opProgram (p := a) (by omega)]
    · intro _
      by_cases hn : buf = []
      · obtain ⟨a1, a2, a3⟩ := h0 hn
        refine ⟨a1, by rw [a2]; simp [write24p], ?_⟩
        rw [a3, hn]
        simp [write24p, pack_eq_commandWord c.opProgram (p := a) (by omega)]
      · obtain ⟨a1, a2, a3⟩ := hb hn
        refine ⟨a1, by rw [a2]; simp [write24p], ?_⟩
        rw [a3, hsucc, List.length_cons, show a.toNat + 1 + buf.length - 1 = a.toNat + (buf.length + 1) - 1 by omega]

/-- The pairs of command word and payload frame under the contract (R74): `TPTR` keeps the last command's address. -/
theorem perByteFrames_contract (buf : List Byte) : ∀ (a : Word32) (slices : List Profile) (s : State),
    slices.length = buf.length → buf ≠ [] → a.toNat + buf.length ≤ 262144 → s.cfg.writeMode = .perByte →
    s.cfg.valid = true → s.target.inContract = true → s.target.mem.wf = true →
    (∀ i < buf.length, s.target.has s.cfg (a.toNat + i) = true) →
    ∃ m, AndedIn s.target.mem m a.toNat buf ∧
    (runSteps (perByteFrames s.cfg a buf slices) s).2.draws = s.draws ∧
    (runSteps (perByteFrames s.cfg a buf slices) s).2.target =
      { s.target with ptr := a.toNat + buf.length - 1, mem := m } := by
  induction buf with
  | nil => intro _ _ _ _ h; exact absurd rfl h
  | cons d buf ih =>
    intro a slices s h _ hfit hw hv hc hm ha
    obtain ⟨tt, slices, rfl⟩ : ∃ tt rest, slices = tt :: rest := by
      cases slices with
      | nil => simp at h
      | cons tt rest => exact ⟨tt, rest, rfl⟩
    simp only [List.length_cons] at hfit
    have hsucc := word32_succ_toNat (a := a) (by omega)
    obtain ⟨c1, c2, c3, c4, c5, c6, c7⟩ := (inContract_iff _).1 hc
    have hlive : s.target.live = true := by simp [Target.live, c1, c2, c3, c7]
    have hcmd := onWord_program (c := s.cfg) (k := s.draws) (t := s.target) hv (p := a) (by omega) hc
    have hprog : Programming { s.target with ptr := a.toNat, burst := .program } := ⟨hlive, c6, rfl, c5⟩
    have hpay := hprog.payload (c := s.cfg) (k := s.draws) (d := d) (last := true)
      (by simpa [Target.has] using ha 0 (by simp))
    simp only [hw, reduceCtorEq, if_false, if_true] at hpay
    have hburst : ∀ m : Memory, ({ s.target with ptr := a.toNat, mem := m, burst := .idle } : Target) =
        { s.target with ptr := a.toNat, mem := m } := by
      intro m; rw [← c4]
    simp only [perByteFrames, runSteps_cons, Micro.run]
    have ht : (write9 d true s.cfg.tRead tt (write24p (opcodeArg s.cfg.opProgram) a s.cfg.tRead s)).target =
        { s.target with ptr := a.toNat, mem := s.target.mem.write a.toNat (s.target.mem.read a.toNat &&& d) } := by
      simp only [write24p, write9_target, write24_target, write24_cfg, write24_draws, hcmd, hpay, hburst]
    have hd : (write9 d true s.cfg.tRead tt (write24p (opcodeArg s.cfg.opProgram) a s.cfg.tRead s)).draws = s.draws := by
      simp only [write24p, write9_draws, write24_target, write24_cfg, write24_draws, hcmd, hpay]
    have hcfg : (write9 d true s.cfg.tRead tt (write24p (opcodeArg s.cfg.opProgram) a s.cfg.tRead s)).cfg = s.cfg := rfl
    generalize write9 d true s.cfg.tRead tt (write24p (opcodeArg s.cfg.opProgram) a s.cfg.tRead s) = u at ht hd hcfg ⊢
    by_cases hn : buf = []
    · subst hn
      exact ⟨_, andedIn_cons hm (andedIn_nil (write_keeps_wf hm _ _) _), by simpa [perByteFrames] using hd,
        by simpa [perByteFrames] using ht⟩
    · obtain ⟨m, hA, b, e⟩ := ih (a + 1) slices { u with rem := u.rem - 1 } (by simpa using h) hn
        (by rw [hsucc]; omega) (by dsimp only; rw [hcfg]; exact hw)
        (by dsimp only; rw [hcfg]; exact hv) (by dsimp only; rw [ht]; exact (inContract_iff _).2 ⟨c1, c2, c3, c4, c5, c6, c7⟩)
        (by dsimp only; rw [ht]; exact write_keeps_wf hm _ _)
        (by
          intro i hi
          dsimp only
          rw [ht, hcfg, hsucc]
          have := ha (i + 1) (by simp; omega)
          simpa [Target.has, Nat.add_assoc, Nat.add_comm, Nat.add_left_comm] using this)
      dsimp only at hA b e
      rw [hcfg, ht, hsucc, hd] at *
      exact ⟨m, andedIn_cons hm hA, b, by
        rw [e, List.length_cons, show a.toNat + 1 + buf.length - 1 = a.toNat + (buf.length + 1) - 1 by omega]⟩

/-! ### Page erases -/

/-- The last bit of a command word is the low bit of its opcode (R91). -/
theorem pack_lsb (o : BitVec 6) {p : Word32} (hp : p.toNat < 262144) :
    (pack (opcodeArg o) p).getLsbD 0 = o.getLsbD 0 := by
  have h := congrArg (fun v => v.getLsbD 0) (wordOpcode_pack o hp)
  simpa [wordOpcode] using h

theorem ofNat32_toNat {e : Nat} (h : e < 262144) : (BitVec.ofNat 32 e).toNat = e := by
  rw [BitVec.toNat_ofNat, Nat.mod_eq_of_lt (by omega)]

/-- The word of a page erase at a natural address of the address space. -/
theorem eraseWord_eq (o : BitVec 6) {e : Nat} (h : e < 262144) :
    pack (opcodeArg o) (BitVec.ofNat 32 e) = commandWord o (BitVec.ofNat 18 e) := by
  rw [pack_eq_commandWord o (by rw [ofNat32_toNat h]; exact h), ofNat32_toNat h]

theorem setWidth18_ofNat32 (e : Nat) : (BitVec.ofNat 32 e).setWidth 18 = BitVec.ofNat 18 e := by
  apply BitVec.eq_of_toNat_eq
  simp only [BitVec.toNat_setWidth, BitVec.toNat_ofNat]
  omega

/-- A run of page erases in every state (R236): one command word and one settle each, the registers left by the last. -/
theorem eraseEach_shape (c : Config) (addrs : List Nat) : ∀ (slices : List Profile) (s : State),
    slices.length = addrs.length → (∀ e ∈ addrs, e < 262144) → ∃ addr txsr bitcnt lines pins draws target,
    runSteps (eraseEach c addrs slices) s = ([], { s with
      addr := addr, txsr := txsr, bitcnt := bitcnt, lines := lines, pins := pins, draws := draws, target := target
      wire := s.wire ++ (addrs.zip slices).flatMap (fun e => eraseTrace c e.1 e.2) }) ∧
    (addrs = [] → addr = s.addr ∧ txsr = s.txsr ∧ bitcnt = s.bitcnt ∧ lines = s.lines) ∧
    (∀ e, addrs.getLast? = some e → addr = BitVec.ofNat 18 e ∧ txsr = commandWord c.opPageErase (BitVec.ofNat 18 e) ∧
      bitcnt = 0 ∧ lines = { s.lines with dat := Level.ofBit (c.opPageErase.getLsbD 0), clk := .low }) := by
  induction addrs with
  | nil =>
    intro slices s h _
    exact ⟨s.addr, s.txsr, s.bitcnt, s.lines, s.pins, s.draws, s.target, by simp [eraseEach], by simp⟩
  | cons a addrs ih =>
    intro slices s h hlt
    obtain ⟨t, slices, rfl⟩ : ∃ t rest, slices = t :: rest := by
      cases slices with
      | nil => simp at h
      | cons t rest => exact ⟨t, rest, rfl⟩
    have ha : a < 262144 := hlt a (by simp)
    have hw := eraseWord_eq c.opPageErase ha
    have hb : (commandWord c.opPageErase (BitVec.ofNat 18 a)).getLsbD 0 = c.opPageErase.getLsbD 0 := by
      rw [← hw]; exact pack_lsb _ (by rw [ofNat32_toNat ha]; exact ha)
    simp only [eraseEach, eraseScript, List.cons_append, List.nil_append, runSteps_cons, Micro.run, setWidth18_ofNat32]
    obtain ⟨addr, txsr, bitcnt, lines, pins, draws, target, hs, h0, h1⟩ := ih slices
      (Machine.settle t (write24p (opcodeArg c.opPageErase) (BitVec.ofNat 32 a) c.tRead { s with addr := BitVec.ofNat 18 a }))
      (by simpa using h) (fun e he => hlt e (by simp [he]))
    refine ⟨addr, txsr, bitcnt, lines, pins, draws, target, ?_, by simp, ?_⟩
    · rw [hs]
      simp [write24p, write24, Machine.settle, emit, emitPins, State.withTarget, eraseTrace, hw]
    · intro e he
      by_cases hn : addrs = []
      · subst hn
        obtain ⟨a1, a2, a3, a4⟩ := h0 rfl
        simp only [List.getLast?_singleton, Option.some.injEq] at he
        subst he
        rw [a1, a2, a3, a4]
        simp only [write24p, Machine.settle, emit_addr, emit_txsr, emit_bitcnt, emit_lines, lines_settle, write24_addr,
          write24_txsr, write24_bitcnt, write24_lines, lines_tx24, hw, hb, and_self]
      · obtain ⟨a1, a2, a3, a4⟩ := h1 e (by rw [← he]; cases addrs with | nil => exact absurd rfl hn | cons b l => simp)
        refine ⟨a1, a2, a3, ?_⟩
        rw [a4]
        simp only [write24p, Machine.settle, emit_lines, lines_settle, write24_lines, lines_tx24, hw, hb]

/-- The memory after page erases at a list of addresses, in order. -/
def erasedPages (c : Config) (t : Target) (addrs : List Nat) (m : Memory) : Memory :=
  addrs.foldl (fun m e => m.erase (t.pageOf c e).1 (t.pageOf c e).2) m

/-- A byte after page erases: erased if some page erased holds it (R75). -/
theorem read_erasedPages (c : Config) (t : Target) (addrs : List Nat) (x : Nat) : ∀ m : Memory,
    (erasedPages c t addrs m).read x =
      if addrs.any (fun e => inRange (t.pageOf c e).1 (t.pageOf c e).2 x) then 0xFF else m.read x := by
  induction addrs with
  | nil => intro m; rfl
  | cons a addrs ih =>
    intro m
    have := ih (m.erase (t.pageOf c a).1 (t.pageOf c a).2)
    simp only [erasedPages] at this ⊢
    rw [List.foldl_cons, this, read_erase, List.any_cons]
    cases inRange (t.pageOf c a).1 (t.pageOf c a).2 x <;> simp

/-- A run of page erases under the contract: the pages of the addresses are erased (R75), and the last address is in
`TPTR` (R37). -/
theorem eraseEach_contract (addrs : List Nat) : ∀ (slices : List Profile) (s : State),
    slices.length = addrs.length → (∀ e ∈ addrs, e < 262144) → s.cfg.valid = true → s.target.inContract = true →
    (∀ e ∈ addrs, s.target.has s.cfg e = true) →
    (runSteps (eraseEach s.cfg addrs slices) s).2.draws = s.draws ∧
    (runSteps (eraseEach s.cfg addrs slices) s).2.target =
      { s.target with
        ptr := addrs.getLast?.getD s.target.ptr, mem := erasedPages s.cfg s.target addrs s.target.mem } := by
  induction addrs with
  | nil => intro slices s h _ _ _ _; exact ⟨by simp [eraseEach], by simp [eraseEach, erasedPages]⟩
  | cons a addrs ih =>
    intro slices s h hlt hv hc hh
    obtain ⟨t, slices, rfl⟩ : ∃ t rest, slices = t :: rest := by
      cases slices with
      | nil => simp at h
      | cons t rest => exact ⟨t, rest, rfl⟩
    have ha : a < 262144 := hlt a (by simp)
    have hcmd := onWord_pageErase (c := s.cfg) (k := s.draws) (t := s.target) hv (p := BitVec.ofNat 32 a)
      (by rw [ofNat32_toNat ha]; exact ha) hc (by rw [ofNat32_toNat ha]; exact hh a (by simp))
    rw [ofNat32_toNat ha] at hcmd
    simp only [eraseEach, eraseScript, List.cons_append, List.nil_append, runSteps_cons, Micro.run]
    obtain ⟨u, hu⟩ : ∃ u, u = Machine.settle t (write24p (opcodeArg s.cfg.opPageErase) (BitVec.ofNat 32 a) s.cfg.tRead
        { s with addr := (BitVec.ofNat 32 a).setWidth 18 }) := ⟨_, rfl⟩
    have ht : u.target =
        { s.target with
          ptr := a, mem := s.target.mem.erase (s.target.pageOf s.cfg a).1 (s.target.pageOf s.cfg a).2 } := by
      simp only [hu, Machine.settle, emit_target, write24p, write24_target, hcmd]
    have hd : u.draws = s.draws := by simp only [hu, Machine.settle, emit_draws, write24p, write24_draws, hcmd]
    have hcfg : u.cfg = s.cfg := by rw [hu]; rfl
    obtain ⟨a1, a2⟩ := ih slices u (by simpa using h) (fun e he => hlt e (by simp [he])) (by rw [hcfg]; exact hv)
      (by rw [ht]; exact hc) (by intro e he; rw [ht, hcfg]; exact hh e (by simp [he]))
    rw [hcfg, hd] at a1
    rw [hcfg, ht] at a2
    rw [← hu]
    refine ⟨a1, a2.trans ?_⟩
    cases addrs with
    | nil => rfl
    | cons b l => rw [List.getLast?_cons_cons]; simp [List.getLast?_cons, erasedPages, Target.pageOf]

end Sys2Proof.Laws
end

