-- ==== Sys2Proof/Laws/Exec.lean ====
section
/-! SUPPORT. The answer of each shared operation form, as the steps it runs: an admitted request completes in the state its steps
leave, with `SEQ` idle and its result. The converse: a completed request was admitted. -/

namespace Sys2Proof.Laws

open Sys2Proof.Machine

/-- A completed request behind `admission` was admissible (R286). -/
theorem admissible_of_next {a n : Nat} {s t : State} {run : Res} (h : guarded (admission a n s) run = .next t) :
    Admissible a n s := admission_eq_none.1 (guarded_eq_next.1 h).1

/-- An operation writes no host-visible register by its steps. -/
theorem perform_quiet (op : Instr) (ms : List Micro) (s : State) : Quiet s (perform op ms s).2 := by
  rw [perform_eq]
  have h := runSteps_quiet ms s
  exact ⟨h.1, h.2, h.3, h.4, h.5, h.6, h.7, h.8, h.9, h.10⟩

/-- A meaning that replies behind its admission: the reply, when admitted. -/
theorem guarded_reply_eq_next {r : Option Refusal} {v : Value} {s t : State} (h : guarded r (reply v s) = .next t) :
    r = none ∧ t = { s with result := some v } := by
  rw [guarded_eq_next, reply_eq_next] at h
  exact ⟨h.1, h.2.symm⟩

theorem eraseAt_next {op : Instr} {a : Word32} {s : State} (h : Admissible a.toNat 1 s) :
    eraseAt op a s =
      .next { (runSteps (eraseScript s.cfg s.cfg.tPageErase a) s).2 with seq := .idle, result := some .unit } := by
  rw [eraseAt, admission_eq_none.2 h, guarded_none, perform_eq]
  rfl

theorem readAt_next {op : Instr} {a : Word32} {n : Nat} {s : State} (h : Admissible a.toNat n s) :
    readAt op a n s = .next { (runSteps (readScript s.cfg a n) s).2 with
      seq := .idle, result := some (.bytes (runSteps (readScript s.cfg a n) s).1) } := by
  rw [readAt, admission_eq_none.2 h, guarded_none, perform_eq]
  rfl

theorem writeAt_next {op : Instr} {a : Word32} {buf : List Byte} {s : State} (h : Admissible a.toNat buf.length s) :
    writeAt op a buf s = .next { (runSteps (writeScript s.cfg a buf) s).2 with seq := .idle, result := some .unit } := by
  rw [writeAt, admission_eq_none.2 h, guarded_none, perform_eq]
  rfl

/-- COMPARE is READ's steps with the flags of the bytes received (R210). -/
theorem compareAt_next {op : Instr} {a : Word32} {buf : List Byte} {s : State} (h : Admissible a.toNat buf.length s) :
    compareAt op a buf s = .next { (runSteps (readScript s.cfg a buf.length) s).2 with
      seq := .idle
      cmp := compareBytes (runSteps (readScript s.cfg a buf.length) s).1 buf
      result := some (.flags (compareBytes (runSteps (readScript s.cfg a buf.length) s).1 buf)) } := by
  rw [compareAt, admission_eq_none.2 h, guarded_none]
  simp only [compared, perform_eq]
  rfl

/-- VERIFY is COMPARE reduced to EQUAL (R241). -/
theorem verifyAt_next {op : Instr} {a : Word32} {buf : List Byte} {s : State} (h : Admissible a.toNat buf.length s) :
    verifyAt op a buf s = .next { (runSteps (readScript s.cfg a buf.length) s).2 with
      seq := .idle
      cmp := compareBytes (runSteps (readScript s.cfg a buf.length) s).1 buf
      result := some (.bool (equal (compareBytes (runSteps (readScript s.cfg a buf.length) s).1 buf))) } := by
  rw [verifyAt, admission_eq_none.2 h, guarded_none]
  simp only [compared, perform_eq]
  rfl

theorem execEnter_next (s : State) : execEnter s =
    .next { enterFinish ((runSteps (enterScript s.cfg) s).1.getD 0 0) ((runSteps (enterScript s.cfg) s).1.getD 1 0)
        ((runSteps (enterScript s.cfg) s).1.getD 2 0) { (runSteps (enterScript s.cfg) s).2 with seq := .idle } with
      result := some (.byte ((runSteps (enterScript s.cfg) s).1.getD 0 0)) } := by
  simp only [execEnter, perform_eq, reply]

theorem execExit_next (s : State) : execExit s =
    .next { (runSteps (exitScript s.cfg s.sess) s).2 with
      seq := .idle, idValid := false, sess := .disconnected, result := some .unit } := by
  simp only [execExit, perform_eq, reply]

theorem execLocked_next {s : State} (h : s.sess = .entered) : execLocked s =
    .next { (lockQuery s).2 with
      seq := .idle, result := some (.bool (s.target.lockAnswer s.cfg s.draws).1) } := by
  simp only [execLocked, admitSession, h, ne_eq, not_true_eq_false, if_false, guarded_none, perform_eq, lockedScript,
    runSteps_cons, runSteps_nil, Micro.run, reply]

theorem execMassErase_next {s : State} (h : s.sess = .entered) : execMassErase s =
    .next { (runSteps (massEraseScript s.cfg) s).2 with seq := .idle, result := some .unit } := by
  simp only [execMassErase, admitSession, h, ne_eq, not_true_eq_false, if_false, guarded_none, perform_eq, reply]

theorem execFlashErase_next {a : Word32} {n : Nat} {s : State} (h : Admissible a.toNat n s) : execFlashErase a n s =
    .next { (runSteps (flashEraseScript s.cfg s.did a n) s).2 with seq := .idle, result := some .unit } := by
  rw [execFlashErase, admission_eq_none.2 h, guarded_none, perform_eq]
  rfl

/-- A Config wrapper with a buffer of five bytes is what stands behind its length check (R230, R287). -/
theorem configGuard_eq {buf : List Byte} (hl : buf.length = 5) (s : State) (v : Value) (u : State) :
    guarded (admitConfigBuffer buf s) (guarded (admission (configAddress s.cfg).toNat buf.length s) (reply v u)) =
      guarded (admission (configAddress s.cfg).toNat buf.length s) (reply v u) := by
  have hc : buf.length = configLen := hl
  rw [configAddress_toNat]
  cases h : s.sess with
  | disconnected => simp [admitConfigBuffer, admission, h]
  | entered =>
    rw [admitConfigBuffer, if_neg (not_not.2 h), if_neg (not_not.2 hc), hc]
    cases admission s.cfg.configBase.toNat configLen s <;> rfl

/-- A range of the memory equals a buffer byte by byte. -/
theorem slice_eq_iff {m : Memory} {a : Nat} {buf : List Byte} :
    m.slice a buf.length = buf ↔ ∀ i < buf.length, m.read (a + i) = buf.getD i 0 := by
  constructor
  · intro h i hi
    conv_rhs => rw [← h]
    simp [Memory.slice, hi]
  · intro h
    apply List.ext_getElem
    · simp [Memory.slice]
    · intro i h1 h2
      simp only [Memory.slice, List.getElem_map, List.getElem_range]
      rw [h i h2]
      simp [h2]

/-! ### The lock query's calls -/

/-- What the calls of the lock query leave: the frame trace, the address and length registers, the target and RST. -/
theorem lockCalls_frame (calls : List LockCall) : ∀ s : State,
    (calls.foldl lockCall s).wire = s.wire ∧ (calls.foldl lockCall s).addr = s.addr ∧
    (calls.foldl lockCall s).rem = s.rem ∧ (calls.foldl lockCall s).target = s.target ∧
    (calls.foldl lockCall s).lines.rst = s.lines.rst := by
  induction calls with
  | nil => intro s; exact ⟨rfl, rfl, rfl, rfl, rfl⟩
  | cons call calls ih =>
    intro s
    obtain ⟨h1, h2, h3, h4, h5⟩ := ih (lockCall s call)
    rw [List.foldl_cons, h1, h2, h3, h4, h5]
    cases call with
    | write24 w t => exact ⟨rfl, rfl, rfl, rfl, by simp [lockCall]⟩
    | read9 last t => exact ⟨rfl, rfl, rfl, rfl, by simp [lockCall]⟩
    | tiktok setup hold => exact ⟨rfl, rfl, rfl, rfl, rfl⟩

/-- The calls of the lock query leave a session's lines agreeing (R32). -/
theorem lockCalls_lines (calls : List LockCall) : ∀ s : State, s.lines.clk = .low → s.lines.dat ≠ .z →
    (calls.foldl lockCall s).lines.clk = .low ∧ (calls.foldl lockCall s).lines.dat ≠ .z := by
  induction calls with
  | nil => intro s h1 h2; exact ⟨h1, h2⟩
  | cons call calls ih =>
    intro s h1 h2
    rw [List.foldl_cons]
    cases call with
    | write24 w t => apply ih <;> simp [lockCall, ofBit_ne_z]
    | read9 last t => apply ih <;> simp [lockCall]
    | tiktok setup hold => exact ih _ rfl h2

/-- The lines of a session when ENTER has run (R32, R43). -/
theorem enterScript_lines {s : State} (h : s.cfg.resetLiteral ≠ []) :
    linesAgree .entered (runSteps (enterScript s.cfg) s).2.lines := by
  have hl : (s.cfg.resetLiteral.getLast?.map Level.ofBit).getD s.lines.rst ≠ .z := by
    rw [List.getLast?_eq_some_getLast h]
    exact ofBit_ne_z _
  simp [linesAgree, enterScript, runSteps_cons, Micro.run, write24p, drive, lines_resetPulse_last, hl]

/-- The lines when EXIT has run (R32, R43). -/
theorem exitScript_lines (s : State) : linesAgree .disconnected (runSteps (exitScript s.cfg s.sess) s).2.lines := by
  simp only [linesAgree, exitScript]
  split <;> simp [runSteps_cons, Micro.run, drive, release]

end Sys2Proof.Laws
end

