-- ==== Sys2Proof/Laws/Disrupt.lean ====
section
/-! SUPPORT. What a disruption can do (R320): a prefix of an operation writes no host-visible register and no constant of the target,
whatever it cuts through, and the bytes it could have changed are the only ones that become draws. -/

namespace Sys2Proof.Laws

open Sys2Proof.Machine

/-- A state with the same host-visible registers and the same target is quiet. -/
theorem cutFrame_quiet (len : Nat) (evs : List PinEvent) (s : State) : Quiet s (cutFrame len evs s) :=
  ⟨rfl, rfl, rfl, rfl, rfl, rfl, rfl, rfl, rfl, keeps_refl _⟩

theorem emitPins_quiet (evs : List PinEvent) (s : State) : Quiet s (emitPins evs s) :=
  ⟨rfl, rfl, rfl, rfl, rfl, rfl, rfl, rfl, rfl, keeps_refl _⟩

/-- The target moves by something that keeps its constants and canonical form. -/
theorem withTarget_quiet {s : State} {r : Target × Nat} (h : keeps s.target r.1) : Quiet s (s.withTarget r) :=
  ⟨rfl, rfl, rfl, rfl, rfl, rfl, rfl, rfl, rfl, h⟩

theorem strayUnless_quiet (expected : Bool) (s : State) : Quiet s (s.strayUnless expected) := by
  unfold State.strayUnless
  split
  · exact Quiet.refl s
  · exact withTarget_quiet (outside_keeps _ _ _)

@[simp] theorem strayUnless_true (s : State) : s.strayUnless true = s := rfl

/-- Working registers set besides. -/
theorem Quiet.registers {s t : State} (h : Quiet s t) (txsr : Word24) (rxsr : Frame9) (bitcnt : BitVec 5) (draws : Nat) :
    Quiet s { t with txsr := txsr, rxsr := rxsr, bitcnt := bitcnt, draws := draws } :=
  ⟨h.1, h.2, h.3, h.4, h.5, h.6, h.7, h.8, h.9, h.10⟩

theorem cutWord_quiet (n : Nat) (w : Word24) (t : Profile) (s : State) : Quiet s (cutWord n w t s) := by
  have h := (strayUnless_quiet (s.target.expectsWord s.cfg w) s).trans (cutFrame_quiet 24 ((WireEvent.tx24 w t).pins.take n) _)
  exact h.registers _ _ _ _

theorem cutReceive_quiet (n : Nat) (last : Bool) (t : Profile) (s : State) : Quiet s (cutReceive n last t s) := by
  simp only [cutReceive]
  refine (Quiet.trans ?_ (cutFrame_quiet 9 _ _)).registers _ _ _ _
  generalize hs : State.strayUnless _ _ = u
  have hu : Quiet s u := hs ▸ (sampleBits_quiet _ s).trans (strayUnless_quiet _ _)
  split
  · exact hu.trans (withTarget_quiet (trailerPulse_keeps _ _ _ _))
  · exact hu

theorem cutRespond_quiet (n : Nat) (d : Byte) (last : Bool) (t : Profile) (s : State) : Quiet s (cutRespond n d last t s) :=
  ((withTarget_quiet (respondPart_keeps _ _ _ _ _ _)).trans (cutFrame_quiet 9 _ _)).registers _ _ _ _

theorem cutPayload_quiet (n : Nat) (d : Byte) (last : Bool) (tb tt : Profile) (s : State) :
    Quiet s (cutPayload n d last tb tt s) := by
  simp only [cutPayload]
  refine Quiet.trans ?_ (cutFrame_quiet 9 _ _)
  split
  · exact withTarget_quiet (onPayload_keeps _ _ _ _ _)
  · exact strayUnless_quiet _ s

theorem callPart_quiet (n : Nat) (call : LockCall) (s : State) : Quiet s (callPart n call s) := by
  cases call <;> exact ⟨rfl, rfl, rfl, rfl, rfl, rfl, rfl, rfl, rfl, keeps_refl _⟩

theorem cutCalls_quiet (calls : List LockCall) : ∀ (n : Nat) (s : State), Quiet s (cutCalls n calls s) := by
  induction calls with
  | nil => intro n s; exact Quiet.refl s
  | cons call calls ih =>
    intro n s
    simp only [cutCalls]
    split
    · exact Quiet.trans (by cases call <;> exact ⟨rfl, rfl, rfl, rfl, rfl, rfl, rfl, rfl, rfl, keeps_refl _⟩) (ih _ _)
    · split
      · exact Quiet.refl s
      · exact callPart_quiet _ _ _

/-- A part of a step writes no host-visible register. -/
theorem part_quiet (n : Nat) (m : Micro) (s : State) : Quiet s (m.part n s) := by
  cases m with
  | word w t => exact cutWord_quiet n w t s
  | command o p t => exact cutWord_quiet n _ t s
  | receive last t => exact cutReceive_quiet n last t s
  | payload d last tb tt => exact cutPayload_quiet n d last tb tt s
  | respond d last t => exact cutRespond_quiet n d last t s
  | lockQuery => exact (strayUnless_quiet _ s).trans (cutCalls_quiet _ _ _)
  | bitIn t =>
    refine Quiet.trans ?_ (emitPins_quiet _ _)
    exact Quiet.trans (t := { s with draws := (sampleBit s.lines.dat s).2.draws })
      ⟨rfl, rfl, rfl, rfl, rfl, rfl, rfl, rfl, rfl, keeps_refl _⟩ (strayUnless_quiet _ _)
  | resetPulse => exact ⟨rfl, rfl, rfl, rfl, rfl, rfl, rfl, rfl, rfl, onReset_keeps _⟩
  | setAddr _ => exact Quiet.refl s
  | setRem _ => exact Quiet.refl s
  | decRem => exact Quiet.refl s
  | drive => exact emitPins_quiet _ s
  | settle _ => exact emitPins_quiet _ s
  | release => exact emitPins_quiet _ s
  | pulse _ _ => exact emitPins_quiet _ s

/-- A prefix of a list of steps ends between two of them or inside one: what holds there holds of the prefix. -/
theorem cutScript_induct {P : List Micro → State → Prop} {Q : State → Prop}
    (run : ∀ m ms s, P (m :: ms) s → P ms { (m.run s).2 with seq := (m.run s).2.seq.advance m })
    (stop : ∀ ms s, P ms s → Q s) (part : ∀ n m ms s, P (m :: ms) s → Q (m.part n s)) :
    ∀ (ms : List Micro) (n : Nat) (s : State), P ms s → Q (cutScript n ms s) := by
  intro ms
  induction ms with
  | nil => intro n s h; exact stop _ _ h
  | cons m ms ih =>
    intro n s h
    simp only [cutScript]
    split
    · exact ih _ _ (run _ _ _ h)
    · split
      · exact stop _ _ h
      · exact part _ _ _ _ h

/-- A prefix of a list of steps writes no host-visible register. -/
theorem cutScript_quiet (ms : List Micro) (n : Nat) (s : State) : Quiet s (cutScript n ms s) :=
  cutScript_induct (P := fun _ t => Quiet s t) (Q := Quiet s)
    (fun m _ t h => by
      have hr := h.trans (run_quiet m t)
      exact ⟨hr.1, hr.2, hr.3, hr.4, hr.5, hr.6, hr.7, hr.8, hr.9, hr.10⟩)
    (fun _ _ h => h) (fun n m _ t h => h.trans (part_quiet n m t)) ms n s (Quiet.refl s)

/-! ### The bytes that become draws -/

/-- A byte after whole ranges have become draws: it is in none of them, or a draw. -/
theorem read_redrawn (k : Nat) (ranges : List (Nat × Nat)) (x : Nat) : ∀ {m : Memory}, m.wf = true →
    (∀ r ∈ ranges, ¬ (r.1 ≤ x ∧ x < r.1 + r.2)) →
    (ranges.foldl (fun m r => Memory.fill (Config.drawMem k) r.1 r.2 m) m).read x = m.read x := by
  induction ranges with
  | nil => intro m _ _; rfl
  | cons r ranges ih =>
    intro m h hx
    rw [List.foldl_cons, ih (fill_keeps_wf _ _ h _) (fun q hq => hx q (by simp [hq])), read_fill _ _ h,
      if_neg (by rw [inRange_iff]; exact hx r (by simp))]

theorem redrawn_wf (k : Nat) (ranges : List (Nat × Nat)) : ∀ {m : Memory}, m.wf = true →
    (ranges.foldl (fun m r => Memory.fill (Config.drawMem k) r.1 r.2 m) m).wf = true := by
  induction ranges with
  | nil => intro m h; exact h
  | cons r ranges ih => intro m h; exact ih (fill_keeps_wf _ _ h _)

/-- A disruption leaves a memory in canonical form. -/
theorem apply_keeps_wf (k : Nat) (before : Memory) {m : Memory} (h : m.wf = true) (touch : Touch) :
    (touch.apply k before m).wf = true := by
  cases touch with
  | nothing => exact h
  | redraw ranges => exact redrawn_wf k ranges h
  | lower a n => exact fill_keeps_wf _ _ h n

/-- A byte after a disrupted WRITE: inside the range a draw below what it was before, outside as the prefix left it. -/
theorem read_lowered (k : Nat) (before : Memory) {m : Memory} (h : m.wf = true) (a n x : Nat) :
    ((Touch.lower a n).apply k before m).read x =
      if a ≤ x ∧ x < a + n then Config.drawMem k x &&& before.read x else m.read x := by
  simp only [Touch.apply]
  rw [read_fill _ _ h]
  simp only [inRange_iff]

/-- A stopped operation writes no host-visible register and no constant of the target, and its target's mode is unknown. -/
theorem stopped_keeps (op : Instr) (p : Plan) (n : Nat) (s : State) :
    (stopped op p n s).cfg = s.cfg ∧ (stopped op p n s).sess = s.sess ∧ (stopped op p n s).cid = s.cid ∧
    (stopped op p n s).did = s.did ∧ (stopped op p n s).idValid = s.idValid ∧ (stopped op p n s).cmp = s.cmp ∧
    (stopped op p n s).result = s.result ∧ (stopped op p n s).port = s.port ∧ (stopped op p n s).disrupt = s.disrupt ∧
    keeps s.target (stopped op p n s).target ∧ (stopped op p n s).target.mode = .unknown := by
  have h := cutScript_quiet p.script n { s with seq := .running op 0 0 0 }
  exact ⟨h.1, h.2, h.3, h.4, h.5, h.6, h.7, h.8, h.9,
    ⟨h.10.1, fun hw => apply_keeps_wf _ _ (h.10.2 hw) _⟩, rfl⟩

/-! ### A prefix of an erase or a write under the contract -/

/-- A command of a ready target is expected (R99). -/
theorem expectsWord_command {c : Config} {t : Target} (hv : c.valid = true) (hr : t.ready = true) {o : BitVec 6} {p : Word32}
    (hp : p.toNat < 262144) (ho : o ∈ [c.opProgram, c.opPageErase, c.opMassErase]) :
    t.expectsWord c (pack (opcodeArg o) p) = true := by
  simp only [Target.expectsWord, hr, Bool.true_and, Bool.or_eq_true]
  right
  obtain ⟨-, -, -, h4, h5, h6⟩ := classify_pack (c := c) hv hp
  simp only [List.mem_cons, List.not_mem_nil, or_false] at ho
  rcases ho with rfl | rfl | rfl
  · rw [h4]; rfl
  · rw [h5]; rfl
  · rw [h6]; rfl

/-- A part of an expected word does nothing to the target. -/
theorem cutWord_expected {n : Nat} {w : Word24} {t : Profile} {s : State} (h : s.target.expectsWord s.cfg w = true) :
    (cutWord n w t s).target = s.target := by
  simp [cutWord, h, cutFrame]

/-- The addresses that `X` holds of are in no page that an erase at `e` clears, and `e` is an address of the target. -/
def SparedBy (c : Config) (t : Target) (X : Nat → Prop) (e : Nat) : Prop :=
  e < 262144 ∧ t.has c e = true ∧ ∀ x, X x → inRange (t.pageOf c e).1 (t.pageOf c e).2 x = false

/-- Where a run of page erases stands: the contract is in force, the pages are those of `t`, and the bytes of `X` are as before. -/
structure Erasing (c : Config) (t : Target) (X : Nat → Prop) (s : State) : Prop where
  cfg   : s.cfg = c
  ready : s.target.inContract = true
  page  : s.target.page = t.page
  flash : s.target.flash = t.flash
  kept  : ∀ x, X x → s.target.mem.read x = t.mem.read x

/-- What is left of a run of page erases. -/
def eraseRest (c : Config) (t : Target) (X : Nat → Prop) (ms : List Micro) : Prop :=
  ∃ addrs slices, (∀ e ∈ addrs, SparedBy c t X e) ∧ (ms = eraseEach c addrs slices ∨
    (∃ a p, SparedBy c t X a ∧
      ms = .command c.opPageErase (BitVec.ofNat 32 a) c.tRead :: .settle p :: eraseEach c addrs slices) ∨
    ∃ p, ms = .settle p :: eraseEach c addrs slices)

/-- A prefix of a run of page erases spares every byte that the pages of its addresses do not hold (R75, R320). -/
theorem eraseEach_cut {c : Config} (hv : c.valid = true) {t : Target} {X : Nat → Prop} {ms : List Micro} (n : Nat) {s : State}
    (he : Erasing c t X s) (hr : eraseRest c t X ms) : ∀ x, X x → (cutScript n ms s).target.mem.read x = t.mem.read x := by
  refine cutScript_induct (P := fun ms s => Erasing c t X s ∧ eraseRest c t X ms)
    (Q := fun s => ∀ x, X x → s.target.mem.read x = t.mem.read x) ?_ (fun ms s h => h.1.kept) ?_ ms n s ⟨he, hr⟩
  · rintro m ms s ⟨he, addrs, slices, ha, h | ⟨a, p, ⟨o1, o2, o3⟩, h⟩ | ⟨p, h⟩⟩
    · cases addrs with
      | nil => simp [eraseEach] at h
      | cons a addrs =>
        cases slices with
        | nil => simp [eraseEach] at h
        | cons p slices =>
          simp only [eraseEach, eraseScript, List.cons_append, List.nil_append, List.cons.injEq] at h
          obtain ⟨rfl, rfl⟩ := h
          exact ⟨⟨he.cfg, he.ready, he.page, he.flash, he.kept⟩, addrs, slices, fun e h => ha e (by simp [h]),
            .inr (.inl ⟨a, p, ha a (by simp), rfl⟩)⟩
    · simp only [List.cons.injEq] at h
      obtain ⟨rfl, rfl⟩ := h
      have hcmd := onWord_pageErase (c := s.cfg) (k := s.draws) (t := s.target) (by rw [he.cfg]; exact hv)
        (p := BitVec.ofNat 32 a) (by rw [ofNat32_toNat o1]; exact o1) he.ready
        (by rw [ofNat32_toNat o1, he.cfg]; simpa [Target.has, he.flash] using o2)
      rw [ofNat32_toNat o1, he.cfg] at hcmd
      have ht : (Micro.run (.command c.opPageErase (BitVec.ofNat 32 a) c.tRead) s).2.target = { s.target with
          ptr := a, mem := s.target.mem.erase (s.target.pageOf c a).1 (s.target.pageOf c a).2 } := by
        simp only [Micro.run, write24p, write24_target, he.cfg, hcmd]
      refine ⟨⟨he.cfg, ?_, ?_, ?_, ?_⟩, addrs, slices, ha, .inr (.inr ⟨p, rfl⟩)⟩
      · dsimp only; rw [ht]; exact he.ready
      · dsimp only; rw [ht]; exact he.page
      · dsimp only; rw [ht]; exact he.flash
      · intro x hx
        have hp : s.target.pageOf c a = t.pageOf c a := by simp [Target.pageOf, he.flash, he.page]
        dsimp only
        rw [ht, read_erase, hp, o3 x hx]
        exact he.kept x hx
    · simp only [List.cons.injEq] at h
      obtain ⟨rfl, rfl⟩ := h
      exact ⟨⟨he.cfg, he.ready, he.page, he.flash, he.kept⟩, addrs, slices, ha, .inl rfl⟩
  · rintro n m ms s ⟨he, addrs, slices, ha, h | ⟨a, p, ⟨o1, -, -⟩, h⟩ | ⟨p, h⟩⟩
    · cases addrs with
      | nil => simp [eraseEach] at h
      | cons a addrs =>
        cases slices with
        | nil => simp [eraseEach] at h
        | cons p slices =>
          simp only [eraseEach, eraseScript, List.cons_append, List.nil_append, List.cons.injEq] at h
          obtain ⟨rfl, rfl⟩ := h
          exact he.kept
    · simp only [List.cons.injEq] at h
      obtain ⟨rfl, rfl⟩ := h
      simp only [Micro.part]
      rw [cutWord_expected (by
        rw [he.cfg]
        exact expectsWord_command hv (Bool.and_eq_true_iff.1 he.ready).1 (by rw [ofNat32_toNat o1]; exact o1) (by simp))]
      exact he.kept
    · simp only [List.cons.injEq] at h
      obtain ⟨rfl, rfl⟩ := h
      exact he.kept

/-- A memory in canonical form that differs from another at most in a range. -/
def KeptOutside (a n : Nat) (m m' : Memory) : Prop :=
  m'.wf = true ∧ ∀ x, ¬ (a ≤ x ∧ x < a + n) → m'.read x = m.read x

theorem KeptOutside.write {a n x : Nat} {m m' : Memory} (h : KeptOutside a n m m') (hx : a ≤ x ∧ x < a + n) (d : Byte) :
    KeptOutside a n m (m'.write x d) :=
  ⟨write_keeps_wf h.1 _ _, fun y hy => by rw [read_write h.1, if_neg (by omega)]; exact h.2 y hy⟩

/-- A prefix of a program burst (R74, R320). -/
theorem payloadFrames_cut {c : Config} (hw : c.writeMode = .burst) {m : Memory} {lo len : Nat} (tb : Profile) (buf : List Byte) :
    ∀ (slices : List Profile) (n : Nat) (s : State), s.cfg = c → Programming s.target →
      KeptOutside lo len m s.target.mem → lo ≤ s.target.ptr → s.target.ptr + buf.length ≤ lo + len →
      (∀ i < buf.length, s.target.has c (s.target.ptr + i) = true) →
      KeptOutside lo len m (cutScript n (payloadFrames tb buf slices) s).target.mem := by
  induction buf with
  | nil => intro slices n s _ _ hm _ _ _; simpa [payloadFrames, cutScript] using hm
  | cons d buf ih =>
    intro slices n s hc hp hm h1 h2 ha
    cases slices with
    | nil => simpa [payloadFrames, cutScript] using hm
    | cons tt slices =>
    simp only [List.length_cons] at h2 ha
    have h0 : s.target.has c s.target.ptr = true := by simpa using ha 0 (by omega)
    have hpay := hp.payload (k := s.draws) (d := d) (last := buf.isEmpty) h0
    rw [if_pos hw] at hpay
    have hwm := hm.write (x := s.target.ptr) ⟨h1, by omega⟩ (s.target.mem.read s.target.ptr &&& d)
    simp only [payloadFrames, cutScript]
    split
    · have hw9 : KeptOutside lo len m (Micro.run (.payload d buf.isEmpty tb tt) s).2.target.mem := by
        simp only [Micro.run, write9_target, hc, hpay]; exact hwm
      split
      · by_cases hn : buf = []
        · subst hn
          simp only [payloadFrames, cutScript, Micro.run, write9_target, hc, hpay]
          exact hwm
        · have he : buf.isEmpty = false := by simpa using hn
          rw [he] at hpay
          refine ih _ _ _ hc ?_ ?_ ?_ ?_ ?_
          all_goals simp only [Micro.run, he, write9_target, hc, hpay]
          · exact ⟨hp.live, hp.unlock, rfl, hp.frame⟩
          · exact hwm
          · omega
          · omega
          · intro i hi
            have := ha (i + 1) (by omega)
            simpa [Target.has, Nat.add_assoc, Nat.add_comm, Nat.add_left_comm] using this
      · split <;> exact hw9
    · split
      · exact hm
      · simp only [Micro.part, cutPayload, cutFrame, emitPins_target]
        split
        · simp only [withTarget_target, hc, hpay]; exact hwm
        · rw [show s.target.takesByte s.cfg = true by
            simp [Target.takesByte, hp.live, hp.frame, hp.burst, hp.unlock, hc, h0]]
          exact hm

/-- A prefix of the pairs of command word and payload of per-byte mode (R74, R320). -/
theorem perByteFrames_cut {c : Config} (hv : c.valid = true) (hw : c.writeMode = .perByte) {m : Memory} {lo len : Nat}
    (buf : List Byte) : ∀ (a : Word32) (slices : List Profile) (n : Nat) (s : State), s.cfg = c →
      s.target.inContract = true → KeptOutside lo len m s.target.mem → lo ≤ a.toNat → a.toNat + buf.length ≤ lo + len →
      a.toNat + buf.length ≤ 262144 → (∀ i < buf.length, s.target.has c (a.toNat + i) = true) →
      KeptOutside lo len m (cutScript n (perByteFrames c a buf slices) s).target.mem := by
  induction buf with
  | nil => intro a slices n s _ _ hm _ _ _ _; simpa [perByteFrames, cutScript] using hm
  | cons d buf ih =>
    intro a slices n s hc hct hm h1 h2 hfit ha
    cases slices with
    | nil => simpa [perByteFrames, cutScript] using hm
    | cons tt slices =>
    simp only [List.length_cons] at h2 ha hfit
    have hsucc := word32_succ_toNat (a := a) (by omega)
    obtain ⟨c1, c2, c3, c4, c5, c6, c7⟩ := (inContract_iff _).1 hct
    have hcmd := onWord_program (c := s.cfg) (k := s.draws) (t := s.target) (by rw [hc]; exact hv) (p := a) (by omega) hct
    rw [hc] at hcmd
    have hprog : Programming { s.target with ptr := a.toNat, burst := .program } :=
      ⟨by simp [Target.live, c1, c2, c3, c7], c6, rfl, c5⟩
    have h0 : Target.has c { s.target with ptr := a.toNat, burst := .program } a.toNat = true := by
      simpa [Target.has] using ha 0 (by omega)
    have hpay := fun k => hprog.payload (k := k) (d := d) (last := true) h0
    have hwm := hm.write (x := a.toNat) ⟨h1, by omega⟩ (s.target.mem.read a.toNat &&& d)
    simp only [perByteFrames, cutScript]
    split
    · have ht : (Micro.run (.command c.opProgram a c.tRead) s).2.target =
          { s.target with ptr := a.toNat, burst := .program } := by
        simp only [Micro.run, write24p, write24_target, hc, hcmd]
      have hcf : (Micro.run (.command c.opProgram a c.tRead) s).2.cfg = c := hc
      generalize (Micro.run (.command c.opProgram a c.tRead) s).2 = u at ht hcf ⊢
      split
      · have ht2 : (Micro.run (.payload d true c.tRead tt)
            { u with seq := u.seq.advance (.command c.opProgram a c.tRead) }).2.target =
            { s.target with
              ptr := a.toNat, burst := .idle, mem := s.target.mem.write a.toNat (s.target.mem.read a.toNat &&& d) } := by
          simp only [Micro.run, write9_target, hcf, ht, hpay u.draws, hw]
          rfl
        have hcf2 : (Micro.run (.payload d true c.tRead tt)
            { u with seq := u.seq.advance (.command c.opProgram a c.tRead) }).2.cfg = c := hcf
        generalize (Micro.run (.payload d true c.tRead tt)
            { u with seq := u.seq.advance (.command c.opProgram a c.tRead) }).2 = v at ht2 hcf2 ⊢
        split
        · refine ih _ _ _ _ hcf2 ?_ ?_ (by rw [hsucc]; omega) (by rw [hsucc]; omega) (by rw [hsucc]; omega) ?_
          · dsimp only [Micro.run]; rw [ht2]; exact (inContract_iff _).2 ⟨c1, c2, c3, rfl, c5, c6, c7⟩
          · dsimp only [Micro.run]; rw [ht2]; exact hwm
          · intro i hi
            dsimp only [Micro.run]
            rw [ht2, hsucc]
            have := ha (i + 1) (by omega)
            simpa [Target.has, Nat.add_assoc, Nat.add_comm, Nat.add_left_comm] using this
        · split <;> (dsimp only [Micro.part]; rw [ht2]; exact hwm)
      · split
        · dsimp only; rw [ht]; exact hm
        · simp only [Micro.part, cutPayload, cutFrame, emitPins_target]
          split
          · simp only [withTarget_target, hcf, ht, hpay]; exact hwm
          · rw [show u.target.takesByte u.cfg = true by
              rw [hcf, ht]
              simp only [Target.takesByte, hprog.live]
              simpa [c5, c6] using h0]
            simp only [strayUnless_true, ht]
            exact hm
    · split
      · exact hm
      · simp only [Micro.part]
        rw [cutWord_expected (by
          rw [hc]; exact expectsWord_command hv (Bool.and_eq_true_iff.1 hct).1 (by omega) (by simp))]
        exact hm

/-- A prefix of a WRITE under the contract changes no byte outside its range, in either mode (R74, R320). -/
theorem writeScript_cut {s : State} (hv : s.cfg.valid = true) (hct : s.target.inContract = true) (hm : s.target.mem.wf = true)
    {a : Word32} {buf : List Byte} (hfit : a.toNat + buf.length ≤ 262144) (hlt : a.toNat < 262144)
    (hcov : s.target.covers s.cfg a.toNat buf.length) (n : Nat) (q : Seq) :
    KeptOutside a.toNat buf.length s.target.mem (cutScript n (writeScript s.cfg a buf) { s with seq := q }).target.mem := by
  have h0 : KeptOutside a.toNat buf.length s.target.mem s.target.mem := ⟨hm, fun _ _ => rfl⟩
  have ha : ∀ i < buf.length, s.target.has s.cfg (a.toNat + i) = true := fun i hi => covers_has hcov hi
  obtain ⟨c1, c2, c3, -, c5, c6, c7⟩ := (inContract_iff _).1 hct
  have hcmd := onWord_program (c := s.cfg) (k := s.draws) (t := s.target) hv (p := a) hlt hct
  have part : ∀ k (u : State), u.target = s.target → u.cfg = s.cfg → KeptOutside a.toNat buf.length s.target.mem
      (cutWord k (pack (opcodeArg s.cfg.opProgram) a) s.cfg.tRead u).target.mem := by
    intro k u h1 h2
    rw [cutWord_expected (by
      rw [h1, h2]; exact expectsWord_command hv (Bool.and_eq_true_iff.1 hct).1 hlt (by simp)), h1]
    exact h0
  simp only [writeScript, cutScript]
  split
  · split
    · split
      · rename_i hw
        simp only [cutScript]
        split
        · refine payloadFrames_cut hw _ _ _ _ _ rfl ?_ ?_ ?_ ?_ ?_
          all_goals simp only [Micro.run, write24p, write24_target, hcmd]
          · exact ⟨by simp [Target.live, c1, c2, c3, c7], c6, rfl, c5⟩
          · exact h0
          · omega
          · omega
          · intro i hi; simpa [Target.has] using ha i hi
        · split
          · exact h0
          · simp only [Micro.part]
            exact part _ _ rfl rfl
      · exact perByteFrames_cut hv (by assumption) _ _ _ _ _ rfl hct h0 (Nat.le_refl _) (Nat.le_refl _) hfit ha
    · split <;> exact h0
  · split <;> exact h0

end Sys2Proof.Laws
end

