-- ==== Sys2Proof/Laws/PerInstr.lean ====
section
/-! SUPPORT. Per instruction: the form of request the encoder spells it with agrees with the table's classification of it. -/

namespace Sys2Proof.Laws

/-- The request form of an instruction: a host operation is a packet, a wire word a word, and every other row a frame or a call
(R101, R98, R106). -/
def RequestForm.Statement (i : Instr) : Prop :=
  ∀ c : Config, match encode c i with
    | .packet _ => i.isHostOp = true ∧ i.isWireWord = false
    | .word _ => i.isHostOp = false ∧ i.isWireWord = true
    | .response _ => i.isHostOp = false ∧ i.isWireWord = false
    | .payload _ => i.isHostOp = false ∧ i.isWireWord = false
    | .call _ => i.isHostOp = false ∧ i.isWireWord = false

theorem RequestForm.cmdReadCid : RequestForm.Statement (.cmdReadCid) := fun _ => ⟨rfl, rfl⟩
theorem RequestForm.cmdReadDid : RequestForm.Statement (.cmdReadDid) := fun _ => ⟨rfl, rfl⟩
theorem RequestForm.cmdRead (a : Addr18) : RequestForm.Statement (.cmdRead a) := fun _ => ⟨rfl, rfl⟩
theorem RequestForm.cmdProgram (a : Addr18) : RequestForm.Statement (.cmdProgram a) := fun _ => ⟨rfl, rfl⟩
theorem RequestForm.cmdPageErase (a : Addr18) : RequestForm.Statement (.cmdPageErase a) := fun _ => ⟨rfl, rfl⟩
theorem RequestForm.cmdMassErase : RequestForm.Statement (.cmdMassErase) := fun _ => ⟨rfl, rfl⟩
theorem RequestForm.enterWord : RequestForm.Statement (.enterWord) := fun _ => ⟨rfl, rfl⟩
theorem RequestForm.exitWord : RequestForm.Statement (.exitWord) := fun _ => ⟨rfl, rfl⟩
theorem RequestForm.resp9 (d : Byte) (last : Bool) : RequestForm.Statement (.resp9 d last) := fun _ => ⟨rfl, rfl⟩
theorem RequestForm.pay9 (d : Byte) (last : Bool) : RequestForm.Statement (.pay9 d last) := fun _ => ⟨rfl, rfl⟩
theorem RequestForm.enter : RequestForm.Statement (.enter) := fun _ => ⟨rfl, rfl⟩
theorem RequestForm.exit : RequestForm.Statement (.exit) := fun _ => ⟨rfl, rfl⟩
theorem RequestForm.locked : RequestForm.Statement (.locked) := fun _ => ⟨rfl, rfl⟩
theorem RequestForm.deviceId : RequestForm.Statement (.deviceId) := fun _ => ⟨rfl, rfl⟩
theorem RequestForm.pageSize : RequestForm.Statement (.pageSize) := fun _ => ⟨rfl, rfl⟩
theorem RequestForm.flashSize : RequestForm.Statement (.flashSize) := fun _ => ⟨rfl, rfl⟩
theorem RequestForm.massErase : RequestForm.Statement (.massErase) := fun _ => ⟨rfl, rfl⟩
theorem RequestForm.configErase : RequestForm.Statement (.configErase) := fun _ => ⟨rfl, rfl⟩
theorem RequestForm.configRead : RequestForm.Statement (.configRead) := fun _ => ⟨rfl, rfl⟩
theorem RequestForm.configWrite (buf : List Byte) : RequestForm.Statement (.configWrite buf) := fun _ => ⟨rfl, rfl⟩
theorem RequestForm.configCompare (buf : List Byte) : RequestForm.Statement (.configCompare buf) := fun _ => ⟨rfl, rfl⟩
theorem RequestForm.configVerify (buf : List Byte) : RequestForm.Statement (.configVerify buf) := fun _ => ⟨rfl, rfl⟩
theorem RequestForm.flashErase (a : Word32) (n : Nat) : RequestForm.Statement (.flashErase a n) := fun _ => ⟨rfl, rfl⟩
theorem RequestForm.flashRead (a : Word32) (n : Nat) : RequestForm.Statement (.flashRead a n) := fun _ => ⟨rfl, rfl⟩
theorem RequestForm.flashWrite (a : Word32) (buf : List Byte) : RequestForm.Statement (.flashWrite a buf) := fun _ => ⟨rfl, rfl⟩
theorem RequestForm.flashCompare (a : Word32) (buf : List Byte) : RequestForm.Statement (.flashCompare a buf) := fun _ => ⟨rfl, rfl⟩
theorem RequestForm.flashVerify (a : Word32) (buf : List Byte) : RequestForm.Statement (.flashVerify a buf) := fun _ => ⟨rfl, rfl⟩
theorem RequestForm.erase (a : Word32) : RequestForm.Statement (.erase a) := fun _ => ⟨rfl, rfl⟩
theorem RequestForm.read (a : Word32) (n : Nat) : RequestForm.Statement (.read a n) := fun _ => ⟨rfl, rfl⟩
theorem RequestForm.write (a : Word32) (buf : List Byte) : RequestForm.Statement (.write a buf) := fun _ => ⟨rfl, rfl⟩
theorem RequestForm.compare (a : Word32) (buf : List Byte) : RequestForm.Statement (.compare a buf) := fun _ => ⟨rfl, rfl⟩
theorem RequestForm.verify (a : Word32) (buf : List Byte) : RequestForm.Statement (.verify a buf) := fun _ => ⟨rfl, rfl⟩
theorem RequestForm.write24 (w : Word24) (t : Profile) : RequestForm.Statement (.write24 w t) := fun _ => ⟨rfl, rfl⟩
theorem RequestForm.write24p (opcode : Byte) (parameter : Word32) (t : Profile) : RequestForm.Statement (.write24p opcode parameter t) := fun _ => ⟨rfl, rfl⟩
theorem RequestForm.read9 (last : Bool) (t : Profile) : RequestForm.Statement (.read9 last t) := fun _ => ⟨rfl, rfl⟩
theorem RequestForm.write9 (d : Byte) (last : Bool) (tb tt : Profile) : RequestForm.Statement (.write9 d last tb tt) := fun _ => ⟨rfl, rfl⟩
theorem RequestForm.tiktok (setup hold : Nat) : RequestForm.Statement (.tiktok setup hold) := fun _ => ⟨rfl, rfl⟩
theorem RequestForm.bitin (t : Profile) : RequestForm.Statement (.bitin t) := fun _ => ⟨rfl, rfl⟩
theorem RequestForm.settle (t : Profile) : RequestForm.Statement (.settle t) := fun _ => ⟨rfl, rfl⟩
theorem RequestForm.resetpulse : RequestForm.Statement (.resetpulse) := fun _ => ⟨rfl, rfl⟩
theorem RequestForm.drive : RequestForm.Statement (.drive) := fun _ => ⟨rfl, rfl⟩
theorem RequestForm.release : RequestForm.Statement (.release) := fun _ => ⟨rfl, rfl⟩
theorem RequestForm.pack (opcode : Byte) (parameter : Word32) : RequestForm.Statement (.pack opcode parameter) := fun _ => ⟨rfl, rfl⟩
theorem RequestForm.needErase (r : CompareResult) : RequestForm.Statement (.needErase r) := fun _ => ⟨rfl, rfl⟩
theorem RequestForm.needWrite (r : CompareResult) : RequestForm.Statement (.needWrite r) := fun _ => ⟨rfl, rfl⟩
theorem RequestForm.equal (r : CompareResult) : RequestForm.Statement (.equal r) := fun _ => ⟨rfl, rfl⟩
theorem RequestForm.pageSizeOf (did : DeviceId) : RequestForm.Statement (.pageSizeOf did) := fun _ => ⟨rfl, rfl⟩
theorem RequestForm.flashSizeOf (did : DeviceId) : RequestForm.Statement (.flashSizeOf did) := fun _ => ⟨rfl, rfl⟩
theorem RequestForm.config0 (cbs : Bool) : RequestForm.Statement (.config0 cbs) := fun _ => ⟨rfl, rfl⟩
theorem RequestForm.cbs (b : Byte) : RequestForm.Statement (.cbs b) := fun _ => ⟨rfl, rfl⟩
theorem RequestForm.config1 (n : Nat) : RequestForm.Statement (.config1 n) := fun _ => ⟨rfl, rfl⟩
theorem RequestForm.ldsize (b : Byte) : RequestForm.Statement (.ldsize b) := fun _ => ⟨rfl, rfl⟩

end Sys2Proof.Laws
end

