-- ==== Sys2Proof/Tests/Slice0.lean ====
section
/-! SUPPORT. Tests: ill-formed terms are refused, written-out words decode to their instructions, the vectors of
95_test_vectors.md (section numbers in the comments), and for every statement with hypotheses a state and operands that meet
them all. Every expected value is the spec's; a term of a host packet beyond its HOSTOP byte is the model's own (log 2). -/

namespace Sys2Proof.Tests

open Sys2Proof Sys2Proof.Machine

set_option maxRecDepth 100000

/-! ### States -/

/-- The next state of an outcome. -/
def next? : Res → Option State
  | .next t => some t
  | .fault _ => none
  | .refused _ => none

/-- One field of the state an instruction leaves. -/
def get {α : Type} (f : State → α) (i : Instr) (s : State) : Option α := (next? (exec i s)).map f

/-- The reason of a refusal. -/
def why? : Res → Option Refusal
  | .next _ => none
  | .fault _ => none
  | .refused w => some w

/-- The test target in programming mode, with this memory. -/
def target (m : Memory) : Target := { Target.reference with mode := .prog, mem := m }

/-- Inside a session on the test target (what ENTER from reset leaves, without its traces: `test_enter_identity`, `test_enter_leaves`). -/
def session (m : Memory) : State :=
  { State.resetWith Config.reference (target m) with
    sess := .entered, cid := 0xDA, did := 0x3650, idValid := true, lines := ⟨.low, .low, .low⟩ }

/-- The same, with WRITE in per-byte mode. -/
def sessionPerByte (m : Memory) : State :=
  { session m with cfg := { Config.reference with writeMode := .perByte } }

/-- Some bytes of the target's memory after an instruction. -/
def bytesAfter (addrs : List Nat) (i : Instr) (s : State) : Option (List Byte) :=
  get (fun t => addrs.map t.target.mem.read) i s

/-! ### WellFormed refuses what cannot be written -/

theorem length_too_long {n : Nat} (h : n = 4294967296) : lengthFits n = false := by subst h; decide

theorem test_ill_formed_flash_erase : (Instr.flashErase 0 4294967296).wellFormed = false := by decide

theorem test_ill_formed_flash_read : (Instr.flashRead 0 4294967296).wellFormed = false := by decide

theorem test_ill_formed_config_write : (Instr.configWrite (List.replicate 4294967296 0)).wellFormed = false :=
  length_too_long List.length_replicate

theorem test_ill_formed_config_compare : (Instr.configCompare (List.replicate 4294967296 0)).wellFormed = false :=
  length_too_long List.length_replicate

theorem test_ill_formed_config_verify : (Instr.configVerify (List.replicate 4294967296 0)).wellFormed = false :=
  length_too_long List.length_replicate

theorem test_ill_formed_flash_write : (Instr.flashWrite 0 (List.replicate 4294967296 0)).wellFormed = false :=
  length_too_long List.length_replicate

theorem test_ill_formed_flash_compare : (Instr.flashCompare 0 (List.replicate 4294967296 0)).wellFormed = false :=
  length_too_long List.length_replicate

theorem test_ill_formed_flash_verify : (Instr.flashVerify 0 (List.replicate 4294967296 0)).wellFormed = false :=
  length_too_long List.length_replicate

theorem test_well_formed_longest : (Instr.flashRead 0xFFFFFFFF 4294967295).wellFormed = true := by decide

/-! ### Decoding, from words written out -/

/-- Section 2.1, bit by bit. -/
theorem test_decode_wire_words :
    decode Config.reference (.word 0b000000000000000000001011) = .ok .cmdReadCid ∧
    decode Config.reference (.word 0b000000000000000000001100) = .ok .cmdReadDid ∧
    decode Config.reference (.word 0b000000000101111111000000) = .ok (.cmdRead 0x17F) ∧
    decode Config.reference (.word 0b111111111111111111000000) = .ok (.cmdRead 0x3FFFF) ∧
    decode Config.reference (.word 0b000000000110000000100001) = .ok (.cmdProgram 0x180) ∧
    decode Config.reference (.word 0b110000000000000000100010) = .ok (.cmdPageErase 0x30000) ∧
    decode Config.reference (.word 0b111010010110100101100110) = .ok .cmdMassErase ∧
    decode Config.reference (.word 0b010110101010010100000011) = .ok .enterWord ∧
    decode Config.reference (.word 0b000011110111100011110000) = .ok .exitWord := by decide

/-- R95, R96: eight data bits, the first to arrive most significant, and the trailer. -/
theorem test_decode_frames :
    decode Config.reference (.response 0b110110100) = .ok (.resp9 0xDA false) ∧
    decode Config.reference (.response 0b000000001) = .ok (.resp9 0x00 true) ∧
    decode Config.reference (.payload 0b000100101) = .ok (.pay9 0x12 true) ∧
    decode Config.reference (.payload 0b111111110) = .ok (.pay9 0xFF false) := by decide

/-- R101: the HOSTOP index of each operation, in the packet of log 2. -/
theorem test_decode_host_operations :
    decode Config.reference (.packet [0x00]) = .ok .enter ∧
    decode Config.reference (.packet [0x01]) = .ok .exit ∧
    decode Config.reference (.packet [0x02]) = .ok .locked ∧
    decode Config.reference (.packet [0x03]) = .ok .deviceId ∧
    decode Config.reference (.packet [0x04]) = .ok .pageSize ∧
    decode Config.reference (.packet [0x05]) = .ok .flashSize ∧
    decode Config.reference (.packet [0x06]) = .ok .massErase ∧
    decode Config.reference (.packet [0x07]) = .ok .configErase ∧
    decode Config.reference (.packet [0x08]) = .ok .configRead := by decide

theorem test_decode_host_operands :
    decode Config.reference (.packet [0x09, 1, 0, 0, 0, 0x7F]) = .ok (.configWrite [0x7F]) ∧
    decode Config.reference (.packet [0x0A, 0, 0, 0, 0]) = .ok (.configCompare []) ∧
    decode Config.reference (.packet [0x0B, 2, 0, 0, 0, 0x7F, 0xFD]) = .ok (.configVerify [0x7F, 0xFD]) ∧
    decode Config.reference (.packet [0x0C, 0x00, 0x01, 0, 0, 0x80, 0, 0, 0]) = .ok (.flashErase 0x100 128) ∧
    decode Config.reference (.packet [0x0D, 0x04, 0x03, 0x02, 0x01, 0x04, 0x03, 0x02, 0x01]) =
      .ok (.flashRead 0x01020304 0x01020304) ∧
    decode Config.reference (.packet [0x0E, 0x00, 0x01, 0, 0, 2, 0, 0, 0, 0x12, 0x34]) = .ok (.flashWrite 0x100 [0x12, 0x34]) ∧
    decode Config.reference (.packet [0x0F, 0x00, 0x01, 0, 0, 1, 0, 0, 0, 0xFF]) = .ok (.flashCompare 0x100 [0xFF]) ∧
    decode Config.reference (.packet [0x10, 0x7F, 0x01, 0, 0, 1, 0, 0, 0, 0xAA]) = .ok (.flashVerify 0x17F [0xAA]) := by decide

/-- R106: the rows without an encoding are handed over as calls. -/
theorem test_decode_calls (i : Instr) : decode Config.reference (.call i) = .ok i := rfl

/-- R102 and the packet format: what spells no operation is rejected by name. -/
theorem test_decode_rejects :
    decode Config.reference (.packet [0x11]) = .error .invalidHostop ∧
    decode Config.reference (.packet [0x1F]) = .error .invalidHostop ∧
    decode Config.reference (.packet [0x20]) = .error .invalidHostop ∧
    decode Config.reference (.packet []) = .error .truncated ∧
    decode Config.reference (.packet [0x09, 2, 0, 0, 0, 0x7F]) = .error .truncated ∧
    decode Config.reference (.packet [0x00, 0x00]) = .error .trailingBytes ∧
    decode Config.reference (.word 0x00000F) = .error .unassignedOpcode ∧
    decode Config.reference (.word 0x00004B) = .error .wrongConstant := by decide

/-- The table's numbering: bit 0 is the least significant bit of the first word. -/
theorem test_decode_table_words :
    decodeTableWord 24 0x004021 = some (.cmdProgram 0x100) ∧ decodeTableWord 16 0x1B5 = some (.resp9 0xDA true) ∧
    decodeTableWord 8 0x10 = some (.flashVerify 0 []) ∧ decodeTableWord 8 0x11 = none := by decide

/-! ### Section 2.1: `pack` -/

theorem test_pack_words :
    get (·.result) (.pack 0x21 0x100) State.reset = some (some (.word24 0x004021)) ∧
    get (·.result) (.pack 0x26 0x3A5A5) State.reset = some (some (.word24 0xE96966)) := by decide

theorem test_pack_corners : pack 0x21 0x40000 = 0x000021 ∧ pack 0x21 0x40001 = 0x000061 ∧ pack 0x40 0 = 0x000040 ∧
    pack 0x61 1 = 0x000061 := by decide

/-! ### Sections 2.2 to 2.5: the transport -/

theorem test_tiktok_pins : get (·.pins) (.tiktok 3 1) State.reset =
    some [.delay 3, .set .clk .high, .delay 1, .set .clk .low] := by decide

theorem test_tiktok_zero : get (·.pins) (.tiktok 0 0) State.reset =
    some [.delay 0, .set .clk .high, .delay 0, .set .clk .low] := by decide

/-- The tenth group drives 1, and DAT ends at bit 0 of the word. -/
theorem test_write24_pins : (get (·.pins) (.write24 0x004021 ⟨1, 2⟩) State.reset).map (fun ps => (ps.length, ps[45]?, ps[0]?)) =
    some (120, some (.set .dat .high), some (.set .dat .low)) := by decide

theorem test_write24_lines : get (·.lines) (.write24 0x004021 ⟨1, 2⟩) State.reset = some ⟨.high, .low, .z⟩ := by decide

theorem test_write24p_wire : get (·.wire) (.write24p 0x22 0x17F ⟨1, 2⟩) State.reset =
    some [.tx24 0x005FE2 ⟨1, 2⟩] := by decide

theorem test_write24p_shift_register : get (·.txsr) (.write24p 0x22 0x17F ⟨1, 2⟩) State.reset = some 0x005FE2 := by decide

/-- A target that is presenting `0x12`. -/
def presenting : State :=
  { session [(0x100, 0x12)] with target := { target [(0x100, 0x12)] with burst := .read, ptr := 0x100 } }

theorem test_read9_pins : get (·.pins) (.read9 true ⟨1, 2⟩) presenting = some
    ([.set .dat .z] ++
     [false, false, false, true, false, false, true, false].flatMap (fun b =>
       [.delay 1, .sample b, .set .clk .high, .delay 2, .set .clk .low]) ++
     [.set .dat .high, .delay 1, .set .clk .high, .delay 2, .set .clk .low, .set .dat .low]) := by decide

theorem test_read9_answer : get (fun t => (t.result, t.wire, t.rxsr, t.target.ptr)) (.read9 false ⟨1, 2⟩) presenting =
    some (some (.byte 0x12), [.rx9 0x12 false ⟨1, 2⟩], 0b000100100, 0x101) := by decide

theorem test_sampled_bytes : byteOfBits [true, false, false, false, false, false, false, false] = 0x80 ∧
    byteOfBits [true, true, false, true, true, false, true, false] = 0xDA ∧
    byteOfBits [false, false, true, true, false, true, false, false] = 0x34 := by decide

/-- R73: the pointer does not move with the first bit of a byte. -/
theorem test_bitin_first_bit : get (fun t => (t.result, t.target.frame, t.target.ptr)) (.bitin ⟨1, 2⟩) presenting =
    some (some (.bool false), .presenting true [false, false, true, false, false, true, false], 0x100) := by decide

/-- The same target with this much of its byte left to present, and the engine's level on DAT. -/
def midFrame (rest : List Bool) (dat : Level) : State :=
  { presenting with
    lines := ⟨dat, .low, .low⟩, target := { presenting.target with frame := .presenting true rest } }

/-- R73: it moves after the eighth. -/
theorem test_bitin_eighth_bit : get (fun t => (t.result, t.target.frame, t.target.ptr)) (.bitin ⟨1, 2⟩) (midFrame [true] .z) =
    some (some (.bool true), .presenting true [], 0x101) := by decide

/-- R73, R95: the ninth pulse is the trailer, at the level the engine drives. -/
theorem test_bitin_trailer : get (fun t => (t.target.frame, t.target.burst)) (.bitin ⟨1, 2⟩) (midFrame [] .high) =
      some (.boundary, .idle) ∧
    get (fun t => (t.target.frame, t.target.burst)) (.bitin ⟨1, 2⟩) (midFrame [] .low) = some (.boundary, .read) := by decide

/-- R70, R79: a target that is not in programming mode is redrawn by a pulse inside a frame, and by the trailer. -/
theorem test_bitin_inside_a_frame_outside_the_contract :
    get (·.draws) (.bitin ⟨1, 2⟩) { midFrame [true] .z with target := { (midFrame [true] .z).target with mode := .run } } =
      some 2 ∧
    get (·.draws) (.bitin ⟨1, 2⟩) { midFrame [] .low with target := { (midFrame [] .low).target with matched := false } } =
      some 2 := by decide

theorem test_bitin_pins : get (·.pins) (.bitin ⟨1, 2⟩) presenting =
    some [.delay 1, .sample false, .set .clk .high, .delay 2, .set .clk .low] := by decide

theorem test_write9_pins : get (·.pins) (.write9 0x12 true ⟨1, 2⟩ ⟨3, 4⟩) State.reset = some
    ([false, false, false, true, false, false, true, false].flatMap (fun b =>
       [.set .dat (Level.ofBit b), .delay 1, .set .clk .high, .delay 2, .set .clk .low]) ++
     [.set .dat .high, .delay 3, .set .clk .high, .delay 4, .set .clk .low, .set .dat .low]) := by decide

theorem test_write9_wire : get (·.wire) (.write9 0xFF false ⟨1, 2⟩ ⟨3, 4⟩) State.reset =
    some [.tx9 0xFF false ⟨1, 2⟩ ⟨3, 4⟩] := by decide

theorem test_settle_pins : get (·.pins) (.settle ⟨10, 5⟩) State.reset =
    some [.delay 10, .set .clk .high, .delay 5, .set .clk .low] := by decide

/-- A one-bit literal of 0: three events, RST ends low. -/
theorem test_resetpulse_one_bit :
    get (fun t => (t.pins, t.lines))
      .resetpulse { State.reset with cfg := { Config.reference with resetLiteral := [false], tReset := ⟨7, 8⟩ } } =
    some ([.set .rst .low, .delay 7, .delay 8], ⟨.z, .z, .low⟩) := by decide

theorem test_resetpulse_reference : get (fun t => (t.pins.length, t.lines.rst, t.target.mode)) .resetpulse State.reset =
    some (72, .low, .unknown) := by decide

theorem test_drive_pins : get (fun t => (t.pins, t.lines)) .drive State.reset =
    some ([.set .clk .low, .set .dat .low], ⟨.low, .low, .z⟩) := by decide

theorem test_release_pins : get (fun t => (t.pins, t.lines)) .release (session []) =
    some ([.set .dat .z, .set .clk .z, .set .rst .z], ⟨.z, .z, .z⟩) := by decide

/-! ### Wire words and frames by themselves -/

theorem test_cmd_read_cid : get (fun t => (t.wire, t.target.burst)) .cmdReadCid (session []) =
    some ([.tx24 0x00000B ⟨1, 1⟩], .answer [0xDA]) := by decide

theorem test_cmd_read_did : get (fun t => (t.wire, t.target.burst)) .cmdReadDid (session []) =
    some ([.tx24 0x00000C ⟨1, 1⟩], .answer [0x50, 0x36]) := by decide

theorem test_cmd_read : get (fun t => (t.wire, t.target.burst, t.target.ptr)) (.cmdRead 0x17F) (session []) =
    some ([.tx24 0x005FC0 ⟨1, 1⟩], .read, 0x17F) := by decide

theorem test_cmd_program : get (fun t => (t.wire, t.target.burst, t.target.ptr)) (.cmdProgram 0x180) (session []) =
    some ([.tx24 0x006021 ⟨1, 1⟩], .program, 0x180) := by decide

/-- R37: a page-erase word carries an address, which is in `TPTR` after it. -/
theorem test_cmd_page_erase_pointer : get (·.target.ptr) (.cmdPageErase 0x17F) (session []) = some 0x17F := by decide

theorem test_cmd_page_erase : bytesAfter [0xFF, 0x100, 0x17F, 0x180] (.cmdPageErase 0x17F)
    (session [(0xFF, 1), (0x100, 2), (0x17F, 3), (0x180, 4)]) = some [1, 0xFF, 0xFF, 4] := by decide

theorem test_cmd_mass_erase : get (·.wire) .cmdMassErase (session []) = some [.tx24 0xE96966 ⟨1, 1⟩] := by decide

/-- Flash reads `0xFF` after a mass erase; what the draws leave in the config bytes is not asked. -/
theorem mass_erased (m : Memory) (h : m.wf = true) (x : Nat) (hx : x < 0x4800) :
    ((target m).onMassErase Config.reference 0).1.mem.read x = 0xFF := by
  have h1 : ((target m).onMassErase Config.reference 0).1.mem =
      Memory.fill (Config.drawMem 0) 0x30000 5 (m.erase 0 0x4800) := rfl
  rw [h1, Laws.read_fill _ _ (Laws.erase_keeps_wf h _ _), if_neg (by rw [Laws.inRange_iff]; omega), Laws.read_erase,
    if_pos (by rw [Laws.inRange_iff]; omega)]

theorem test_mass_erased_flash : ((target [(0, 1), (0x47FF, 2)]).onMassErase Config.reference 0).1.mem.read 0x47FF = 0xFF :=
  mass_erased _ (by decide) _ (by decide)

theorem test_enter_word_after_reset_pulse : get (fun t => (t.wire, t.target.mode)) .enterWord
    { State.reset with target := Target.reference.onReset } = some ([.tx24 0x5AA503 ⟨60, 60⟩], .prog) := by decide

/-- U21: in programming mode the enter word is no command; what it leaves is a draw. -/
theorem test_enter_word_in_prog_mode : classify Config.reference 0x5AA503 = .enter ∧
    get (·.draws) .enterWord (session []) = some 1 ∧ get (·.draws) .exitWord (session []) = some 0 := by decide

theorem test_exit_word : get (fun t => (t.wire, t.target.mode)) .exitWord (session []) =
    some ([.tx24 0x0F78F0 ⟨60, 60⟩], .run) := by decide

/-- R78, R70 (b): under a set lock a payload frame redraws the memory; it takes one draw. -/
theorem test_pay9_locked : get (·.draws) (.pay9 0x21 false)
    { presenting with target := { presenting.target with burst := .program, lock := true } } = some 1 := by decide

theorem test_resp9 : get (fun t => (t.wire, t.result, t.target.ptr, t.target.burst)) (.resp9 0x12 true) presenting =
    some ([.rx9 0x12 true ⟨1, 1⟩], some (.byte 0x12), 0x101, .idle) := by decide

theorem test_pay9 : get (fun t => (t.wire, t.target.mem, t.target.ptr)) (.pay9 0x21 false)
    { presenting with target := { presenting.target with burst := .program } } =
    some ([.tx9 0x21 false ⟨1, 1⟩ ⟨200, 50⟩], [(0x100, 0x00)], 0x101) := by decide

/-! ### Section 2.6: the session -/

theorem test_enter_trace : get (·.wire) .enter State.reset = some
    [.drive, .resetPulse Config.reference.resetLiteral ⟨5000, 5000⟩, .tx24 0x5AA503 ⟨60, 60⟩, .tx24 0x00000B ⟨1, 1⟩,
     .rx9 0xDA true ⟨1, 1⟩, .tx24 0x00000C ⟨1, 1⟩, .rx9 0x50 false ⟨1, 1⟩, .rx9 0x36 true ⟨1, 1⟩] := by decide

theorem test_enter_identity : get (fun t => (t.result, t.sess, t.idValid, t.cid, t.did)) .enter State.reset =
    some (some (.byte 0xDA), .entered, true, 0xDA, 0x3650) := by decide

theorem test_enter_leaves : get (fun t => (t.lines, t.target, t.cmp)) .enter State.reset =
    some (⟨.low, .low, .low⟩, target [], ⟨false, false, false⟩) := by decide

/-- 99 clock pulses and 575 pin events (section 2.6). -/
theorem test_enter_pulses : get (fun t => (clockPulses t.pins, t.pins.length)) .enter State.reset = some (99, 575) := by decide

/-- High byte first: the target sends `0x36` and then `0x50`. -/
theorem test_enter_high_first : get (fun t => (t.did, t.wire.length)) .enter
    { State.reset with cfg := { Config.reference with didByteOrder := .highFirst } } = some (0x3650, 8) := by decide

theorem test_exit_entered : get (fun t => (t.wire, t.sess, t.idValid, t.lines)) .exit (session []) = some
    ([.tx24 0x0F78F0 ⟨60, 60⟩, .release], .disconnected, false, ⟨.z, .z, .z⟩) := by decide

theorem test_exit_disconnected : get (fun t => (t.wire, t.sess)) .exit State.reset = some
    ([.drive, .tx24 0x0F78F0 ⟨60, 60⟩, .release], .disconnected) := by decide

theorem test_locked_session : get (fun t => (t.wire, t.result)) .locked (session []) =
    some ([.lockQuery], some (.bool false)) := by decide

theorem test_locked_reset : why? (exec .locked State.reset) = some .notEntered := by decide

theorem test_device_id : get (·.result) .deviceId (session []) = some (some (.word 0x3650)) := by decide

theorem test_page_size : get (·.result) .pageSize (session []) = some (some (.nat 128)) := by decide

theorem test_flash_size : get (·.result) .flashSize (session []) = some (some (.nat 0x4800)) := by decide

theorem test_identity_refused : why? (exec .deviceId State.reset) = some .identityUnknown ∧
    why? (exec .pageSize State.reset) = some .identityUnknown ∧
    why? (exec .flashSize State.reset) = some .identityUnknown := by decide

theorem test_page_size_of : pageSizeOf 0x2F50 = 256 ∧ pageSizeOf 0x2F51 = 128 ∧ pageSizeOf 0x2F40 = 128 ∧
    pageSizeOf 0x3F50 = 128 ∧ pageSizeOf 0x502F = 128 ∧ pageSizeOf 0x0000 = 128 ∧ pageSizeOf 0xFFFF = 128 := by decide

theorem test_flash_size_of : [0x2F50, 0x3650, 0x3600, 0x3610, 0x362F, 0x36F0, 0xFF0F, 0x00A7].map
    (flashSizeOf Config.reference) = [0x4800, 0x4800, 0x1000, 0x2000, 0x4800, 0x4800, 0x1000, 0x4800] := by decide

/-! ### Section 2.7: the memory operations -/

theorem test_erase_trace : get (·.wire) (.erase 0x17F) (session []) =
    some [.tx24 0x005FE2 ⟨1, 1⟩, .settle ⟨10000, 500⟩] := by decide

theorem test_erase_config_block : bytesAfter [0x2FFFF, 0x30000, 0x30004, 0x30005, 0] (.erase 0x30003)
    (session [(0, 9), (0x30000, 1), (0x30004, 2)]) = some [0xFF, 0xFF, 0xFF, 0xFF, 9] := by decide

theorem test_mass_erase_trace : get (·.wire) .massErase (session []) =
    some [.tx24 0xE96966 ⟨1, 1⟩, .settle ⟨65000, 500⟩] := by decide

theorem test_read_burst : get (fun t => (t.wire, t.result, t.target.ptr)) (.read 0x100 3) (session [(0x100, 0x12), (0x101, 0x34)])
    = some ([.tx24 0x004000 ⟨1, 1⟩, .rx9 0x12 false ⟨1, 1⟩, .rx9 0x34 false ⟨1, 1⟩, .rx9 0xFF true ⟨1, 1⟩],
        some (.bytes [0x12, 0x34, 0xFF]), 0x103) := by decide

theorem test_read_across_pages : get (·.result) (.read 0x17F 2) (session [(0x17F, 0xAA), (0x180, 0xBB)]) =
    some (some (.bytes [0xAA, 0xBB])) := by decide

theorem test_write_ands : get (fun t => (t.wire, t.target.mem)) (.write 0x100 [0x21]) (session [(0x100, 0x12)]) =
    some ([.tx24 0x004021 ⟨1, 1⟩, .tx9 0x21 true ⟨1, 1⟩ ⟨200, 50⟩], [(0x100, 0x00)]) := by decide

theorem test_write_per_byte : get (fun t => (t.wire, t.target.mem)) (.write 0x17F [0xAA, 0xBB]) (sessionPerByte []) = some
    ([.tx24 0x005FE1 ⟨1, 1⟩, .tx9 0xAA true ⟨1, 1⟩ ⟨200, 50⟩, .tx24 0x006021 ⟨1, 1⟩, .tx9 0xBB true ⟨1, 1⟩ ⟨200, 50⟩],
     [(0x17F, 0xAA), (0x180, 0xBB)]) := by decide

/-! ### Section 2.8: compare -/

theorem test_compare_pairs :
    compareBytes [0xFF] [0xFF] = ⟨false, false, false⟩ ∧ compareBytes [0x12] [0x12] = ⟨false, false, true⟩ ∧
    compareBytes [0x13] [0x12] = ⟨true, false, true⟩ ∧ compareBytes [0x10] [0x12] = ⟨true, true, true⟩ ∧
    compareBytes [0x7F] [0x80] = ⟨true, true, true⟩ ∧ compareBytes [0x10] [0xFF] = ⟨true, true, false⟩ := by decide

theorem test_compare_aggregate :
    compareBytes [0x10, 0x12] [0xFF, 0x12] = ⟨true, true, true⟩ ∧
    compareBytes [0xFF, 0x12] [0xFF, 0x12] = ⟨false, false, true⟩ ∧
    compareBytes [0xFF, 0x00] [0x12, 0x00] = ⟨true, false, true⟩ ∧
    compareBytes [0xFF, 0x10] [0x12, 0xFF] = ⟨true, true, true⟩ := by decide

theorem test_compare_flags : get (fun t => (t.cmp, t.result)) (.compare 0x100 [0x12, 0x34]) (session []) =
    some (⟨true, false, true⟩, some (.flags ⟨true, false, true⟩)) := by decide

theorem test_need_erase : get (·.result) (.needErase ⟨true, true, false⟩) State.reset = some (some (.bool true)) ∧
    get (·.result) (.needErase ⟨false, true, false⟩) State.reset = some (some (.bool false)) := by decide

theorem test_need_write : get (·.result) (.needWrite ⟨true, false, true⟩) State.reset = some (some (.bool true)) ∧
    get (·.result) (.needWrite ⟨true, true, false⟩) State.reset = some (some (.bool false)) := by decide

theorem test_equal : get (·.result) (.equal ⟨false, true, true⟩) State.reset = some (some (.bool true)) ∧
    get (·.result) (.equal ⟨true, false, false⟩) State.reset = some (some (.bool false)) := by decide

theorem test_verify : get (fun t => (t.cmp, t.result)) (.verify 0x100 [0xFF]) (session [(0x100, 0x10)]) =
    some (⟨true, true, false⟩, some (.bool false)) := by decide

/-! ### Section 2.9: the wrappers -/

theorem test_flash_erase_addresses : eraseAddresses 128 0x100 129 = [0x100, 0x180] ∧
    eraseAddresses 128 0x17F 2 = [0x17F, 0x180] ∧ eraseAddresses 128 0x101 128 = [0x101, 0x180] ∧
    eraseAddresses 256 0x1FF 2 = [0x1FF, 0x200] ∧ eraseAddresses 128 0x30000 5 = [0x30000] ∧
    (eraseAddresses 128 0 0x4800).length = 144 := by decide

theorem test_flash_erase_trace : get (·.wire) (.flashErase 0x17F 2) (session []) = some
    [.tx24 0x005FE2 ⟨1, 1⟩, .settle ⟨10000, 500⟩, .tx24 0x006022 ⟨1, 1⟩, .settle ⟨10000, 500⟩] := by decide

theorem test_config_erase : get (·.wire) .configErase (session []) =
    some [.tx24 0xC00022 ⟨1, 1⟩, .settle ⟨10000, 500⟩] := by decide

theorem test_config_read : get (·.result) .configRead (session [(0x30000, 0x7F), (0x30001, 0xFD)]) =
    some (some (.bytes [0x7F, 0xFD, 0xFF, 0xFF, 0xFF])) := by decide

theorem test_config_write : get (·.target.mem) (.configWrite [0x7F, 0xFD, 0xFF, 0xFF, 0xFF]) (session []) =
    some [(0x30000, 0x7F), (0x30001, 0xFD)] := by decide

theorem test_config_write_length : why? (exec (.configWrite [0xFF, 0xFF, 0xFF, 0xFF]) (session [])) = some .badConfigLength ∧
    why? (exec (.configWrite []) (session [])) = some .badConfigLength ∧
    why? (exec (.configWrite []) State.reset) = some .notEntered := by decide

theorem test_config_compare : get (·.cmp) (.configCompare [0xFF, 0xFD, 0xFF, 0xFF, 0xFF])
    (session [(0x30000, 0x7F), (0x30001, 0xFD)]) = some ⟨true, true, true⟩ := by decide

theorem test_config_verify : get (·.result) (.configVerify [0xFF, 0xFF, 0xFF, 0xFF, 0xFF]) (session []) =
    some (some (.bool true)) := by decide

theorem test_flash_read : get (·.result) (.flashRead 0x30000 5) (session [(0x30000, 0x7F)]) =
    some (some (.bytes [0x7F, 0xFF, 0xFF, 0xFF, 0xFF])) := by decide

theorem test_flash_write : get (·.target.mem) (.flashWrite 0x100 [0x0F]) (session [(0x100, 0x10)]) =
    some [(0x100, 0x00)] := by decide

theorem test_flash_compare : get (·.cmp) (.flashCompare 0x100 [0xFF]) (session [(0x100, 0x10)]) =
    some ⟨true, true, false⟩ := by decide

theorem test_flash_verify : get (·.result) (.flashVerify 0x100 [0x12, 0x34]) (session [(0x100, 0x12), (0x101, 0x34)]) =
    some (some (.bool true)) := by decide

/-! ### Section 2.10: the codec -/

theorem test_config0 : get (·.result) (.config0 true) State.reset = some (some (.byte 0xFF)) ∧
    get (·.result) (.config0 false) State.reset = some (some (.byte 0x7F)) := by decide

theorem test_cbs : get (·.result) (.cbs 0x80) State.reset = some (some (.bool true)) ∧
    get (·.result) (.cbs 0x7F) State.reset = some (some (.bool false)) := by decide

theorem test_config1 : [0, 1, 1023, 1024, 1025, 2048, 2049, 4096, 6144, 6145, 7167].map config1Of =
    [0xFF, 0xFE, 0xFE, 0xFE, 0xFD, 0xFD, 0xFC, 0xFB, 0xF9, 0xF8, 0xF8] := by decide

theorem test_config1_limit : get (·.result) (.config1 7167) State.reset = some (some (.byte 0xF8)) ∧
    why? (exec (.config1 7168) State.reset) = some .badCodecArgument := by decide

theorem test_ldsize : [0xFF, 0xFE, 0xF8, 0x00, 0x07, 0x05, 0xA5].map ldsizeOf = [0, 1, 7, 7, 0, 2, 2] := by decide

/-! ### Section 2.11: admission -/

theorem test_admitted : [(0, 1), (0x47FF, 1), (0, 0x4800), (0x30000, 5), (0x30004, 1)].map
    (fun e => admission e.1 e.2 (session [])) = [none, none, none, none, none] := by decide

theorem test_not_admitted :
    [(0, 0x4801), (0x47FF, 2), (0x4800, 1), (0x30000, 6), (0x30005, 1), (0x2FFFF, 2), (0x3FFFF, 1)].all
      (fun e => admission e.1 e.2 (session []) = some .outOfRegion) = true ∧
    [(0x3FFFF, 2), (0x40000, 1)].all (fun e => admission e.1 e.2 (session []) = some .unencodable) = true ∧
    [(0x100, 0), (0x40000, 0)].all (fun e => admission e.1 e.2 (session []) = some .emptyRequest) = true := by decide

/-! ### Disruption (R320) -/

/-- Stopped after one pin event: the first half of DRIVE, and no frame event. -/
theorem test_disrupted_enter : (next? (step { State.reset with port := [.packet [0]], disrupt := some 1 })).map
    (fun t => (t.wire, t.pins, t.sess, t.seq, t.target.mode)) =
    some ([], [.set .clk .low], .disconnected, .running .enter 0 0 0, .unknown) := by decide

/-- Stopped after ten of the 24 bits of the command word of an ERASE (five pin events each, R152), with `ADDR` loaded before. -/
theorem test_disrupted_inside_a_word :
    (next? (step { session [] with port := [.call (.erase 0x17F)], disrupt := some 51 })).map
      (fun t => (t.wire, t.pins.length, t.txsr, t.bitcnt, t.seq)) =
    some ([], 50, 0x005FE2, 14, .running (.erase 0x17F) 0 0 10) := by decide

/-- R26, R27: a WRITE of two bytes stopped after its first payload frame (2 register moves, 120 and 46 pin events, `REM` counted down):
two wire events and one byte are done, one byte is left. -/
theorem test_disrupted_write_counts :
    (next? (step { session [] with port := [.call (.write 0x100 [0x12, 0x21])], disrupt := some 169 })).map
      (fun t => (t.seq, t.rem, t.wire.length)) = some (.running (.write 0x100 [0x12, 0x21]) 2 1 0, 1, 2) := by decide

/-- R26: a READ stopped before its command word has done no wire event. -/
theorem test_disrupted_read_before_its_word :
    (next? (step { session [] with port := [.call (.read 0x100 2)], disrupt := some 2 })).map (fun t => (t.seq, t.rem)) =
    some (.running (.read 0x100 2) 0 0 0, 2) := by decide

/-- R70 (d), R320: the contract stays off after a disruption, in whatever mode, until RESETPULSE and the enter word. -/
theorem test_broken_target_is_not_live : { target [] with broken := true }.live = false ∧
    (Target.onWord Config.reference 0 Config.reference.enterWord
      { target [] with broken := true, resetSeen := true }).1.live = true := by decide

/-- R73: RESP9 stopped with its last pin event to come has moved the target through the trailer's pulse, as a READ9 would. -/
theorem test_disrupted_response_moves_the_target :
    (next? (step { presenting with port := [.call (.resp9 0x12 false)], disrupt := some 46 })).map
      (fun t => (t.target.ptr, t.bitcnt)) = some (0x101, 0) ∧
    (next? (step { presenting with port := [.call (.resp9 0x12 false)], disrupt := some 11 })).map
      (fun t => (t.target.ptr, t.bitcnt)) = some (0x100, 7) := by decide

/-! ### The parameters (R124) -/

/-- A lock query that programs, or leaves a read burst open, is no lock query. -/
theorem test_ill_formed_lock_query :
    { Config.reference with lockQuery := [.write24 0x004021 ⟨1, 1⟩] }.valid = false ∧
    { Config.reference with lockQuery := [.write24 0x004000 ⟨1, 1⟩, .read9 false ⟨1, 1⟩] }.valid = false ∧
    { Config.reference with lockQuery := [.write24 0x004000 ⟨1, 1⟩, .read9 true ⟨1, 1⟩] }.valid = true := by decide

/-! ### Witnesses: for each statement with hypotheses, a state and operands that meet all of them -/

/-- The contract is in force in a session on the test target. -/
theorem contract (m : Memory) : Contract (session m) := ⟨show Config.reference.valid = true by decide, rfl⟩

theorem contract_per_byte (m : Memory) : Contract (sessionPerByte m) :=
  ⟨show { Config.reference with writeMode := .perByte }.valid = true by decide, rfl⟩

theorem reference_flash_size : flashSizeOf Config.reference 0x3650 = 0x4800 := by decide

/-- Whole flash, the last byte of flash, and the whole Config region are admissible. -/
theorem admissible_flash (m : Memory) : Admissible 0 0x4800 (session m) :=
  ⟨rfl, by decide, by decide, by decide, .inl (Nat.le_of_eq reference_flash_size.symm)⟩

theorem admissible_last_byte (m : Memory) : Admissible 0x47FF 1 (session m) :=
  ⟨rfl, by decide, by decide, by decide, .inl (Nat.le_of_eq reference_flash_size.symm)⟩

theorem admissible_config (m : Memory) : Admissible 0x30000 5 (session m) :=
  ⟨rfl, by decide, by decide, by decide, .inr ⟨Nat.le_refl 0x30000, Nat.le_refl 0x30005⟩⟩

/-- Both regions of the target are covered ranges, whole. -/
theorem covers_flash (m : Memory) : (target m).covers Config.reference 0 0x4800 := .inl (Nat.le_refl _)

theorem covers_config (m : Memory) : (target m).covers Config.reference 0x30000 5 := .inr ⟨by decide, by decide⟩

/-- Reset with one host request in the port. -/
def issued (bytes : List Byte) : State := { State.reset with port := [.packet bytes] }

/-- A session with one host request in the port, to be stopped after some steps. -/
def doomed (bytes : List Byte) (steps : Nat) : State :=
  { session [] with port := [.packet bytes], disrupt := some steps }

theorem witness_ResetMeetsTheInvariant : Config.reference.valid = true ∧ Target.reference.mem.wf = true ∧
    (Memory.wf [(0, 0x12), (0x30004, 0)]) = true := by decide

theorem witness_StepKeepsTheInvariant : Inv (issued [0]) ∧ ∃ t, step (issued [0]) = .next t :=
  ⟨⟨by decide, by decide, rfl, rfl, by decide, rfl, by decide⟩, _, rfl⟩

theorem witness_StepKeepsTheInvariant_session : Inv { session [] with port := [.packet [1]] } ∧
    ∃ t, step { session [] with port := [.packet [1]] } = .next t :=
  ⟨⟨by decide, by decide, rfl, rfl, by decide, ⟨rfl, by decide, by decide⟩, by decide⟩, _, rfl⟩

theorem witness_DecodeReadsBackEveryEncoding : Config.reference.valid = true ∧
    (∀ i ∈ [Instr.cmdRead 0, .cmdRead 0x3FFFF, .enterWord, .flashRead 0xFFFFFFFF 4294967295, .configWrite [], .pay9 0xFF true,
        .tiktok 0 0], i.wellFormed = true) := by decide

theorem witness_EncodeRestoresEveryDecodedRequest : (∀ j, Request.packet [0x0A, 0, 0, 0, 0] ≠ .call j) ∧
    decode Config.reference (.packet [0x0A, 0, 0, 0, 0]) = .ok (.configCompare []) ∧
    (∀ j, Request.word 0xFFFFC0 ≠ .call j) ∧ decode Config.reference (.word 0xFFFFC0) = .ok (.cmdRead 0x3FFFF) :=
  ⟨by simp, by decide, by simp, by decide⟩

theorem witness_StepRunsTheDecodedRequest : (issued [0]).port = [.packet [0]] ∧
    decode Config.reference (.packet [0]) = .ok .enter ∧ (issued [0]).disrupt = none ∧
    decode Config.reference (.packet [0x11]) = .error .invalidHostop ∧ State.reset.port = [] := by decide

theorem witness_HostopSelectsItsOperation : (0, Instr.enter) ∈
    [(0, Instr.enter), (1, .exit), (2, .locked), (3, .deviceId), (4, .pageSize), (5, .flashSize), (6, .massErase),
      (7, .configErase), (8, .configRead), (9, .configWrite []), (10, .configCompare []), (11, .configVerify []),
      (12, .flashErase 0 0), (13, .flashRead 0 0), (14, .flashWrite 0 []), (15, .flashCompare 0 []), (16, .flashVerify 0 [])] ∧
    17 ≤ 17 ∧ 17 < 256 ∧ 17 ≤ 255 ∧ 255 < 256 := by decide

theorem witness_PackPlacesOpcodeAndParameter : (63 : Byte).toNat < 64 ∧ (262143 : Word32).toNat < 262144 ∧
    (0 : Byte).toNat < 64 ∧ (0 : Word32).toNat < 262144 ∧ pack 63 262143 = pack 63 262143 := by decide

theorem witness_PairFlagsAreTheEquations : neOf 0xFF 0x12 = true ∧ gtOf 0x10 0x12 = true ∧ nempOf 0x12 = true := by decide

theorem witness_CompareFlagsAggregateByOr : [(0xFF : Byte), 0x10].length = [(0x12 : Byte), 0xFF].length := rfl

theorem witness_CompareLawsHold : gtOf 0x10 0xFF = true ∧ (compareBytes [0x10] [0xFF]).gt = true ∧
    (compareBytes [0x10] [0xFF]).ne = true ∧ (compareBytes [0x10] [0xFF]).nemp = false := by decide

theorem witness_PredicatesReduceAResult : equal ⟨false, true, true⟩ = true := rfl

theorem witness_IdentityAccessorsReadTheCache : (session []).idValid = true ∧ State.reset.idValid = false := by decide

theorem witness_SizeFunctionsReadTheDeviceId : (0x2F50 : DeviceId).extractLsb' 4 4 = (0x3650 : DeviceId).extractLsb' 4 4 := by
  decide

theorem witness_CodecFunctionsAnswer : 0 < 7168 ∧ 7167 < 7168 ∧ 7168 ≤ 7168 := by decide

theorem witness_CodecRoundTrips : 0 < 7168 ∧ 7167 < 7168 := by decide

theorem witness_BitinSamplesBeforeTheRisingEdge :
    (presenting.target.frame = .boundary ∧ presenting.target.determined presenting.cfg = true) ∧
    ((midFrame [true, false] .z).target.frame = .presenting true [true, false] ∧
      (midFrame [true, false] .z).target.answering = true) ∧
    ((midFrame [true] .z).target.frame = .presenting true [true] ∧ (midFrame [true] .z).target.burst = .read ∧
      (midFrame [true] .z).target.answering = true ∧ (midFrame [true] .z).target.determined (midFrame [true] .z).cfg = true) ∧
    ({ (midFrame [true] .z).target with burst := .answer [0xDA] }.burst = .answer [0xDA] ∧
      { (midFrame [true] .z).target with burst := .answer [0xDA] }.answering = true) ∧
    ((midFrame [] .low).target.frame = .presenting true [] ∧ (midFrame [] .low).target.inResponse = true ∧
      (midFrame [] .low).lines.dat = .low ∧ (midFrame [] .high).lines.dat = .high) ∧
    { (midFrame [true] .z).target with mode := .run }.frame ≠ .boundary ∧
    { (midFrame [true] .z).target with mode := .run }.live = false := by decide

theorem witness_Read9TakesEightSamplesAndATrailer : presenting.target.frame = .boundary ∧
    State.reset.target.frame = .boundary ∧
    (presenting.target.live = true ∧ presenting.target.lock = false ∧ presenting.target.burst = .read ∧
      presenting.target.has presenting.cfg presenting.target.ptr = true) ∧
    { presenting.target with burst := .answer [0xDA] }.live = true ∧
    { presenting.target with burst := .answer [0xDA] }.burst = .answer [0xDA] := by decide

theorem witness_WireWordsAreSentAsTheirWords : ∀ w ∈
    [(Instr.cmdReadCid, (0x00000B : Word24)), (.cmdReadDid, 0x00000C), (.cmdRead 0x3FFFF, 0xFFFFC0),
      (.cmdProgram 0x3FFFF, 0xFFFFE1), (.cmdPageErase 0x3FFFF, 0xFFFFE2), (.cmdMassErase, 0xE96966), (.enterWord, 0x5AA503),
      (.exitWord, 0x0F78F0)],
    w ∈ [(Instr.cmdReadCid, commandWord State.reset.cfg.opReadCid State.reset.cfg.paramReadCid),
      (.cmdReadDid, commandWord State.reset.cfg.opReadDid State.reset.cfg.paramReadDid),
      (.cmdRead 0x3FFFF, commandWord State.reset.cfg.opRead 0x3FFFF),
      (.cmdProgram 0x3FFFF, commandWord State.reset.cfg.opProgram 0x3FFFF),
      (.cmdPageErase 0x3FFFF, commandWord State.reset.cfg.opPageErase 0x3FFFF),
      (.cmdMassErase, commandWord State.reset.cfg.opMassErase State.reset.cfg.paramMassErase),
      (.enterWord, State.reset.cfg.enterWord), (.exitWord, State.reset.cfg.exitWord)] := by decide

theorem witness_WireWordsActOnTheTarget : Contract (session [(0, 1)]) ∧ (session [(0, 1)]).target.mem.wf = true ∧
    (0 : Addr18).toNat < (session [(0, 1)]).target.flash ∧ (0x47FF : Addr18).toNat < (session [(0, 1)]).target.flash ∧
    ((session [(0, 1)]).target.flash ≤ (0x30004 : Addr18).toNat ∧
      (session [(0, 1)]).cfg.configBase.toNat ≤ (0x30004 : Addr18).toNat ∧
      (0x30004 : Addr18).toNat < (session [(0, 1)]).cfg.configBase.toNat + 5) ∧
    (Target.reference.onReset.matched = true ∧ Target.reference.onReset.resetSeen = true ∧
      Target.reference.onReset.lock = false) :=
  ⟨contract _, by decide, by decide, by decide, by decide, by decide⟩

theorem witness_ResetHandshakeAndEnterWordEnterProgMode : State.reset.target.matched = true := rfl

theorem witness_UnassignedWordMakesTheModeUnknown : (session []).target.ready = true ∧
    (0x00000F : Word24) ≠ (session []).cfg.exitWord ∧ (0x00000F : Word24) ≠ (session []).cfg.enterWord ∧
    (0x00000F : Word24).extractLsb' 0 6 ∉ (session []).cfg.opcodes := by decide

theorem witness_FramesCarryDataAndTrailer : presenting.target.live = true ∧ presenting.target.lock = false ∧
    presenting.target.burst = .read ∧ presenting.target.frame = .boundary ∧
    presenting.target.has presenting.cfg presenting.target.ptr = true ∧
    presenting.target.mem.read presenting.target.ptr = 0x12 := by decide

/-- The payload clause, at the last byte of the Config region. -/
theorem witness_FramesCarryDataAndTrailer_payload :
    let t : Target := { target [] with burst := .program, ptr := 0x30004 }
    t.live = true ∧ t.lock = false ∧ t.burst = .program ∧ t.frame = .boundary ∧ t.has Config.reference t.ptr = true := by decide

theorem witness_PinTraceExpandsTheWireTrace : Instr.enter ≠ .locked ∧ (∀ setup hold, Instr.enter ≠ .tiktok setup hold) ∧
    (∀ p, Instr.enter ≠ .bitin p) ∧ ∃ t, exec .enter State.reset = .next t :=
  ⟨by simp, by simp, by simp, _, rfl⟩

theorem witness_ExpansionsObeyTheTraceInvariants : ∀ e ∈ [WireEvent.drive, .tx24 0 ⟨0, 0⟩, .settle ⟨1, 1⟩],
    e ≠ .release ∧ ∀ lit p, e ≠ .resetPulse lit p := by simp

/-- DAT is released from the first to the 41st pin event of a response frame. -/
theorem witness_ExpansionsObeyTheTraceInvariants_released :
    [WireEvent.drive, .rx9 0x12 true ⟨1, 1⟩] = [.drive] ++ .rx9 0x12 true ⟨1, 1⟩ :: [] ∧
    (∀ x ∈ [WireEvent.drive], x ≠ .release) ∧ WireEvent.rx9 0x12 true ⟨1, 1⟩ ≠ .release ∧
    ∀ n ∈ [1, 41], ((session []).lines.afterAll
      ([WireEvent.drive].flatMap WireEvent.pins ++ (WireEvent.rx9 0x12 true ⟨1, 1⟩).pins.take n)).dat = .z := by decide

theorem witness_DelayTotalsOfOperations : (∃ t, exec .enter State.reset = .next t) ∧ (∃ t, exec .exit State.reset = .next t) ∧
    (∃ t, exec (.erase 0x47FF) (session []) = .next t) ∧ (∃ t, exec .massErase (session []) = .next t) ∧
    (∃ t, exec (.read 0x30000 5) (session []) = .next t) ∧ (∃ t, exec (.compare 0x30000 [0]) (session []) = .next t) ∧
    (∃ t, exec (.verify 0x30000 [0]) (session []) = .next t) ∧ (∃ t, exec .deviceId (session []) = .next t) :=
  ⟨⟨_, rfl⟩, ⟨_, rfl⟩, ⟨_, rfl⟩, ⟨_, rfl⟩, ⟨_, rfl⟩, ⟨_, rfl⟩, ⟨_, rfl⟩, ⟨_, rfl⟩⟩

/-- The uncapped rows, in both write modes and over two pages. -/
theorem witness_DelayTotalsOfOperations_capped : Config.reference.slices = [] ∧
    [(0x12 : Byte), 0x34].length * Config.reference.tProgram.total ≤ Config.reference.capProgram.at [(0x12 : Byte), 0x34].length ∧
    (∃ t, exec (.write 0x100 [0x12, 0x34]) (session []) = .next t) ∧
    (∃ t, exec (.write 0x100 [0x12, 0x34]) (sessionPerByte []) = .next t) ∧
    2 = ((0x17F : Word32).toNat + 2 - 1) / pageSizeOf 0x3650 - (0x17F : Word32).toNat / pageSizeOf 0x3650 + 1 ∧
    2 * Config.reference.tPageErase.total ≤ Config.reference.capPageErase.at 2 ∧
    (∃ t, exec (.flashErase 0x17F 2) (session []) = .next t) :=
  ⟨rfl, by decide, ⟨_, rfl⟩, ⟨_, rfl⟩, by decide, by decide, ⟨_, rfl⟩⟩

theorem witness_CappedDelaysStayWithinTheCap :
    slicesOf { Config.reference with capProgram := ⟨300, [], 0⟩ } .program 2 2 = [⟨200, 50⟩, ⟨50, 0⟩] ∧
    ⟨200, 50⟩ ∈ slicesOf Config.reference .program 2 2 ∧ 2 ≤ 2 := by decide

theorem witness_OperationsHonourTheirCaps : (∃ t, exec (.flashErase 0x17F 2) (session []) = .next t) ∧
    (∃ t, exec (.write 0x30004 [0]) (session []) = .next t) := ⟨⟨_, rfl⟩, ⟨_, rfl⟩⟩

/-- Each clause of the admission checks, at the boundary values of section 2.11. -/
theorem witness_AdmissionChecksInOrder : State.reset.sess = .disconnected ∧ (session []).sess = .entered ∧
    (262144 ≤ 0x40000 ∧ 262144 < 0x3FFFF + 2) ∧
    (0x3FFFF < 262144 ∧ 0x3FFFF + 1 ≤ 262144 ∧ flashSizeOf (session []).cfg (session []).did < 0x3FFFF + 1 ∧
      (session []).cfg.configBase.toNat + 5 < 0x3FFFF + 1) ∧
    (0x2FFFF + 2 ≤ 262144 ∧ 0x2FFFF < (session []).cfg.configBase.toNat) := by decide

theorem witness_MemoryOperationsNeedASession : State.reset.sess = .disconnected ∧
    Instr.verify 0 [0] ∈ [Instr.locked, .massErase, .configErase, .configRead, .configWrite [0], .configCompare [0],
      .configVerify [0], .flashErase 0 1, .flashRead 0 1, .flashWrite 0 [0], .flashCompare 0 [0], .flashVerify 0 [0],
      .erase 0, .read 0 1, .write 0 [0], .compare 0 [0], .verify 0 [0]] := by decide

theorem witness_ConfigRequestsAreAdmittedByLength : (session []).sess = .entered ∧ (session []).cfg.valid = true ∧
    ([0, 0, 0, 0] : List Byte).length ≠ 5 ∧ ([0, 0, 0, 0, 0, 0] : List Byte).length ≠ 5 ∧
    ([0, 0, 0, 0, 0] : List Byte).length = 5 ∧
    Instr.configVerify [0, 0, 0, 0, 0] ∈ [Instr.configErase, .configRead, .configWrite [0, 0, 0, 0, 0],
      .configCompare [0, 0, 0, 0, 0], .configVerify [0, 0, 0, 0, 0]] := by decide

theorem witness_RefusalTable : (session []).cfg.valid = true ∧ admission 0x4800 1 (session []) = some .outOfRegion := by decide

theorem witness_EnterRunsTheHandshake : State.reset.cfg.valid = true ∧ State.reset.target.matched = true := by decide

theorem witness_ExitReleasesTheLines : (session []).target.ready = true := rfl

theorem witness_LockedReportsTheFlag : (session []).sess = .entered ∧ (session []).lines.clk = .low ∧
    (session []).lines.dat ≠ .z ∧ (session []).target.ready = true ∧
    { (session []).target with lock := true }.ready = true := by decide

theorem witness_OnlyTheirOwnersWriteHostVisibleRegisters : (∃ t, exec .enter State.reset = .next t) ∧
    (∃ t, exec .exit State.reset = .next t) ∧ (∃ t, exec (.configVerify [0, 0, 0, 0, 0]) (session []) = .next t) :=
  ⟨⟨_, rfl⟩, ⟨_, rfl⟩, ⟨_, rfl⟩⟩

theorem witness_ParametersAndTargetConstantsAreFixed : (∃ t, step (issued [0]) = .next t) ∧ ∃ t, step (doomed [6] 1) = .next t :=
  ⟨⟨_, rfl⟩, ⟨_, rfl⟩⟩

theorem witness_ReadReturnsTheBurst : Admissible (0 : Word32).toNat 0x4800 (session []) ∧
    Admissible (configAddress (session []).cfg).toNat 5 (session []) ∧ Contract (session []) ∧
    (session []).target.covers (session []).cfg (0 : Word32).toNat 0x4800 :=
  ⟨admissible_flash [], admissible_config [], contract [], covers_flash []⟩

theorem witness_EraseClearsExactlyItsPage : Admissible (0x47FF : Word32).toNat 1 (session []) ∧ Contract (session []) ∧
    (session []).target.covers (session []).cfg (0x47FF : Word32).toNat 1 ∧
    (0x47FF : Word32).toNat < (session []).target.flash :=
  ⟨admissible_last_byte [], contract [], .inl (Nat.le_refl _), by decide⟩

/-- The Config clause, at the last byte of the block. -/
theorem witness_EraseClearsExactlyItsPage_config : Admissible (0x30004 : Word32).toNat 1 (session []) ∧
    (session []).target.covers (session []).cfg (0x30004 : Word32).toNat 1 ∧
    (session []).target.flash ≤ (0x30004 : Word32).toNat :=
  ⟨⟨rfl, by decide, by decide, by decide, .inr ⟨by decide, by decide⟩⟩, .inr ⟨by decide, by decide⟩, by decide⟩

theorem witness_MassEraseClearsFlash : (session [(0x30000, 1)]).sess = .entered ∧ Contract (session [(0x30000, 1)]) ∧
    (session [(0x30000, 1)]).target.mem.wf = true ∧
    (session [(0x30000, 1)]).target.flash ≤ (session [(0x30000, 1)]).cfg.configBase.toNat :=
  ⟨rfl, contract _, by decide, by decide⟩

/-- Both write modes, up to the last byte of each region. -/
theorem witness_WriteAndsTheBufferIn : Admissible (0x47FF : Word32).toNat [(0x12 : Byte)].length (session []) ∧
    Contract (session []) ∧ Contract (sessionPerByte []) ∧ (session []).target.mem.wf = true ∧
    (session []).target.covers (session []).cfg (0x47FF : Word32).toNat [(0x12 : Byte)].length ∧
    Admissible (configAddress (session []).cfg).toNat [(0 : Byte), 0, 0, 0, 0].length (session []) ∧
    (session []).target.covers (session []).cfg (configAddress (session []).cfg).toNat [(0 : Byte), 0, 0, 0, 0].length :=
  ⟨admissible_last_byte [], contract [], contract_per_byte [], by decide, .inl (Nat.le_refl _), admissible_config [],
    covers_config []⟩

theorem witness_CompareFlagsTheRange : Admissible (0x30000 : Word32).toNat [(0xFF : Byte), 0xFF, 0xFF, 0xFF, 0xFF].length
      (session []) ∧ Contract (session []) ∧
    (session []).target.covers (session []).cfg (0x30000 : Word32).toNat [(0xFF : Byte), 0xFF, 0xFF, 0xFF, 0xFF].length :=
  ⟨admissible_config [], contract [], covers_config []⟩

theorem witness_VerifyIsEqualityOfTheRange : Admissible (0x47FF : Word32).toNat [(0xFF : Byte)].length (session []) ∧
    Contract (session []) ∧ (session []).target.covers (session []).cfg (0x47FF : Word32).toNat [(0xFF : Byte)].length :=
  ⟨admissible_last_byte [], contract [], .inl (Nat.le_refl _)⟩

theorem witness_FlashEraseStepsThroughThePages : Admissible (0 : Word32).toNat 0x4800 (session []) ∧
    Admissible (0x47FF : Word32).toNat 1 (session []) ∧ Admissible (0x30000 : Word32).toNat 5 (session []) :=
  ⟨admissible_flash [], admissible_last_byte [], admissible_config []⟩

theorem witness_FlashEraseClearsEveryPageTouched : Contract (session [(0x17F, 1)]) ∧
    pageSizeOf (session [(0x17F, 1)]).did = (session [(0x17F, 1)]).target.page ∧
    (0x47FF : Word32).toNat + 1 ≤ (session [(0x17F, 1)]).target.flash ∧
    (∃ t, exec (.flashErase 0x47FF 1) (session [(0x17F, 1)]) = .next t) ∧
    ((session [(0x17F, 1)]).target.flash ≤ (0x30000 : Word32).toNat ∧
      (session [(0x17F, 1)]).cfg.configBase.toNat ≤ (0x30000 : Word32).toNat ∧
      (0x30000 : Word32).toNat + 5 ≤ (session [(0x17F, 1)]).cfg.configBase.toNat + 5) ∧
    ∃ t, exec (.flashErase 0x30000 5) (session [(0x17F, 1)]) = .next t :=
  ⟨contract _, by decide, by decide, ⟨_, rfl⟩, by decide, _, rfl⟩

theorem witness_WrappersAreTheirExpansions : [(0 : Byte), 0, 0, 0, 0].length = 5 := rfl

theorem witness_OnlyMutatingOperationsChangeMemory : Contract (session []) ∧ (Instr.flashVerify 0 [0]).isHostOp = true ∧
    (session []).target.covers (session []).cfg (0 : Word32).toNat [(0 : Byte)].length ∧
    ∃ t, exec (.flashVerify 0 [0]) (session []) = .next t := ⟨contract _, rfl, .inl (by decide), _, rfl⟩

theorem witness_MassErasedFlashVerifiesAsErased : Contract (session [(0, 1)]) ∧
    LaunchPremise (session [(0, 1)]).cfg (session [(0, 1)]).target ∧ (session [(0, 1)]).target.mem.wf = true ∧
    (session [(0, 1)]).sess = .entered ∧
    flashSizeOf (session [(0, 1)]).cfg (session [(0, 1)]).did = (session [(0, 1)]).target.flash ∧
    0 < (session [(0, 1)]).target.flash ∧
    ∃ t u, exec .massErase (session [(0, 1)]) = .next t ∧ u = { t with target := { t.target with lock := false } } :=
  ⟨contract _, ⟨by decide, by decide, by decide⟩, by decide, rfl, by decide, by decide, _, _, rfl, rfl⟩

theorem witness_WritingTwiceIsWritingOnce : Contract (session []) ∧ (session []).target.mem.wf = true ∧
    (session []).target.covers (session []).cfg (0x47FF : Word32).toNat [(0x12 : Byte)].length ∧
    ∃ t u, exec (.flashWrite 0x47FF [0x12]) (session []) = .next t ∧ exec (.flashWrite 0x47FF [0x12]) t = .next u :=
  ⟨contract _, by decide, .inl (Nat.le_refl _), _, _, rfl, rfl⟩

/-- A small page: the loop takes both branches on it. -/
def smallPage : State := { session [(0x47FE, 0x10)] with target := { target [(0x47FE, 0x10)] with page := 2 } }

theorem witness_DecisionLoopReachesTheDesiredPage : Contract smallPage ∧ smallPage.target.mem.wf = true ∧
    0 < smallPage.target.page ∧ [(0x12 : Byte), 0xFF].length = smallPage.target.page ∧
    (0x47FE : Word32).toNat % smallPage.target.page = 0 ∧
    (0x47FE : Word32).toNat + [(0x12 : Byte), 0xFF].length ≤ smallPage.target.flash ∧
    Admissible (0x47FE : Word32).toNat [(0x12 : Byte), 0xFF].length smallPage ∧
    ∃ t e w, exec (.compare 0x47FE [0x12, 0xFF]) smallPage = .next t ∧
      (if needErase t.cmp then exec (.erase 0x47FE) t = .next e else e = t) ∧
      (if needWrite t.cmp then exec (.write 0x47FE [0x12, 0xFF]) e = .next w else w = e) :=
  ⟨⟨by decide, rfl⟩, by decide, by decide, rfl, by decide, by decide,
    ⟨rfl, by decide, by decide, by decide, .inl (by decide)⟩, _, _, _, rfl, rfl, rfl⟩

/-- The register clause: a locked target, and an operation other than an erase or a write. -/
theorem witness_DisruptedWriteLowersBitsOnly_registers :
    (∃ t, step { doomed [6] 3 with target := { target [] with lock := true } } = .next t) ∧
    decode Config.reference (.packet [0]) = .ok .enter ∧
    (∃ p, planOf .enter { doomed [0] 3 with port := [], disrupt := none } = some p) ∧
    ∃ t, step (doomed [0] 3) = .next t :=
  ⟨⟨_, rfl⟩, by decide, ⟨_, rfl⟩, _, rfl⟩

theorem witness_DisruptedWriteLowersBitsOnly :
    decode (doomed [14, 0xFF, 0x47, 0, 0, 1, 0, 0, 0, 0x12] 3).cfg (.packet [14, 0xFF, 0x47, 0, 0, 1, 0, 0, 0, 0x12]) =
      .ok (.flashWrite 0x47FF [0x12]) ∧
    Contract (doomed [14, 0xFF, 0x47, 0, 0, 1, 0, 0, 0, 0x12] 3) ∧ (target []).mem.wf = true ∧
    (target []).covers Config.reference (0x47FF : Word32).toNat [(0x12 : Byte)].length ∧
    ∃ t, step (doomed [14, 0xFF, 0x47, 0, 0, 1, 0, 0, 0, 0x12] 3) = .next t :=
  ⟨by decide, ⟨by decide, rfl⟩, by decide, .inl (Nat.le_refl _), _, rfl⟩

/-- The erase clauses: the last page of flash, the Config block, and a mass erase, with bytes outside. -/
theorem witness_DisruptedWriteLowersBitsOnly_erase :
    decode Config.reference (.packet [12, 0xFF, 0x47, 0, 0, 1, 0, 0, 0]) = .ok (.flashErase 0x47FF 1) ∧
    (0x47FF : Word32).toNat + 1 ≤ (target []).flash ∧
    (∀ e, (0x47FF : Word32).toNat ≤ e → e < (0x47FF : Word32).toNat + 1 → 0x477F / (target []).page ≠ e / (target []).page) ∧
    (∃ t, step (doomed [12, 0xFF, 0x47, 0, 0, 1, 0, 0, 0] 3) = .next t) ∧
    decode Config.reference (.packet [7]) = .ok .configErase ∧
    ((target []).flash ≤ (configAddress Config.reference).toNat ∧
      Config.reference.configBase.toNat ≤ (configAddress Config.reference).toNat ∧
      (configAddress Config.reference).toNat + 1 ≤ Config.reference.configBase.toNat + 5) ∧
    (∃ t, step (doomed [7] 3) = .next t) ∧
    decode Config.reference (.packet [6]) = .ok .massErase ∧ (target []).flash ≤ 0x4800 ∧ ∃ t, step (doomed [6] 3) = .next t := by
  refine ⟨by decide, by decide, ?_, ⟨_, rfl⟩, by decide, by decide, ⟨_, rfl⟩, by decide, by decide, ⟨_, rfl⟩⟩
  intro e h1 h2
  obtain rfl : e = 0x47FF := by
    have h3 : (0x47FF : Word32).toNat = 0x47FF := rfl
    omega
  decide

theorem witness_EnterRecoversFromADisruption : (doomed [6] 1).cfg.valid = true ∧ (doomed [6] 1).target.matched = true ∧
    (doomed [6] 1).port = [.packet [6]] ∧ decode (doomed [6] 1).cfg (.packet [6]) = .ok .massErase ∧
    (doomed [6] 1).disrupt = some 1 ∧
    (∃ p, planOf .massErase { doomed [6] 1 with port := [], disrupt := none } = some p) ∧
    ∃ t, step (doomed [6] 1) = .next t :=
  ⟨by decide, rfl, rfl, by decide, rfl, ⟨_, rfl⟩, _, rfl⟩

/-- A target that remembers a disruption: an instruction other than ENTER and RESETPULSE, and RESETPULSE. -/
theorem witness_EnterRecoversFromADisruption_stuck :
    { target [] with broken := true }.broken = true ∧ { target [] with broken := true }.resetSeen = false ∧
    Instr.exitWord ≠ .enter ∧ Instr.exitWord ≠ .resetpulse ∧
    (∃ w, exec .exitWord { session [] with target := { target [] with broken := true } } = .next w) ∧
    ∃ w, exec .resetpulse { session [] with target := { target [] with broken := true } } = .next w :=
  ⟨rfl, rfl, by decide, by decide, ⟨_, rfl⟩, _, rfl⟩

end Sys2Proof.Tests
end

section
/-! PROOFS. The step function: one equation per outcome of fetching the request at the head of the port (R11, R100). -/

namespace Sys2Proof.Machine

/-- With nothing issued the engine does nothing (R296). -/
theorem step_of_port_nil {s : State} (hport : s.port = []) : step s = .next s := by
  simp only [step, hport]

/-- A request that spells no operation is refused, whether or not a disruption is pending (R102). -/
theorem step_of_decode_error {s : State} {r : Request} {rest : List Request} {e : DecodeError} (hport : s.port = r :: rest)
    (hdec : decode s.cfg r = .error e) : step s = .refused (.invalidRequest e) := by
  simp only [step, hport, hdec]

/-- An undisrupted step is the dispatch of the decoded request, which has left the port (R11). -/
theorem step_of_decode_ok {s : State} {r : Request} {rest : List Request} {i : Instr} (hport : s.port = r :: rest)
    (hdec : decode s.cfg r = .ok i) (hdis : s.disrupt = none) : step s = exec i { s with port := rest } := by
  simp only [step, hport, hdec, hdis]

/-- Settles O6: its clauses are the equations of `step` for a request that decodes, one that does not, and an idle port. -/
theorem stepRunsTheDecodedRequest : Obligations.StepRunsTheDecodedRequest := by
  unfold Obligations.StepRunsTheDecodedRequest
  refine ⟨fun s r rest hport => ⟨fun i hdec hdis => ?decodes, fun e hdec => ?refused⟩, fun s hport => ?idle⟩
  case decodes => exact step_of_decode_ok hport hdec hdis
  case refused => exact step_of_decode_error hport hdec
  case idle => exact step_of_port_nil hport

end Sys2Proof.Machine
end

section
/-! PROOFS. The invariant of a run from reset (10_state.md sections 7 and 8): reset meets it, and every step of the public surface
keeps it; what no step changes at all (R31, R40, R41). -/

namespace Sys2Proof.Machine

open Sys2Proof.Laws

/-! ### Reset -/

/-- Without a cached identity the three accessors have nothing to answer (R287). -/
theorem identity_refused {s : State} (hid : s.idValid = false) :
    exec .deviceId s = .refused .identityUnknown ∧ exec .pageSize s = .refused .identityUnknown ∧
      exec .flashSize s = .refused .identityUnknown := by
  have hadmit : admitIdentity s = some .identityUnknown := admitIdentity_eq_some.2 ⟨rfl, hid⟩
  simp only [exec, execDeviceId, execPageSize, execFlashSize, hadmit, guarded_some, and_self]

/-- Settles O1: every field is the one the construction names, and no identity is cached. -/
theorem resetLeavesTheSessionDisconnected : Obligations.ResetLeavesTheSessionDisconnected := by
  unfold Obligations.ResetLeavesTheSessionDisconnected
  intro c t
  obtain ⟨hdid, hpage, hflash⟩ := identity_refused (s := State.resetWith c t) rfl
  exact ⟨rfl, rfl, rfl, rfl, rfl, rfl, rfl, rfl, rfl, hdid, hpage, hflash, rfl⟩

/-- The construction of the Session meets the invariant: nothing is issued, and the lines are released (R42, R43). -/
theorem resetWith_inv {c : Config} {t : Target} (hvalid : c.valid = true) (hmem : t.mem.wf = true) :
    Inv (State.resetWith c t) where
  params := hvalid
  publicPort := rfl
  undisturbed := rfl
  betweenOps := rfl
  identity := by simp [State.resetWith]
  lines := rfl
  memory := hmem

/-- Settles O2: the reference parameters are valid, and the reference memory lists nothing. -/
theorem resetMeetsTheInvariant : Obligations.ResetMeetsTheInvariant := by
  unfold Obligations.ResetMeetsTheInvariant
  exact ⟨fun _ _ hvalid hmem => resetWith_inv hvalid hmem, resetWith_inv (by decide) (by decide)⟩

/-! ### What a step can do -/

/-- A step that answers a next state found an idle port, or a request that decodes; a disruption stops it if it is on the wire
(R296, R11, R320). -/
theorem step_next_cases {s t : State} (h : step s = .next t) :
    (s.port = [] ∧ t = s) ∨
    ∃ r rest i, s.port = r :: rest ∧ decode s.cfg r = .ok i ∧
      ((s.disrupt = none ∧ exec i { s with port := rest } = .next t) ∨
        ∃ n, s.disrupt = some n ∧
          ((∃ p, t = stopped i p n { s with port := rest, disrupt := none }) ∨
            exec i { s with port := rest, disrupt := none } = .next t)) := by
  cases hport : s.port with
  | nil =>
    rw [step_of_port_nil hport] at h
    exact .inl ⟨rfl, (Host.Outcome.next.inj h).symm⟩
  | cons r rest =>
    refine .inr ⟨r, rest, ?_⟩
    cases hdec : decode s.cfg r with
    | error e => rw [step_of_decode_error hport hdec] at h; cases h
    | ok i =>
      refine ⟨i, rfl, rfl, ?_⟩
      rcases Option.eq_none_or_eq_some s.disrupt with hdis | ⟨n, hdis⟩
      · exact .inl ⟨hdis, (step_of_decode_ok hport hdec hdis).symm.trans h⟩
      · refine .inr ⟨n, hdis, ?_⟩
        simp only [step, hport, hdec, hdis, disrupted] at h
        split at h
        · exact .inl ⟨_, (Host.Outcome.next.inj h).symm⟩
        · exact .inr h

/-- A property of the state a meaning leaves when it completes. -/
def WhenNext (P : State → Prop) (o : Res) : Prop := ∀ t, o = .next t → P t

theorem whenNext_reply {P : State → Prop} {v : Value} {s : State} (h : P { s with result := some v }) :
    WhenNext P (reply v s) := by
  intro t ht
  exact reply_eq_next.1 ht ▸ h

/-- Behind an admission the property is needed only where the request is admitted. -/
theorem whenNext_guarded {P : State → Prop} {r : Option Refusal} {run : Res} (h : r = none → WhenNext P run) :
    WhenNext P (guarded r run) := by
  intro t ht
  obtain ⟨hadmit, hrun⟩ := guarded_eq_next.1 ht
  exact h hadmit t hrun

/-! ### What no operation changes -/

/-- The fields that nothing on the engine writes: the parameters, the port and the disruption input, and of the target its constants
and the canonical form (R31, R40, R41). -/
structure Lasting (s t : State) : Prop where
  cfg     : t.cfg = s.cfg
  port    : t.port = s.port
  disrupt : t.disrupt = s.disrupt
  target  : keeps s.target t.target

theorem lasting_of_quiet {s t : State} (h : Quiet s t) : Lasting s t := ⟨h.cfg, h.port, h.disrupt, h.target⟩

/-- The host-visible registers, the answer and the sequencer are not among these fields. -/
theorem Lasting.registers {s t : State} (h : Lasting s t) (sess : SessTag) (cid : Byte) (did : DeviceId) (idValid : Bool)
    (cmp : CompareResult) (seq : Seq) (result : Option Value) :
    Lasting s { t with sess := sess, cid := cid, did := did, idValid := idValid, cmp := cmp, seq := seq, result := result } :=
  ⟨h.cfg, h.port, h.disrupt, h.target⟩

theorem reply_lasting (v : Value) {s t : State} (h : Quiet s t) : WhenNext (Lasting s) (reply v t) :=
  whenNext_reply ((lasting_of_quiet h).registers t.sess t.cid t.did t.idValid t.cmp t.seq (some v))

theorem guarded_reply_lasting (r : Option Refusal) (v : Value) {s t : State} (h : Quiet s t) :
    WhenNext (Lasting s) (guarded r (reply v t)) :=
  whenNext_guarded fun _ => reply_lasting v h

/-- A transport primitive by itself is one step of a script. -/
theorem reply_run_lasting (v : Value) (m : Micro) (s : State) : WhenNext (Lasting s) (reply v (m.run s).2) :=
  reply_lasting v (run_quiet m s)

theorem sendCommand_lasting (o : BitVec 6) (p : Addr18) (s : State) : WhenNext (Lasting s) (sendCommand o p s) :=
  reply_run_lasting .unit (.command o (paramArg p) s.cfg.tRead) s

theorem sendLiteral_lasting (w : Word24) (s : State) : WhenNext (Lasting s) (sendLiteral w s) :=
  reply_run_lasting .unit (.word w s.cfg.tMode) s

theorem execEnter_lasting (s : State) : WhenNext (Lasting s) (execEnter s) :=
  whenNext_reply ((lasting_of_quiet (perform_quiet .enter (enterScript s.cfg) s)).registers _ _ _ _ _ _ _)

theorem execExit_lasting (s : State) : WhenNext (Lasting s) (execExit s) :=
  whenNext_reply ((lasting_of_quiet (perform_quiet .exit (exitScript s.cfg s.sess) s)).registers _ _ _ _ _ _ _)

theorem eraseAt_lasting (op : Instr) (a : Word32) (s : State) : WhenNext (Lasting s) (eraseAt op a s) :=
  guarded_reply_lasting _ _ (perform_quiet _ _ _)

theorem readAt_lasting (op : Instr) (a : Word32) (n : Nat) (s : State) : WhenNext (Lasting s) (readAt op a n s) :=
  guarded_reply_lasting _ _ (perform_quiet _ _ _)

theorem writeAt_lasting (op : Instr) (a : Word32) (buf : List Byte) (s : State) : WhenNext (Lasting s) (writeAt op a buf s) :=
  guarded_reply_lasting _ _ (perform_quiet _ _ _)

theorem compared_lasting (op : Instr) (a : Word32) (buf : List Byte) (v : Value) (s : State) :
    WhenNext (Lasting s) (reply v (compared op a buf s).2) :=
  whenNext_reply ((lasting_of_quiet (perform_quiet op (readScript s.cfg a buf.length) s)).registers _ _ _ _ _ _ _)

theorem compareAt_lasting (op : Instr) (a : Word32) (buf : List Byte) (s : State) :
    WhenNext (Lasting s) (compareAt op a buf s) :=
  whenNext_guarded fun _ => compared_lasting op a buf _ s

theorem verifyAt_lasting (op : Instr) (a : Word32) (buf : List Byte) (s : State) :
    WhenNext (Lasting s) (verifyAt op a buf s) :=
  whenNext_guarded fun _ => compared_lasting op a buf _ s

/-- No instruction writes a parameter, the port, the disruption input or a constant of the target. -/
theorem exec_lasting (i : Instr) (s : State) : WhenNext (Lasting s) (exec i s) := by
  cases i with
  | cmdReadCid | cmdReadDid | cmdRead | cmdProgram | cmdPageErase | cmdMassErase => exact sendCommand_lasting _ _ s
  | enterWord | exitWord => exact sendLiteral_lasting _ s
  | resp9 d last => exact reply_run_lasting _ (.respond d last s.cfg.tRead) s
  | pay9 d last => exact reply_run_lasting _ (.payload d last s.cfg.tRead s.cfg.tProgram) s
  | enter => exact execEnter_lasting s
  | exit => exact execExit_lasting s
  | locked | massErase | flashErase => exact guarded_reply_lasting _ _ (perform_quiet _ _ s)
  | deviceId | pageSize | flashSize | config1 => exact guarded_reply_lasting _ _ (Quiet.refl s)
  | configErase | erase => exact eraseAt_lasting _ _ s
  | configRead | flashRead | read => exact readAt_lasting _ _ _ s
  | configWrite => exact whenNext_guarded fun _ => writeAt_lasting _ _ _ s
  | configCompare => exact whenNext_guarded fun _ => compareAt_lasting _ _ _ s
  | configVerify => exact whenNext_guarded fun _ => verifyAt_lasting _ _ _ s
  | flashWrite | write => exact writeAt_lasting _ _ _ s
  | flashCompare | compare => exact compareAt_lasting _ _ _ s
  | flashVerify | verify => exact verifyAt_lasting _ _ _ s
  | write24 w t => exact reply_run_lasting _ (.word w t) s
  | write24p o p t => exact reply_lasting _ (run_quiet (.word (pack o p) t) s)
  | read9 last t => exact reply_run_lasting _ (.receive last t) s
  | write9 d last tb tt => exact reply_run_lasting _ (.payload d last tb tt) s
  | tiktok setup hold => exact reply_run_lasting _ (.pulse setup hold) s
  | bitin t => exact reply_run_lasting _ (.bitIn t) s
  | settle t => exact reply_run_lasting _ (.settle t) s
  | resetpulse => exact reply_run_lasting _ .resetPulse s
  | drive => exact reply_run_lasting _ .drive s
  | release => exact reply_run_lasting _ .release s
  | pack | needErase | needWrite | equal | pageSizeOf | flashSizeOf | config0 | cbs | ldsize =>
    exact reply_lasting _ (Quiet.refl s)

/-- No step changes the parameters, and every step keeps the target's constants and canonical form, stopped or not (R320). -/
theorem step_keeps {s t : State} (h : step s = .next t) : t.cfg = s.cfg ∧ keeps s.target t.target := by
  obtain ⟨-, rfl⟩ | ⟨r, rest, i, -, -, ⟨-, hexec⟩ | ⟨n, -, ⟨p, rfl⟩ | hexec⟩⟩ := step_next_cases h
  · exact ⟨rfl, keeps_refl _⟩
  · obtain ⟨hcfg, -, -, htarget⟩ := exec_lasting i _ t hexec
    exact ⟨hcfg, htarget⟩
  · obtain ⟨hcfg, -, -, -, -, -, -, -, -, htarget, -⟩ := stopped_keeps i p n { s with port := rest, disrupt := none }
    exact ⟨hcfg, htarget⟩
  · obtain ⟨hcfg, -, -, htarget⟩ := exec_lasting i _ t hexec
    exact ⟨hcfg, htarget⟩

/-- Settles O45: every step keeps the parameters and the constants, by the dispatch if it runs whole and by its cut if it is
stopped. -/
theorem parametersAndTargetConstantsAreFixed : Obligations.ParametersAndTargetConstantsAreFixed := by
  unfold Obligations.ParametersAndTargetConstantsAreFixed
  intro s t h
  obtain ⟨hcfg, hconst, -⟩ := step_keeps h
  exact ⟨hcfg, hconst⟩

/-! ### A packet spells a host operation -/

theorem takeWithBuffer_inv {f : List Byte → Instr} {bs rest : List Byte} {i : Instr}
    (h : takeWithBuffer f bs = .ok (i, rest)) : ∃ buf, i = f buf := by
  unfold takeWithBuffer at h
  split at h <;> cases h
  exact ⟨_, rfl⟩

theorem takeWithRange_inv {f : Word32 → Nat → Instr} {bs rest : List Byte} {i : Instr}
    (h : takeWithRange f bs = .ok (i, rest)) : ∃ a n, i = f a n := by
  unfold takeWithRange at h
  split at h
  · cases h
  · split at h <;> cases h
    exact ⟨_, _, rfl⟩

theorem takeWithAddressBuffer_inv {f : Word32 → List Byte → Instr} {bs rest : List Byte} {i : Instr}
    (h : takeWithAddressBuffer f bs = .ok (i, rest)) : ∃ a buf, i = f a buf := by
  unfold takeWithAddressBuffer at h
  split at h
  · cases h
  · obtain ⟨buf, rfl⟩ := takeWithBuffer_inv h
    exact ⟨_, buf, rfl⟩

/-- Whatever the selector, the operands that follow it are those of a host operation (R101). -/
theorem decodeOperands_isHostOp {k : Nat} {bs rest : List Byte} {i : Instr} (h : decodeOperands k bs = .ok (i, rest)) :
    i.isHostOp = true := by
  unfold decodeOperands at h
  split at h
  case h_10 | h_11 | h_12 => obtain ⟨buf, rfl⟩ := takeWithBuffer_inv h; rfl
  case h_13 | h_14 => obtain ⟨a, n, rfl⟩ := takeWithRange_inv h; rfl
  case h_15 | h_16 | h_17 => obtain ⟨a, buf, rfl⟩ := takeWithAddressBuffer_inv h; rfl
  all_goals cases h
  all_goals rfl

/-- A packet spells a host operation or nothing (R101, R102). -/
theorem decodePacket_isHostOp {bs : List Byte} {i : Instr} (h : decodePacket bs = .ok i) : i.isHostOp = true := by
  unfold decodePacket at h
  split at h
  · cases h
  · rename_i hpre
    cases h
    cases bs with
    | nil => cases hpre
    | cons sel rest => exact decodeOperands_isHostOp hpre
  · cases h

/-! ### The lines inside a session -/

/-- A step that neither releases the lines nor plays the reset literal: all that an operation of a session does (R32). -/
def Micro.keepsSession : Micro → Bool
  | .release => false
  | .resetPulse => false
  | .setAddr _ => true
  | .setRem _ => true
  | .decRem => true
  | .drive => true
  | .word _ _ => true
  | .command _ _ _ => true
  | .receive _ _ => true
  | .payload _ _ _ _ => true
  | .settle _ => true
  | .lockQuery => true
  | .pulse _ _ => true
  | .bitIn _ => true
  | .respond _ _ _ => true

/-- Such a step leaves the clock low, DAT driven and RST as it is (R151 to R157). -/
theorem run_linesAgree {m : Micro} (hm : m.keepsSession = true) {s : State} (h : linesAgree .entered s.lines) :
    linesAgree .entered (m.run s).2.lines := by
  obtain ⟨hclk, hdat, hrst⟩ := h
  cases m with
  | release => cases hm
  | resetPulse => cases hm
  | setAddr | setRem | decRem => exact ⟨hclk, hdat, hrst⟩
  | pulse | bitIn | settle => exact ⟨rfl, hdat, hrst⟩
  | drive => exact ⟨rfl, show Level.low ≠ .z by decide, hrst⟩
  | word | command => simp [linesAgree, Micro.run, write24p, ofBit_ne_z, hrst]
  | receive | payload | respond => simp [linesAgree, Micro.run, receiveFrame, hrst]
  | lockQuery =>
    obtain ⟨-, -, -, -, hrst'⟩ := lockCalls_frame s.cfg.lockQuery
      (emit .lockQuery (s.withTarget (s.target.lockAnswer s.cfg s.draws).2))
    obtain ⟨hclk', hdat'⟩ := lockCalls_lines s.cfg.lockQuery
      (emit .lockQuery (s.withTarget (s.target.lockAnswer s.cfg s.draws).2)) hclk hdat
    exact ⟨hclk', hdat', hrst'.trans_ne hrst⟩

theorem runSteps_linesAgree (ms : List Micro) : ∀ {s : State}, ms.all Micro.keepsSession = true → linesAgree .entered s.lines →
    linesAgree .entered (runSteps ms s).2.lines := by
  induction ms with
  | nil => intro s _ h; exact h
  | cons m ms ih =>
    intro s hms h
    obtain ⟨hm, hms⟩ := Bool.and_eq_true_iff.1 hms
    exact ih hms (run_linesAgree hm h)

theorem receiveFrames_keepsSession (t : Profile) (n : Nat) : (receiveFrames t n).all Micro.keepsSession = true := by
  induction n with
  | zero => rfl
  | succ n ih => exact ih

theorem payloadFrames_keepsSession (t : Profile) (buf : List Byte) : ∀ slices,
    (payloadFrames t buf slices).all Micro.keepsSession = true := by
  induction buf with
  | nil => intro slices; rfl
  | cons d buf ih =>
    intro slices
    cases slices with
    | nil => rfl
    | cons tt slices => exact ih slices

theorem perByteFrames_keepsSession (c : Config) (buf : List Byte) : ∀ a slices,
    (perByteFrames c a buf slices).all Micro.keepsSession = true := by
  induction buf with
  | nil => intro a slices; rfl
  | cons d buf ih =>
    intro a slices
    cases slices with
    | nil => rfl
    | cons tt slices => exact ih (a + 1) slices

theorem eraseEach_keepsSession (c : Config) (addrs : List Nat) : ∀ slices,
    (eraseEach c addrs slices).all Micro.keepsSession = true := by
  induction addrs with
  | nil => intro slices; rfl
  | cons a addrs ih =>
    intro slices
    cases slices with
    | nil => rfl
    | cons t slices => exact ih slices

theorem readScript_keepsSession (c : Config) (a : Word32) (n : Nat) : (readScript c a n).all Micro.keepsSession = true :=
  receiveFrames_keepsSession c.tRead n

theorem writeScript_keepsSession (c : Config) (a : Word32) (buf : List Byte) :
    (writeScript c a buf).all Micro.keepsSession = true := by
  unfold writeScript
  cases c.writeMode with
  | burst => exact payloadFrames_keepsSession _ _ _
  | perByte => exact perByteFrames_keepsSession _ _ _ _

/-! ### Every host operation keeps the invariant -/

/-- The answer and `CMP` are not in the invariant. -/
theorem Inv.answered {s : State} (h : Inv s) (cmp : CompareResult) (result : Option Value) :
    Inv { s with cmp := cmp, result := result } :=
  ⟨h.params, h.publicPort, h.undisturbed, h.betweenOps, h.identity, h.lines, h.memory⟩

/-- The invariant is not lost when the engine takes the request at the head of the port. -/
theorem Inv.popped {s : State} (h : Inv s) {r : Request} {rest : List Request} (hport : s.port = r :: rest) :
    Inv { s with port := rest } where
  params := h.params
  publicPort := by
    have hall := h.publicPort
    rw [hport, List.all_cons, Bool.and_eq_true] at hall
    exact hall.2
  undisturbed := h.undisturbed
  betweenOps := h.betweenOps
  identity := h.identity
  lines := h.lines
  memory := h.memory

/-- Valid parameters have a reset literal (R94). -/
theorem resetLiteral_ne_nil {c : Config} (hvalid : c.valid = true) : c.resetLiteral ≠ [] := by
  rintro hnil
  simp [Config.valid, hnil] at hvalid

/-- Beyond what nothing writes, an operation owes the invariant an idle sequencer, the identity with the session, and the lines. -/
theorem Inv.of_lasting {s t : State} (h : Inv s) (hlast : Lasting s t) (hseq : t.seq = .idle)
    (hid : t.sess = .entered ↔ t.idValid = true) (hlines : linesAgree t.sess t.lines) : Inv t where
  params := by rw [hlast.cfg]; exact h.params
  publicPort := by rw [hlast.port]; exact h.publicPort
  undisturbed := hlast.disrupt.trans h.undisturbed
  betweenOps := hseq
  identity := hid
  lines := hlines
  memory := hlast.target.2 h.memory

section HostOps

variable {s : State} (hinv : Inv s)
include hinv

/-- Steps that stay inside the session keep the invariant. -/
theorem perform_inv {ms : List Micro} (op : Instr) (hms : ms.all Micro.keepsSession = true) (hsess : s.sess = .entered) :
    Inv (perform op ms s).2 := by
  have hquiet := perform_quiet op ms s
  have hlines : linesAgree .entered (perform op ms s).2.lines := by
    rw [perform_eq]
    exact runSteps_linesAgree ms hms (hsess ▸ hinv.lines)
  refine hinv.of_lasting (lasting_of_quiet hquiet) rfl ?identity ?lines
  case identity => rw [hquiet.sess, hquiet.idValid]; exact hinv.identity
  case lines => rw [hquiet.sess, hsess]; exact hlines

/-- Accessors answer from the registers alone. -/
theorem reply_inv (v : Value) : WhenNext Inv (reply v s) := whenNext_reply (hinv.answered s.cmp (some v))

theorem perform_reply_inv {ms : List Micro} (op : Instr) (v : Value) (hms : ms.all Micro.keepsSession = true)
    (hsess : s.sess = .entered) : WhenNext Inv (reply v (perform op ms s).2) :=
  reply_inv (perform_inv hinv op hms hsess) v

theorem eraseAt_inv (op : Instr) (a : Word32) : WhenNext Inv (eraseAt op a s) :=
  whenNext_guarded fun hadmit => perform_reply_inv hinv op _ rfl (admission_eq_none.1 hadmit).entered

theorem readAt_inv (op : Instr) (a : Word32) (n : Nat) : WhenNext Inv (readAt op a n s) :=
  whenNext_guarded fun hadmit =>
    perform_reply_inv hinv op _ (readScript_keepsSession _ _ _) (admission_eq_none.1 hadmit).entered

theorem writeAt_inv (op : Instr) (a : Word32) (buf : List Byte) : WhenNext Inv (writeAt op a buf s) :=
  whenNext_guarded fun hadmit =>
    perform_reply_inv hinv op _ (writeScript_keepsSession _ _ _) (admission_eq_none.1 hadmit).entered

theorem compared_inv (op : Instr) (a : Word32) (buf : List Byte) (v : Value) (hsess : s.sess = .entered) :
    WhenNext Inv (reply v (compared op a buf s).2) :=
  whenNext_reply ((perform_inv hinv op (readScript_keepsSession _ _ _) hsess).answered _ _)

theorem compareAt_inv (op : Instr) (a : Word32) (buf : List Byte) : WhenNext Inv (compareAt op a buf s) :=
  whenNext_guarded fun hadmit => compared_inv hinv op a buf _ (admission_eq_none.1 hadmit).entered

theorem verifyAt_inv (op : Instr) (a : Word32) (buf : List Byte) : WhenNext Inv (verifyAt op a buf s) :=
  whenNext_guarded fun hadmit => compared_inv hinv op a buf _ (admission_eq_none.1 hadmit).entered

theorem execFlashErase_inv (a : Word32) (n : Nat) : WhenNext Inv (execFlashErase a n s) :=
  whenNext_guarded fun hadmit =>
    perform_reply_inv hinv _ _ (eraseEach_keepsSession _ _ _) (admission_eq_none.1 hadmit).entered

/-- An operation behind the session check runs inside the session (R283). -/
theorem admitSession_perform_inv {ms : List Micro} (op : Instr) (v : Value) (hms : ms.all Micro.keepsSession = true) :
    WhenNext Inv (guarded (admitSession s) (reply v (perform op ms s).2)) := by
  refine whenNext_guarded fun hadmit => perform_reply_inv hinv op v hms ?_
  cases hsess : s.sess with
  | entered => rfl
  | disconnected => rw [admitSession_eq_some.2 ⟨rfl, hsess⟩] at hadmit; cases hadmit

/-- ENTER caches the identity and leaves the lines driven (R120, R43). -/
theorem execEnter_inv : WhenNext Inv (execEnter s) := by
  intro t ht
  have hlast := execEnter_lasting s t ht
  rw [execEnter_next] at ht
  obtain rfl := Host.Outcome.next.inj ht
  have hlines := enterScript_lines (resetLiteral_ne_nil hinv.params)
  exact hinv.of_lasting hlast rfl (by simp [enterFinish]) hlines

/-- EXIT drops the identity and releases the lines (R122, R43). -/
theorem execExit_inv : WhenNext Inv (execExit s) := by
  intro t ht
  have hlast := execExit_lasting s t ht
  rw [execExit_next] at ht
  obtain rfl := Host.Outcome.next.inj ht
  exact hinv.of_lasting hlast rfl (by simp) (exitScript_lines s)

/-- Every operation of the public surface keeps the invariant (R43). -/
theorem exec_inv {i : Instr} (hop : i.isHostOp = true) : WhenNext Inv (exec i s) := by
  cases i with
  | enter => exact execEnter_inv hinv
  | exit => exact execExit_inv hinv
  | locked => exact admitSession_perform_inv hinv _ _ rfl
  | massErase => exact admitSession_perform_inv hinv _ _ rfl
  | deviceId | pageSize | flashSize => exact whenNext_guarded fun _ => reply_inv hinv _
  | configErase => exact eraseAt_inv hinv _ _
  | configRead => exact readAt_inv hinv _ _ _
  | configWrite => exact whenNext_guarded fun _ => writeAt_inv hinv _ _ _
  | configCompare => exact whenNext_guarded fun _ => compareAt_inv hinv _ _ _
  | configVerify => exact whenNext_guarded fun _ => verifyAt_inv hinv _ _ _
  | flashErase a n => exact execFlashErase_inv hinv a n
  | flashRead => exact readAt_inv hinv _ _ _
  | flashWrite => exact writeAt_inv hinv _ _ _
  | flashCompare => exact compareAt_inv hinv _ _ _
  | flashVerify => exact verifyAt_inv hinv _ _ _
  | _ => cases hop

end HostOps

/-- A request of a port that meets the invariant is a packet, so that it decodes to a host operation (R7, R101). -/
theorem Inv.head_isHostOp {s : State} (h : Inv s) {r : Request} {rest : List Request} {i : Instr} (hport : s.port = r :: rest)
    (hdec : decode s.cfg r = .ok i) : i.isHostOp = true := by
  have hall := h.publicPort
  rw [hport, List.all_cons, Bool.and_eq_true] at hall
  cases r with
  | packet bs => exact decodePacket_isHostOp hdec
  | word | response | payload | call => exact absurd hall.1 (by simp [Request.isPacket])

/-- Settles O3: an idle step changes nothing, no disruption is pending, and the request taken from the port is a host operation, each
of which keeps the invariant. -/
theorem stepKeepsTheInvariant : Obligations.StepKeepsTheInvariant := by
  unfold Obligations.StepKeepsTheInvariant
  intro s t hinv h
  obtain ⟨-, rfl⟩ | ⟨r, rest, i, hport, hdec, ⟨-, hexec⟩ | ⟨n, hdis, -⟩⟩ := step_next_cases h
  · exact hinv
  · exact exec_inv (hinv.popped hport) (hinv.head_isHostOp hport hdec) t hexec
  · rw [hinv.undisturbed] at hdis; cases hdis

end Sys2Proof.Machine
end

section
/-! PROOFS. FLASH_ERASE under the contract (44_wrappers.md R236, 20_memory.md R75): the pages its addresses erase are the
pages of the range. -/

namespace Sys2Proof.Machine

open Sys2Proof.Laws

/-- A page of size `p` holds the addresses with its quotient. -/
theorem inRange_pageBase {p e x : Nat} (hp : 0 < p) : inRange (pageBase p e) p x = true ↔ x / p = e / p := by
  have hbase : pageBase p e = e / p * p := by
    have := Nat.div_add_mod' e p
    unfold pageBase
    omega
  rw [inRange_iff, hbase, Nat.div_eq_iff hp]
  omega

/-- The pages of FLASH_ERASE's addresses are exactly those from the first of the range to its last (R236). -/
theorem exists_eraseAddress_page {p a n q : Nat} (hp : 0 < p) (hn : 0 < n) :
    (∃ e ∈ eraseAddresses p a n, e / p = q) ↔ a / p ≤ q ∧ q ≤ (a + n - 1) / p := by
  constructor
  · rintro ⟨e, he, rfl⟩
    obtain ⟨hlo, hhi⟩ := eraseAddresses_mem hp hn he
    exact ⟨Nat.div_le_div_right hlo, Nat.div_le_div_right (by omega)⟩
  · rintro ⟨hlo, hhi⟩
    rcases Nat.eq_or_lt_of_le hlo with rfl | hlt
    · exact ⟨a, List.mem_cons_self, rfl⟩
    · have hlen := eraseAddresses_length (a := a) hp hn
      have hget : (eraseAddresses p a n)[q - a / p - 1 + 1]? ≠ none := by
        rw [ne_eq, List.getElem?_eq_none_iff]
        omega
      obtain ⟨e, he⟩ := Option.ne_none_iff_exists'.1 hget
      refine ⟨e, List.mem_of_getElem? he, ?_⟩
      rw [(eraseAddresses_get he).1, Nat.mul_div_cancel _ hp]
      omega

/-- FLASH_ERASE under the contract: the target's pages of its addresses are erased, the last address is in `TPTR` (R37), and nothing
else of the target changes. -/
theorem flashErase_contract {a : Word32} {n : Nat} {s t : State} (hc : Contract s) (hcov : s.target.covers s.cfg a.toNat n)
    (h : exec (.flashErase a n) s = .next t) : t.target = { s.target with
      ptr := t.addr.toNat
      mem := erasedPages s.cfg s.target (eraseAddresses (pageSizeOf s.did) a.toNat n) s.target.mem } := by
  have hadm : Admissible a.toNat n s := admissible_of_next h
  have hlt : ∀ e ∈ eraseAddresses (pageSizeOf s.did) a.toNat n, e < 262144 := fun e he => by
    have := eraseAddresses_mem (pageSizeOf_pos _) hadm.nonempty he
    have := hadm.fits
    omega
  have hhas : ∀ e ∈ eraseAddresses (pageSizeOf s.did) a.toNat n, s.target.has s.cfg e = true := fun e he => by
    obtain ⟨hlo, hhi⟩ := eraseAddresses_mem (pageSizeOf_pos _) hadm.nonempty he
    have := covers_has hcov (i := e - a.toNat) (by omega)
    rwa [Nat.add_sub_cancel' hlo] at this
  have hlen := slicesOf_length s.cfg .pageErase n (eraseAddresses (pageSizeOf s.did) a.toNat n).length
  obtain ⟨-, htarget⟩ := eraseEach_contract _ _ s hlen hlt hc.params hc.target hhas
  obtain ⟨addr, txsr, bitcnt, lines, pins, draws, target, hsteps, -, hlast⟩ := eraseEach_shape s.cfg _ _ s hlen hlt
  obtain ⟨e, he⟩ : ∃ e, (eraseAddresses (pageSizeOf s.did) a.toNat n).getLast? = some e := ⟨_, List.getLast?_cons⟩
  have headdr : addr.toNat = e := by
    have := hlt e (List.mem_of_getLast? he)
    rw [(hlast e he).1, BitVec.toNat_ofNat]
    omega
  have hnext : execFlashErase a n s = .next t := h
  rw [execFlashErase_next hadm] at hnext
  obtain rfl := Host.Outcome.next.inj hnext
  have hptr : (runSteps (flashEraseScript s.cfg s.did a n) s).2.addr.toNat =
      (eraseAddresses (pageSizeOf s.did) a.toNat n).getLast?.getD s.target.ptr := by
    rw [flashEraseScript, hsteps, he]
    exact headdr
  rw [hptr]
  exact htarget

/-- In flash, the bytes that the pages of FLASH_ERASE's addresses hold are those of the whole pages the range touches (R75, R236). -/
theorem erasedInFlash_iff {c : Config} {t : Target} {a n : Nat} (hp : 0 < t.page) (hn : 0 < n) (hflash : a + n ≤ t.flash)
    (x : Nat) : (eraseAddresses t.page a n).any (fun e => inRange (t.pageOf c e).1 (t.pageOf c e).2 x) = true ↔
      a / t.page * t.page ≤ x ∧ x < ((a + n - 1) / t.page + 1) * t.page :=
  calc
    _ ↔ ∃ e ∈ eraseAddresses t.page a n, e / t.page = x / t.page := by
      rw [List.any_eq_true]
      refine exists_congr fun e => and_congr_right fun he => ?_
      have hlt : e < t.flash := (eraseAddresses_mem hp hn he).2.trans_le hflash
      rw [Target.pageOf, if_pos hlt, inRange_pageBase hp, eq_comm]
    _ ↔ a / t.page ≤ x / t.page ∧ x / t.page ≤ (a + n - 1) / t.page := exists_eraseAddress_page hp hn
    _ ↔ _ := by rw [Nat.le_div_iff_mul_le hp, ← Nat.div_lt_iff_lt_mul hp, Nat.lt_add_one_iff]

/-- Beyond flash, every address of FLASH_ERASE erases the whole Config block, whatever the page size (R75). -/
theorem erasedInConfig_iff {c : Config} {t : Target} {p a n : Nat} (hp : 0 < p) (hn : 0 < n) (hflash : t.flash ≤ a) (x : Nat) :
    (eraseAddresses p a n).any (fun e => inRange (t.pageOf c e).1 (t.pageOf c e).2 x) = true ↔
      c.configBase.toNat ≤ x ∧ x < c.configBase.toNat + 5 := by
  have hblock : ∀ e ∈ eraseAddresses p a n, t.pageOf c e = (c.configBase.toNat, configLen) := fun e he =>
    if_neg (not_lt.2 (hflash.trans (eraseAddresses_mem hp hn he).1))
  rw [List.any_eq_true]
  constructor
  · rintro ⟨e, he, hx⟩
    rw [hblock e he] at hx
    exact inRange_iff.1 hx
  · intro hx
    have ha : a ∈ eraseAddresses p a n := List.mem_cons_self
    exact ⟨a, ha, by rw [hblock a ha]; exact inRange_iff.2 hx⟩

/-- Settles O53: an address in flash erases the target's page that holds it, an address of the Config region the whole block. -/
theorem flashEraseClearsEveryPageTouched : Obligations.FlashEraseClearsEveryPageTouched := by
  unfold Obligations.FlashEraseClearsEveryPageTouched
  intro a n s t hc hn h
  refine ⟨fun hpage hflash => ?flash, fun hbeyond hlo hhi => ?config⟩
  case flash =>
    have htarget := flashErase_contract hc (.inl hflash) h
    refine ⟨by rw [htarget], fun x => ?_⟩
    rw [htarget, read_erasedPages, hpage]
    exact if_congr (erasedInFlash_iff (hpage ▸ pageSizeOf_pos s.did) hn hflash x) rfl rfl
  case config =>
    have htarget := flashErase_contract hc (.inr ⟨hlo, hhi⟩) h
    refine ⟨by rw [htarget], fun x => ?_⟩
    rw [htarget, read_erasedPages]
    exact if_congr (erasedInConfig_iff (pageSizeOf_pos s.did) hn hbeyond x) rfl rfl

end Sys2Proof.Machine
end

section
/-! PROOFS. The target contract (20_memory.md R68 to R80): what the wire words, the session operations and the bursts of READ and
WRITE do to the target. -/

namespace Sys2Proof.Machine

open Sys2Proof.Laws

/-! ### Wire words by themselves -/

/-- A command word by itself: the target does what the word makes it do (R91). -/
theorem sendCommand_target {o : BitVec 6} {p : Addr18} {s : State} {target : Target}
    (h : (s.target.onWord s.cfg s.draws (pack (opcodeArg o) (paramArg p))).1 = target) :
    ∃ t, sendCommand o p s = .next t ∧ t.target = target := ⟨_, rfl, h⟩

/-- So does a literal word (R93). -/
theorem sendLiteral_target {w : Word24} {s : State} {target : Target}
    (h : (s.target.onWord s.cfg s.draws w).1 = target) :
    ∃ t, sendLiteral w s = .next t ∧ t.target = target := ⟨_, rfl, h⟩

/-- The two identity bytes, by the value of `DID_BYTE_ORDER` (R77, D13). -/
theorem didBytes_eq (c : Config) (did : DeviceId) : didBytes c did =
    if c.didByteOrder = .lowFirst then [did.extractLsb' 0 8, did.extractLsb' 8 8]
    else [did.extractLsb' 8 8, did.extractLsb' 0 8] := by
  unfold didBytes
  cases c.didByteOrder <;> rfl

theorem Target.has_of_lt {c : Config} {t : Target} {a : Nat} (h : a < t.flash) : t.has c a = true := by
  simp [Target.has, h]

theorem Target.has_of_config {c : Config} {t : Target} {a : Nat} (hlo : c.configBase.toNat ≤ a)
    (hhi : a < c.configBase.toNat + 5) : t.has c a = true := by
  simp [Target.has, inRange, configLen, hlo, hhi]

theorem Target.pageOf_of_lt {c : Config} {t : Target} {a : Nat} (h : a < t.flash) :
    t.pageOf c a = (a - a % t.page, t.page) := if_pos h

theorem Target.pageOf_of_le {c : Config} {t : Target} {a : Nat} (h : t.flash ≤ a) :
    t.pageOf c a = (c.configBase.toNat, 5) := if_neg (not_lt.2 h)

/-- The page-erase word by itself erases the page of its address (R75). -/
theorem cmdPageErase_target {s : State} (hc : Contract s) {a : Addr18} (ha : s.target.has s.cfg a.toNat = true) :
    ∃ t, exec (.cmdPageErase a) s = .next t ∧ t.target = { s.target with
      ptr := a.toNat
      mem := s.target.mem.erase (s.target.pageOf s.cfg a.toNat).1 (s.target.pageOf s.cfg a.toNat).2 } := by
  refine sendCommand_target ?_
  rw [onWord_pageErase hc.params (paramArg_lt a) hc.target (by rwa [paramArg_toNat]), paramArg_toNat]

/-- Outside the Config region, a mass erase clears flash and nothing else (R76). -/
theorem read_massErased {m : Memory} (hm : m.wf = true) (f : Nat → Byte) {base flash x : Nat}
    (hx : ¬ (base ≤ x ∧ x < base + 5)) :
    (Memory.fill f base configLen (m.erase 0 flash)).read x = if x < flash then 0xFF else m.read x := by
  have hout : ¬ inRange base configLen x = true := mt inRange_iff.1 hx
  rw [read_fill f base (erase_keeps_wf hm 0 flash), if_neg hout, read_erase]
  exact if_congr (by rw [inRange_iff]; omega) rfl rfl

/-- Settles O28: each word is classified as its row (R99), and a ready unlocked target does what the row's rule says. -/
theorem wireWordsActOnTheTarget : Obligations.WireWordsActOnTheTarget := by
  unfold Obligations.WireWordsActOnTheTarget
  intro s a
  refine ⟨fun hc => ?contract, fun hmatched hseen _ => ?enter⟩
  case enter => exact sendLiteral_target (by rw [onWord_enter hmatched hseen])
  case contract =>
    have hready : s.target.ready = true := (Bool.and_eq_true_iff.1 hc.target).1
    refine ⟨?readCid, ?readDid, ?read, ?program, fun hflash => ?flashPage, fun hbeyond hlo hhi => ?configPage, ?massErase, ?exit⟩
    case readCid => exact sendCommand_target (by rw [onWord_readCid hc.params (paramArg_lt _) hready])
    case readDid => exact sendCommand_target (by rw [onWord_readDid hc.params (paramArg_lt _) hready, didBytes_eq])
    case read => exact sendCommand_target (by rw [onWord_read hc.params (paramArg_lt a) hc.target, paramArg_toNat])
    case program => exact sendCommand_target (by rw [onWord_program hc.params (paramArg_lt a) hc.target, paramArg_toNat])
    case flashPage =>
      have h := cmdPageErase_target hc (a := a) (Target.has_of_lt hflash)
      rwa [Target.pageOf_of_lt hflash] at h
    case configPage =>
      have h := cmdPageErase_target hc (a := a) (Target.has_of_config hlo hhi)
      rwa [Target.pageOf_of_le hbeyond] at h
    case massErase =>
      obtain ⟨t, ht, htarget⟩ := sendCommand_target (o := s.cfg.opMassErase) (p := s.cfg.paramMassErase) (s := s)
        (by rw [onWord_massErase hc.params (paramArg_lt _) hc.target])
      refine ⟨t, ht, by rw [htarget], fun hwf x hx => ?_⟩
      rw [htarget]
      exact read_massErased hwf _ hx
    case exit => exact sendLiteral_target (by rw [onWord_exit hready])

/-! ### Entry, exit, and the queries of a session -/

/-- The target when programming mode has been entered (R71): nothing is open, and its memory, pointer and lock are as before. -/
def Target.entered (t : Target) : Target :=
  { t with mode := .prog, resetSeen := false, broken := false, burst := .idle, frame := .boundary }

theorem entered_ready {t : Target} (hmatched : t.matched = true) : t.entered.ready = true :=
  (ready_iff _).2 ⟨hmatched, rfl, rfl, rfl, rfl, rfl⟩

/-- The reset handshake and the enter word take a matching target into programming mode, whatever its state was (R71). -/
theorem onReset_onWord_enter {c : Config} {k : Nat} {t : Target} (hmatched : t.matched = true) :
    t.onReset.onWord c k c.enterWord = (t.entered, k) := onWord_enter (t := t.onReset) hmatched rfl

/-- Settles O29: the two instructions are the handshake and the word of R71, and RESETPULSE draws nothing in between. -/
theorem resetHandshakeAndEnterWordEnterProgMode : Obligations.ResetHandshakeAndEnterWordEnterProgMode := by
  unfold Obligations.ResetHandshakeAndEnterWordEnterProgMode
  intro s hmatched
  obtain ⟨u, hu, htarget⟩ := sendLiteral_target (w := s.cfg.enterWord)
    (s := { resetPulse s with result := some .unit }) (congrArg Prod.fst (onReset_onWord_enter hmatched))
  refine ⟨_, u, rfl, hu, ?_⟩
  rw [htarget]
  exact ⟨rfl, rfl, rfl, entered_ready hmatched⟩

/-- Under the contract the steps draw nothing: they receive `out` and leave the target at `target`. -/
structure Yields (ms : List Micro) (s : State) (out : List Byte) (target : Target) : Prop where
  bytes  : (runSteps ms s).1 = out
  draws  : (runSteps ms s).2.draws = s.draws
  target : (runSteps ms s).2.target = target

theorem Yields.append {xs ys : List Micro} {s : State} {out out' : List Byte} {t t' : Target} (h : Yields xs s out t)
    (h' : ∀ u : State, u.cfg = s.cfg → u.target = t → Yields ys u out' t') : Yields (xs ++ ys) s (out ++ out') t' := by
  obtain ⟨hbytes, hdraws, htarget⟩ := h' (runSteps xs s).2 (runSteps_quiet xs s).cfg h.target
  refine ⟨?_, ?_, ?_⟩ <;> rw [runSteps_append]
  · rw [h.bytes, hbytes]
  · exact hdraws.trans h.draws
  · exact htarget

theorem Yields.cons {m : Micro} {ms : List Micro} {s : State} {out out' : List Byte} {t t' : Target} (h : Yields [m] s out t)
    (h' : ∀ u : State, u.cfg = s.cfg → u.target = t → Yields ms u out' t') : Yields (m :: ms) s (out ++ out') t' :=
  h.append (xs := [m]) h'

theorem yields_word {w : Word24} {s : State} {t : Target} (h : s.target.onWord s.cfg s.draws w = (t, s.draws)) (p : Profile) :
    Yields [.word w p] s [] t := ⟨rfl, congrArg Prod.snd h, congrArg Prod.fst h⟩

theorem yields_command {o : BitVec 6} {a : Word32} {s : State} {t : Target}
    (h : s.target.onWord s.cfg s.draws (pack (opcodeArg o) a) = (t, s.draws)) (p : Profile) :
    Yields [.command o a p] s [] t := ⟨rfl, congrArg Prod.snd h, congrArg Prod.fst h⟩

theorem yields_drive (s : State) : Yields [.drive] s [] s.target := ⟨rfl, rfl, rfl⟩

theorem yields_resetPulse (s : State) : Yields [.resetPulse] s [] s.target.onReset := ⟨rfl, rfl, rfl⟩

theorem yields_release (s : State) : Yields [.release] s [] s.target := ⟨rfl, rfl, rfl⟩

/-- A response frame in the answer to an identity query of a ready target (R77). -/
theorem yields_identity {s : State} {t : Target} {b : Byte} {bs : List Byte} (hready : t.ready = true)
    (hs : s.target = { t with burst := .answer (b :: bs) }) (last : Bool) (p : Profile) :
    Yields [.receive last p] s [b] { t with burst := if last then .idle else .answer bs } := by
  obtain ⟨hmatched, hmode, hseen, -, hframe, hbroken⟩ := (ready_iff t).1 hready
  have hlive : s.target.live = true := by simp [hs, Target.live, hmatched, hmode, hseen, hbroken]
  have hburst : s.target.burst = .answer (b :: bs) := by rw [hs]
  have hbound : s.target.frame = .boundary := by rw [hs]; exact hframe
  have hread := read9_eq (last := last) (t := p) hbound (answering_identity hlive hburst)
  rw [nextByte_identity hlive hburst, afterFrame_identity hlive hburst hbound, hs] at hread
  constructor <;> simp [runSteps_cons, Micro.run, hread]

/-- The frame with `last` closes the answer (R73). -/
theorem yields_lastIdentity {s : State} {t : Target} {b : Byte} {bs : List Byte} (hready : t.ready = true)
    (hs : s.target = { t with burst := .answer (b :: bs) }) (p : Profile) : Yields [.receive true p] s [b] t := by
  have hidle : { t with burst := .idle } = t := by
    obtain ⟨-, -, -, hburst, -, -⟩ := (ready_iff t).1 hready
    rw [← hburst]
  exact hidle ▸ yields_identity hready hs true p

/-- The company-id query of ENTER (R120). -/
def cidQuery (c : Config) : List Micro :=
  [.command c.opReadCid (paramArg c.paramReadCid) c.tRead, .receive true c.tRead]

/-- The device-id query of ENTER (R120). -/
def didQuery (c : Config) : List Micro :=
  [.command c.opReadDid (paramArg c.paramReadDid) c.tRead, .receive false c.tRead, .receive true c.tRead]

theorem enterScript_eq (c : Config) :
    enterScript c = [.drive, .resetPulse, .word c.enterWord c.tMode] ++ (cidQuery c ++ didQuery c) := rfl

/-- A ready target answers `TCID` and is ready again as it was (R77). -/
theorem cidQuery_contract {c : Config} (hvalid : c.valid = true) {s : State} (hcfg : s.cfg = c)
    (hready : s.target.ready = true) : Yields (cidQuery c) s [s.target.cid] s.target := by
  subst hcfg
  exact (yields_command (onWord_readCid hvalid (paramArg_lt _) hready) _).cons
    fun u _ hu => yields_lastIdentity hready hu _

/-- A ready target answers the two bytes of `TDID` and is ready again as it was (R77). -/
theorem didQuery_contract {c : Config} (hvalid : c.valid = true) {s : State} (hcfg : s.cfg = c)
    (hready : s.target.ready = true) : Yields (didQuery c) s (didBytes c s.target.did) s.target := by
  subst hcfg
  obtain ⟨b0, b1, hbytes⟩ : ∃ b0 b1, didBytes s.cfg s.target.did = [b0, b1] := by
    rw [didBytes_eq]
    split <;> exact ⟨_, _, rfl⟩
  have hword := onWord_readDid (k := s.draws) hvalid (paramArg_lt s.cfg.paramReadDid) hready
  rw [hbytes] at hword ⊢
  exact (yields_command hword _).cons fun u _ hu =>
    (yields_identity hready hu false _).cons fun v _ hv => yields_lastIdentity hready hv _

/-- ENTER takes a matching target into programming mode and reads its identity, whatever its state was (R71, R77, R120). -/
theorem enterScript_contract {s : State} (hvalid : s.cfg.valid = true) (hmatched : s.target.matched = true) :
    Yields (enterScript s.cfg) s (s.target.cid :: didBytes s.cfg s.target.did) s.target.entered := by
  have hready := entered_ready hmatched
  have hentry : Yields [.drive, .resetPulse, .word s.cfg.enterWord s.cfg.tMode] s [] s.target.entered :=
    (yields_drive s).cons fun u hu hut => by
      refine (yields_resetPulse u).cons fun v hv hvt => yields_word ?_ _
      rw [hvt, hut, hv, hu, onReset_onWord_enter hmatched]
  rw [enterScript_eq]
  refine hentry.append fun u hu hut => ?_
  have hcid := cidQuery_contract hvalid hu (hut ▸ hready)
  rw [hut] at hcid
  refine hcid.append fun v hv hvt => ?_
  have hdid := didQuery_contract hvalid (hv.trans hu) (hvt ▸ hready)
  rwa [hvt] at hdid

/-- EXIT takes a ready target out of programming mode, issued while Disconnected or not (R72, R122). -/
theorem exitScript_contract {s : State} (hready : s.target.ready = true) (sess : SessTag) :
    Yields (exitScript s.cfg sess) s [] { s.target with mode := .run } := by
  have hexit : ∀ u : State, u.cfg = s.cfg → u.target = s.target →
      Yields [.word s.cfg.exitWord s.cfg.tMode, .release] u [] { s.target with mode := .run } := fun u hu hut => by
    rw [← hu, ← hut]
    exact (yields_word (onWord_exit (hut ▸ hready)) _).cons fun v _ hv => hv ▸ yields_release v
  cases sess with
  | disconnected => exact (yields_drive s).cons hexit
  | entered => exact hexit s rfl rfl

/-- The lock query of a ready target does not move it (R124). -/
theorem lockQuery_target {s : State} (hready : s.target.ready = true) : (lockQuery s).2.target = s.target := by
  simp [lockQuery, lockCalls_target, Target.lockAnswer, hready]

/-! ### The bursts of READ and WRITE -/

section Bursts

variable {s : State} {a : Word32} (hc : Contract s)
include hc

/-- Under the contract the target is live and unlocked, and nothing is open on it (R70). -/
theorem Contract.nothing_open :
    s.target.live = true ∧ s.target.lock = false ∧ s.target.burst = .idle ∧ s.target.frame = .boundary := by
  obtain ⟨hmatched, hmode, hseen, hburst, hframe, hlock, hbroken⟩ := (inContract_iff _).1 hc.target
  exact ⟨by simp [Target.live, hmatched, hmode, hseen, hbroken], hlock, hburst, hframe⟩

/-- READ under the contract: the bytes of the range, and `TPTR` past them; nothing else of the target changes (R73, R184). -/
theorem readScript_contract {n : Nat} (hadm : Admissible a.toNat n s) (hcov : s.target.covers s.cfg a.toNat n) :
    Yields (readScript s.cfg a n) s (s.target.mem.slice a.toNat n) { s.target with ptr := a.toNat + n } := by
  obtain ⟨hlive, hlock, hburst, hframe⟩ := hc.nothing_open
  have hword := onWord_read (k := s.draws) hc.params hadm.address hc.target
  obtain ⟨hbytes, hdraws, htarget⟩ := receiveFrames_contract s.cfg.tRead n
    (write24p (opcodeArg s.cfg.opRead) a s.cfg.tRead { s with addr := a.setWidth 18, rem := n }) hadm.nonempty
    (by simp only [write24p, write24_target, hword]; exact ⟨hlive, hlock, rfl, hframe⟩)
    (by simp only [write24p, write24_target, write24_cfg, hword]; exact fun i hi => covers_has hcov hi)
  simp only [write24p, write24_target, write24_draws, hword] at hbytes hdraws htarget
  rw [← hburst] at htarget
  exact ⟨hbytes, hdraws, htarget⟩

/-- WRITE under the contract, in either mode: the buffer AND-ed into the range, and `TPTR` where R74 leaves it; nothing else of
the target changes (R74, R186). -/
theorem writeScript_contract {buf : List Byte} (hadm : Admissible a.toNat buf.length s) (hwf : s.target.mem.wf = true)
    (hcov : s.target.covers s.cfg a.toNat buf.length) : ∃ m, AndedIn s.target.mem m a.toNat buf ∧
    (runSteps (writeScript s.cfg a buf) s).2.draws = s.draws ∧
    (runSteps (writeScript s.cfg a buf) s).2.target = { s.target with
      ptr := if s.cfg.writeMode = .burst then a.toNat + buf.length else a.toNat + buf.length - 1, mem := m } := by
  have hne : buf ≠ [] := List.ne_nil_of_length_pos hadm.nonempty
  have hlen := slicesOf_length s.cfg .program buf.length buf.length
  unfold writeScript
  cases hmode : s.cfg.writeMode with
  | burst =>
    obtain ⟨hlive, hlock, hburst, hframe⟩ := hc.nothing_open
    have hword := onWord_program (k := s.draws) hc.params hadm.address hc.target
    obtain ⟨m, hm, hdraws, htarget⟩ := payloadFrames_contract s.cfg.tRead buf _
      (write24p (opcodeArg s.cfg.opProgram) a s.cfg.tRead { s with addr := a.setWidth 18, rem := buf.length }) hlen hne hmode
      (by simp only [write24p, write24_target, hword]; exact ⟨hlive, hlock, rfl, hframe⟩)
      (by simp only [write24p, write24_target, hword]; exact hwf)
      (by simp only [write24p, write24_target, write24_cfg, hword]; exact fun i hi => covers_has hcov hi)
    simp only [write24p, write24_target, write24_draws, hword] at hm hdraws htarget
    rw [← hburst] at htarget
    exact ⟨m, hm, hdraws, htarget⟩
  | perByte =>
    exact perByteFrames_contract buf a _ { s with addr := a.setWidth 18, rem := buf.length } hlen hne hadm.fits hmode hc.params
      hc.target hwf fun i hi => covers_has hcov hi

end Bursts

/-- Under the contract FLASH_WRITE keeps the parameters, and ANDs its buffer into the range; of the target only `TPTR` moves
besides (R238, R186). -/
theorem flashWrite_contract {a : Word32} {buf : List Byte} {s t : State} (hc : Contract s) (hwf : s.target.mem.wf = true)
    (hcov : s.target.covers s.cfg a.toNat buf.length) (h : exec (.flashWrite a buf) s = .next t) :
    t.cfg = s.cfg ∧ AndedIn s.target.mem t.target.mem a.toNat buf ∧
      t.target = { s.target with ptr := t.target.ptr, mem := t.target.mem } := by
  have hadm : Admissible a.toNat buf.length s := admissible_of_next h
  obtain ⟨m, hm, -, htarget⟩ := writeScript_contract hc hadm hwf hcov
  have hnext : writeAt (.flashWrite a buf) a buf s = .next t := h
  rw [writeAt_next hadm] at hnext
  obtain rfl := Host.Outcome.next.inj hnext
  refine ⟨(runSteps_quiet _ s).cfg, ?_, ?_⟩ <;> dsimp only <;> rw [htarget]
  exact hm

/-- AND-ing the same buffer in again changes no byte (R68). -/
theorem andedIn_idempotent {m m' m'' : Memory} {a : Nat} {buf : List Byte} (h : AndedIn m m' a buf)
    (h' : AndedIn m' m'' a buf) : m'' = m' := by
  obtain ⟨hwf, hread⟩ := h
  obtain ⟨hwf', hread'⟩ := h'
  refine memory_ext hwf' hwf fun x => ?_
  rw [hread' x, hread x]
  split
  · rw [BitVec.and_assoc, BitVec.and_self]
  · rfl

/-- Settles O57: the first write leaves the contract in force and its range covered, and the buffer is in the range already. -/
theorem writingTwiceIsWritingOnce : Obligations.WritingTwiceIsWritingOnce := by
  unfold Obligations.WritingTwiceIsWritingOnce
  intro a buf s t u hc hwf hcov hfirst hsecond
  obtain ⟨hcfg, handed, htarget⟩ := flashWrite_contract hc hwf hcov hfirst
  have hc' : Contract t := ⟨hcfg ▸ hc.params, by rw [htarget]; exact hc.target⟩
  have hcov' : t.target.covers t.cfg a.toNat buf.length := by rw [hcfg, htarget]; exact hcov
  obtain ⟨-, handed', -⟩ := flashWrite_contract hc' handed.1 hcov' hsecond
  exact andedIn_idempotent handed handed'

/-! ### Operations that keep the memory -/

/-- The target's memory is the same (R80). -/
def MemoryKept (s t : State) : Prop := t.target.mem = s.target.mem

/-- A Config wrapper is admitted with a buffer of five bytes only (R230, R287). -/
theorem admitConfigBuffer_length {buf : List Byte} {s : State} (h : admitConfigBuffer buf s = none) : buf.length = 5 := by
  unfold admitConfigBuffer at h
  split at h
  · cases h
  · split at h
    · cases h
    · exact not_not.1 ‹_›

/-- The Config region is the target's own (R36, R230). -/
theorem covers_config (c : Config) (t : Target) : t.covers c (configAddress c).toNat 5 := by
  rw [configAddress_toNat]
  exact .inr ⟨le_rfl, le_rfl⟩

/-- The sequencer holds no byte of the target's memory. -/
theorem perform_memoryKept {op : Instr} {ms : List Micro} {s : State} (h : MemoryKept s (runSteps ms s).2) :
    MemoryKept s (perform op ms s).2 := by
  rw [perform_eq]
  exact h

theorem Yields.memoryKept {ms : List Micro} {s : State} {out : List Byte} {t : Target} (h : Yields ms s out t)
    (ht : t.mem = s.target.mem) : MemoryKept s (runSteps ms s).2 := (congrArg Target.mem h.target).trans ht

/-- The registers and the answer hold no byte of it either. -/
theorem MemoryKept.of_target {s t u : State} (h : MemoryKept s t) (hu : u.target = t.target) : MemoryKept s u :=
  (congrArg Target.mem hu).trans h

/-- An accessor answers from the registers alone. -/
theorem reply_memoryKept (v : Value) (s : State) : WhenNext (MemoryKept s) (reply v s) := whenNext_reply rfl

section KeptMemory

variable {s : State} (hc : Contract s)
include hc

theorem execEnter_memoryKept : WhenNext (MemoryKept s) (execEnter s) := by
  obtain ⟨hmatched, -⟩ := (inContract_iff _).1 hc.target
  have h := (enterScript_contract hc.params hmatched).memoryKept rfl
  exact whenNext_reply ((perform_memoryKept (op := .enter) h).of_target rfl)

theorem execExit_memoryKept : WhenNext (MemoryKept s) (execExit s) := by
  obtain ⟨hready, -⟩ := Bool.and_eq_true_iff.1 hc.target
  have h := (exitScript_contract hready s.sess).memoryKept rfl
  exact whenNext_reply ((perform_memoryKept (op := .exit) h).of_target rfl)

theorem execLocked_memoryKept : WhenNext (MemoryKept s) (execLocked s) := by
  obtain ⟨hready, -⟩ := Bool.and_eq_true_iff.1 hc.target
  have h : MemoryKept s (runSteps lockedScript s).2 := congrArg Target.mem (lockQuery_target hready)
  exact whenNext_guarded fun _ => whenNext_reply ((perform_memoryKept (op := .locked) h).of_target rfl)

section Reads

variable {a : Word32} (op : Instr)

theorem readScript_memoryKept {n : Nat} (hcov : s.target.covers s.cfg a.toNat n) (hadmit : admission a.toNat n s = none) :
    MemoryKept s (perform op (readScript s.cfg a n) s).2 :=
  perform_memoryKept ((readScript_contract hc (admission_eq_none.1 hadmit) hcov).memoryKept rfl)

theorem readAt_memoryKept {n : Nat} (hcov : s.target.covers s.cfg a.toNat n) : WhenNext (MemoryKept s) (readAt op a n s) :=
  whenNext_guarded fun hadmit => whenNext_reply ((readScript_memoryKept hc op hcov hadmit).of_target rfl)

theorem compareAt_memoryKept {buf : List Byte} (hcov : s.target.covers s.cfg a.toNat buf.length) :
    WhenNext (MemoryKept s) (compareAt op a buf s) :=
  whenNext_guarded fun hadmit => whenNext_reply ((readScript_memoryKept hc op hcov hadmit).of_target rfl)

theorem verifyAt_memoryKept {buf : List Byte} (hcov : s.target.covers s.cfg a.toNat buf.length) :
    WhenNext (MemoryKept s) (verifyAt op a buf s) :=
  whenNext_guarded fun hadmit => whenNext_reply ((readScript_memoryKept hc op hcov hadmit).of_target rfl)

end Reads

end KeptMemory

/-- Settles O55: ENTER, EXIT and the lock query send no word that changes `TMem`, the accessors send nothing, and everything else is
a read burst. -/
theorem onlyMutatingOperationsChangeMemory : Obligations.OnlyMutatingOperationsChangeMemory := by
  unfold Obligations.OnlyMutatingOperationsChangeMemory
  intro i s t hc hop hflashErase hflashWrite hconfigWrite hconfigErase hmassErase hread hcompare h
  have hconfig {buf : List Byte} (hadmit : admitConfigBuffer buf s = none) :
      s.target.covers s.cfg (configAddress s.cfg).toNat buf.length := by
    rw [admitConfigBuffer_length hadmit]
    exact covers_config s.cfg s.target
  refine (?_ : WhenNext (MemoryKept s) (exec i s)) t h
  cases i with
  | enter => exact execEnter_memoryKept hc
  | exit => exact execExit_memoryKept hc
  | locked => exact execLocked_memoryKept hc
  | deviceId | pageSize | flashSize => exact whenNext_guarded fun _ => reply_memoryKept _ s
  | configRead => exact readAt_memoryKept hc _ (covers_config _ _)
  | configCompare => exact whenNext_guarded fun hadmit => compareAt_memoryKept hc _ (hconfig hadmit)
  | configVerify => exact whenNext_guarded fun hadmit => verifyAt_memoryKept hc _ (hconfig hadmit)
  | flashRead a n => exact readAt_memoryKept hc _ (hread a n (.inl rfl))
  | flashCompare a buf => exact compareAt_memoryKept hc _ (hcompare a buf (.inl rfl))
  | flashVerify a buf => exact verifyAt_memoryKept hc _ (hcompare a buf (.inr rfl))
  | flashErase a n => exact absurd rfl (hflashErase a n)
  | flashWrite a buf => exact absurd rfl (hflashWrite a buf)
  | configWrite buf => exact absurd rfl (hconfigWrite buf)
  | configErase => exact absurd rfl hconfigErase
  | massErase => exact absurd rfl hmassErase
  | _ => cases hop

end Sys2Proof.Machine
end

section
/-! PROOFS. The encodings (30_encoding.md): the decoder and the encoder undo each other on packets, words and frames; the fields of
a packed word. -/

namespace Sys2Proof.Machine

open Sys2Proof.Laws

/-! ### Wire words -/

theorem paramArg_setWidth (p : Addr18) : (paramArg p).setWidth 18 = p := by
  apply BitVec.eq_of_toNat_eq
  rw [setWidth18_toNat (paramArg_lt p), paramArg_toNat]

/-- Each of the six commands of valid parameters is read back, with its address or its constant (R91, R97, R98). -/
theorem decodeWord_commandWord {c : Config} (hvalid : c.valid = true) :
    decodeWord c (commandWord c.opReadCid c.paramReadCid) = .ok .cmdReadCid ∧
    decodeWord c (commandWord c.opReadDid c.paramReadDid) = .ok .cmdReadDid ∧
    (∀ a, decodeWord c (commandWord c.opRead a) = .ok (.cmdRead a)) ∧
    (∀ a, decodeWord c (commandWord c.opProgram a) = .ok (.cmdProgram a)) ∧
    (∀ a, decodeWord c (commandWord c.opPageErase a) = .ok (.cmdPageErase a)) ∧
    decodeWord c (commandWord c.opMassErase c.paramMassErase) = .ok .cmdMassErase := by
  have hclass (p : Addr18) := classify_pack hvalid (paramArg_lt p)
  simp only [paramArg_setWidth, forall_and] at hclass
  obtain ⟨hcid, hdid, hread, hprogram, hpage, hmass⟩ := hclass
  simp [decodeWord, commandWord, hcid, hdid, hread, hprogram, hpage, hmass]

/-- The word that a reading of R99 stands for. -/
def readingWord (c : Config) : WireClass → Option Word24
  | .exit => some c.exitWord
  | .enter => some c.enterWord
  | .readCid k => some (commandWord c.opReadCid k)
  | .readDid k => some (commandWord c.opReadDid k)
  | .read a => some (commandWord c.opRead a)
  | .program a => some (commandWord c.opProgram a)
  | .pageErase a => some (commandWord c.opPageErase a)
  | .massErase k => some (commandWord c.opMassErase k)
  | .unassigned => none

/-- The classification loses no bit: a word is what its reading stands for (R91, R99). -/
theorem classify_word {c : Config} {w v : Word24} (h : readingWord c (classify c w) = some v) : v = w := by
  have hfields {o : BitVec 6} (ho : wordOpcode w = o) : commandWord o (wordParam w) = w := ho ▸ commandWord_fields w
  unfold classify at h
  split_ifs at h with hexit henter hcid hdid hread hprogram hpage hmass <;> cases h
  · exact hexit.symm
  · exact henter.symm
  · exact hfields hcid
  · exact hfields hdid
  · exact hfields hread
  · exact hfields hprogram
  · exact hfields hpage
  · exact hfields hmass

/-- A word that decodes is the encoding of what it decodes to (R91, R93, R97). -/
theorem encode_decodeWord {c : Config} {w : Word24} {i : Instr} (h : decodeWord c w = .ok i) : encode c i = .word w := by
  have hword {v : Word24} (hv : readingWord c (classify c w) = some v) : Request.word v = .word w :=
    congrArg Request.word (classify_word hv)
  unfold decodeWord at h
  split at h
  case h_1 hclass | h_2 hclass | h_5 hclass | h_6 hclass | h_7 hclass => cases h; exact hword (by rw [hclass]; rfl)
  case h_3 hclass | h_4 hclass | h_8 hclass =>
    split at h
    · rename_i hk
      cases h
      exact hword (by rw [hclass, hk]; rfl)
    · cases h
  case h_9 => cases h

/-! ### Packets -/

/-- Operands that are read to the last byte make a packet (log 2). -/
theorem decode_packet_of_operands (c : Config) {sel : Byte} {bs : List Byte} {i : Instr}
    (h : decodeOperands sel.toNat bs = .ok (i, [])) : decode c (.packet (sel :: bs)) = .ok i := by
  simp only [decode, decodePacket, decodePrefix, h]

theorem takeWord32_lengthBytes {n : Nat} (h : lengthFits n = true) :
    ∃ w : Word32, takeWord32 (lengthBytes n) = .ok (w, []) ∧ w.toNat = n := by
  refine ⟨BitVec.ofNat 32 n, by rw [lengthBytes, ← takeWord32_append, List.append_nil], ?_⟩
  rw [BitVec.toNat_ofNat, Nat.mod_eq_of_lt (of_decide_eq_true h)]

theorem takeWithBuffer_bytes (f : List Byte → Instr) {buf : List Byte} (h : lengthFits buf.length = true) :
    takeWithBuffer f (bufferBytes buf) = .ok (f buf, []) := by
  have hbuf := takeBuffer_append h []
  rw [List.append_nil] at hbuf
  simp only [takeWithBuffer, hbuf]

theorem takeWithRange_bytes (f : Word32 → Nat → Instr) (a : Word32) {n : Nat} (h : lengthFits n = true) :
    takeWithRange f (word32Bytes a ++ lengthBytes n) = .ok (f a n, []) := by
  obtain ⟨w, hw, rfl⟩ := takeWord32_lengthBytes h
  simp only [takeWithRange, takeWord32_append, hw]

theorem takeWithAddressBuffer_bytes (f : Word32 → List Byte → Instr) (a : Word32) {buf : List Byte}
    (h : lengthFits buf.length = true) :
    takeWithAddressBuffer f (word32Bytes a ++ bufferBytes buf) = .ok (f a buf, []) := by
  simp only [takeWithAddressBuffer, takeWord32_append, takeWithBuffer_bytes (f a) h]

theorem takeWithBuffer_bytes_inv {f : List Byte → Instr} {bs rest : List Byte} {i : Instr}
    (h : takeWithBuffer f bs = .ok (i, rest)) : ∃ buf, i = f buf ∧ bs = bufferBytes buf ++ rest := by
  unfold takeWithBuffer at h
  split at h <;> cases h
  exact ⟨_, rfl, takeBuffer_inv ‹_›⟩

theorem takeWithRange_bytes_inv {f : Word32 → Nat → Instr} {bs rest : List Byte} {i : Instr}
    (h : takeWithRange f bs = .ok (i, rest)) : ∃ a n, i = f a n ∧ bs = word32Bytes a ++ lengthBytes n ++ rest := by
  unfold takeWithRange at h
  split at h
  · cases h
  · rename_i ha
    split at h <;> cases h
    rename_i n hn
    refine ⟨_, _, rfl, ?_⟩
    rw [takeWord32_inv ha, takeWord32_inv hn, lengthBytes, BitVec.ofNat_toNat, BitVec.setWidth_eq, List.append_assoc]

theorem takeWithAddressBuffer_bytes_inv {f : Word32 → List Byte → Instr} {bs rest : List Byte} {i : Instr}
    (h : takeWithAddressBuffer f bs = .ok (i, rest)) :
    ∃ a buf, i = f a buf ∧ bs = word32Bytes a ++ bufferBytes buf ++ rest := by
  unfold takeWithAddressBuffer at h
  split at h
  · cases h
  · rename_i ha
    obtain ⟨buf, rfl, hbuf⟩ := takeWithBuffer_bytes_inv h
    exact ⟨_, buf, rfl, by rw [takeWord32_inv ha, hbuf, List.append_assoc]⟩

/-- What the operands of a selector were read from: the selector and these bytes encode the instruction (R101). -/
theorem encode_decodeOperands (c : Config) {k : Nat} {bs rest : List Byte} {i : Instr} (h : decodeOperands k bs = .ok (i, rest)) :
    ∃ operands, encode c i = .packet (BitVec.ofNat 8 k :: operands) ∧ bs = operands ++ rest := by
  unfold decodeOperands at h
  split at h
  case h_10 | h_11 | h_12 => obtain ⟨buf, rfl, hbs⟩ := takeWithBuffer_bytes_inv h; exact ⟨_, rfl, hbs⟩
  case h_13 | h_14 => obtain ⟨a, n, rfl, hbs⟩ := takeWithRange_bytes_inv h; exact ⟨_, rfl, hbs⟩
  case h_15 | h_16 | h_17 => obtain ⟨a, buf, rfl, hbs⟩ := takeWithAddressBuffer_bytes_inv h; exact ⟨_, rfl, hbs⟩
  case h_18 => cases h
  all_goals cases h; exact ⟨[], rfl, rfl⟩

/-- A packet that decodes is the encoding of what it decodes to (R101; log 2). -/
theorem encode_decodePacket (c : Config) {bs : List Byte} {i : Instr} (h : decodePacket bs = .ok i) : encode c i = .packet bs := by
  unfold decodePacket at h
  split at h
  · cases h
  · rename_i hpre
    cases h
    cases bs with
    | nil => cases hpre
    | cons sel bs =>
      obtain ⟨operands, henc, rfl⟩ := encode_decodeOperands c hpre
      rw [henc, List.append_nil, BitVec.ofNat_toNat, BitVec.setWidth_eq]
  · cases h

/-! ### The two directions -/

/-- Settles O4: a wire word is classified as its row, a packet's operands are read to its end, a frame has its two fields, and every
other row is its own request. -/
theorem decodeReadsBackEveryEncoding : Obligations.DecodeReadsBackEveryEncoding := by
  unfold Obligations.DecodeReadsBackEveryEncoding
  intro c i hvalid hwf
  obtain ⟨hcid, hdid, hread, hprogram, hpage, hmass⟩ := decodeWord_commandWord hvalid
  cases i with
  | cmdReadCid => exact hcid
  | cmdReadDid => exact hdid
  | cmdRead a => exact hread a
  | cmdProgram a => exact hprogram a
  | cmdPageErase a => exact hpage a
  | cmdMassErase => exact hmass
  | enterWord => simp only [encode, decode, decodeWord, classify_enter (enter_ne_exit hvalid)]
  | exitWord => simp only [encode, decode, decodeWord, classify_exit]
  | resp9 d last | pay9 d last => simp only [encode, decode, frameData_frame9, frameLast_frame9]
  | configWrite buf | configCompare buf | configVerify buf =>
    exact decode_packet_of_operands c (takeWithBuffer_bytes _ hwf)
  | flashErase a n | flashRead a n => exact decode_packet_of_operands c (takeWithRange_bytes _ a hwf)
  | flashWrite a buf | flashCompare a buf | flashVerify a buf =>
    exact decode_packet_of_operands c (takeWithAddressBuffer_bytes _ a hwf)
  | _ => rfl

/-- Settles O5: the selector and the operands of a packet, the reading of a word and the two fields of a frame determine every bit. -/
theorem encodeRestoresEveryDecodedRequest : Obligations.EncodeRestoresEveryDecodedRequest := by
  unfold Obligations.EncodeRestoresEveryDecodedRequest
  intro c r i hcall h
  cases r with
  | packet bs => exact encode_decodePacket c h
  | word w => exact encode_decodeWord h
  | response f | payload f => cases h; simp only [encode, frame9_fields]
  | call j => exact absurd rfl (hcall j)

/-- Valid parameters read a request as the instruction it encodes. -/
theorem decode_of_encode {c : Config} (hvalid : c.valid = true) {i : Instr} (hwf : i.wellFormed = true) {r : Request}
    (h : encode c i = r) : decode c r = .ok i := h ▸ decodeReadsBackEveryEncoding c i hvalid hwf

/-- Settles O8: each written-out request is what the reference parameters encode the instruction as. -/
theorem writtenOutEncodingsDecode : Obligations.WrittenOutEncodingsDecode := by
  unfold Obligations.WrittenOutEncodingsDecode
  have hdec {i : Instr} (hwf : i.wellFormed = true) {r : Request} (h : encode Config.reference i = r) :
      decode Config.reference r = .ok i := decode_of_encode (by decide) hwf h
  exact ⟨hdec rfl rfl, hdec rfl rfl, hdec rfl rfl, hdec rfl rfl, hdec rfl rfl, hdec rfl rfl, hdec rfl rfl, hdec rfl rfl,
    hdec rfl rfl, hdec rfl rfl⟩

/-! ### HOSTOP -/

/-- The table of R101, with the operands that zero bytes spell. -/
def hostopTable : List (Nat × Instr) :=
  [(0, Instr.enter), (1, .exit), (2, .locked), (3, .deviceId), (4, .pageSize), (5, .flashSize), (6, .massErase),
    (7, .configErase), (8, .configRead), (9, .configWrite []), (10, .configCompare []), (11, .configVerify []),
    (12, .flashErase 0 0), (13, .flashRead 0 0), (14, .flashWrite 0 []), (15, .flashCompare 0 []),
    (16, .flashVerify 0 [])]

/-- A selector of the table, its operand bytes zero, is its operation whatever the parameters (R101). -/
theorem decode_hostopTable (c : Config) : ∀ e ∈ hostopTable, decode c (requestOfTableWord 8 e.1) = .ok e.2 := by
  repeat' refine List.forall_mem_cons.2 ⟨rfl, ?_⟩
  exact fun _ h => absurd h List.not_mem_nil

theorem decodeOperands_invalid {k : Nat} (hk : 17 ≤ k) (bs : List Byte) : decodeOperands k bs = .error .invalidHostop := by
  unfold decodeOperands
  split
  case h_18 => rfl
  all_goals omega

/-- No other selector byte spells an operation (R102). -/
theorem decode_invalidHostop (c : Config) {k : Nat} (hk : 17 ≤ k) (hbyte : k < 256) :
    decode c (requestOfTableWord 8 k) = .error .invalidHostop := by
  have hsel : (BitVec.ofNat 8 k).toNat = k := by rw [BitVec.toNat_ofNat, Nat.mod_eq_of_lt hbyte]
  simp [requestOfTableWord, tableBytes, natBytes, decodePrefix, decode, decodePacket, hsel, decodeOperands_invalid hk]

theorem decodeTableWord_of_ok {n w : Nat} {i : Instr} (h : decode Config.reference (requestOfTableWord n w) = .ok i) :
    decodeTableWord n w = some i := by
  simp only [decodeTableWord, h]

theorem decodeTableWord_of_error {n w : Nat} {e : DecodeError}
    (h : decode Config.reference (requestOfTableWord n w) = .error e) : decodeTableWord n w = none := by
  simp only [decodeTableWord, h]

/-- Settles O7: a selector of the table decodes to its operation, every other byte to nothing, and the step fetches what was placed. -/
theorem hostopSelectsItsOperation : Obligations.HostopSelectsItsOperation := by
  unfold Obligations.HostopSelectsItsOperation
  refine ⟨fun s e he => ⟨?decoded, ?run⟩, fun s k hk hbyte => ⟨?rejected, ?refused⟩⟩
  case decoded => exact decodeTableWord_of_ok (decode_hostopTable _ e he)
  case run => exact step_of_decode_ok (s := s.withFetchWord 8 e.1) rfl (decode_hostopTable s.cfg e he) rfl
  case rejected => exact decodeTableWord_of_error (decode_invalidHostop _ hk hbyte)
  case refused => exact step_of_decode_error (s := s.withFetchWord 8 k) rfl (decode_invalidHostop s.cfg hk hbyte)

/-! ### Packed words (R92) -/

/-- Bit `i` of a packed word: the parameter from bit 6 on, OR-ed with the opcode (R92). -/
theorem pack_bit (o : Byte) (p : Word32) {i : Nat} (hi : i < 24) :
    (pack o p).getLsbD i = ((decide (6 ≤ i) && p.getLsbD (i - 6)) || o.getLsbD i) := by
  rw [pack, BitVec.getLsbD_ofNat, Nat.testBit_or, Nat.testBit_shiftLeft, decide_eq_true hi, Bool.true_and]
  rfl

/-- Two packed words with the same bits. -/
theorem pack_eq_of_bits {o o' : Byte} {p p' : Word32}
    (h : ∀ i < 24, ((decide (6 ≤ i) && p.getLsbD (i - 6)) || o.getLsbD i) =
      ((decide (6 ≤ i) && p'.getLsbD (i - 6)) || o'.getLsbD i)) : pack o p = pack o' p' := by
  apply BitVec.eq_of_getLsbD_eq
  intro i hi
  rw [pack_bit o p hi, pack_bit o' p' hi, h i hi]

theorem opcodeArg_setWidth {o : Byte} (ho : o.toNat < 64) : opcodeArg (o.setWidth 6) = o := by
  apply BitVec.eq_of_toNat_eq
  rw [opcodeArg_toNat, BitVec.toNat_setWidth]
  omega

/-- A mask of the low `k` bits. -/
theorem lowMask_bit (n k i : Nat) : (BitVec.ofNat n (2 ^ k - 1)).getLsbD i = (decide (i < n) && decide (i < k)) := by
  rw [BitVec.getLsbD_ofNat, Nat.testBit_two_pow_sub_one]

/-- Only the low 18 bits of the parameter count (R92). -/
theorem pack_param_low (o : Byte) (p : Word32) : pack o p = pack o (p &&& 0x3FFFF) := by
  apply pack_eq_of_bits
  intro i hi
  have hmask : (0x3FFFF : Word32).getLsbD (i - 6) = true :=
    (lowMask_bit 32 18 (i - 6)).trans (by rw [decide_eq_true (by omega), decide_eq_true (by omega), Bool.and_true])
  rw [BitVec.getLsbD_and, hmask, Bool.and_true]

/-- Opcode bits 6 and 7 are OR-ed into the parameter (R92). -/
theorem pack_opcode_overflow (o : Byte) (p : Word32) : pack o p = pack (o &&& 0x3F) (p ||| (o >>> 6).setWidth 32) := by
  apply pack_eq_of_bits
  intro i hi
  have hmask : (0x3F : Byte).getLsbD i = (decide (i < 8) && decide (i < 6)) := lowMask_bit 8 6 i
  rw [BitVec.getLsbD_or, BitVec.getLsbD_and, hmask, BitVec.getLsbD_setWidth, BitVec.getLsbD_ushiftRight]
  rcases Nat.lt_or_ge i 6 with h | h
  · simp [show ¬ 6 ≤ i by omega, show i < 8 by omega, h]
  · simp [h, show ¬ i < 6 by omega, show i - 6 < 32 by omega]

/-- Packing is injective on the well-formed domain (R92). -/
theorem pack_injective {o o' : Byte} {p p' : Word32} (ho : o.toNat < 64) (hp : p.toNat < 262144) (ho' : o'.toNat < 64)
    (hp' : p'.toNat < 262144) (h : pack o p = pack o' p') : o = o' ∧ p = p' := by
  have hnat := congrArg BitVec.toNat h
  rw [pack_toNat ho hp, pack_toNat ho' hp'] at hnat
  exact ⟨BitVec.eq_of_toNat_eq (by omega), BitVec.eq_of_toNat_eq (by omega)⟩

/-- Settles O9: PACK answers the formula, and the consequences are read off its value or its bits. -/
theorem packPlacesOpcodeAndParameter : Obligations.PackPlacesOpcodeAndParameter := by
  unfold Obligations.PackPlacesOpcodeAndParameter
  refine ⟨fun o p s => ?formula, fun o p ho hp => ?fields, fun _ _ _ _ => pack_injective, pack_param_low, pack_opcode_overflow⟩
  case formula =>
    rw [← Nat.shiftLeft_eq p.toNat 6]
    rfl
  case fields =>
    have hop := wordOpcode_pack (o.setWidth 6) hp
    have hparam := wordParam_pack (o.setWidth 6) hp
    rw [opcodeArg_setWidth ho] at hop hparam
    exact ⟨hop, hparam⟩

end Sys2Proof.Machine
end

section
/-! PROOFS. Wire words and frames as instructions (30_encoding.md R91 to R98, R102; 41_transport.md R161): what goes over the wire, and
what the target makes of it. -/

namespace Sys2Proof.Machine

open Sys2Proof.Laws

/-- WRITE24 as an instruction, and every wire word that is sent by it (R152). -/
theorem reply_write24 (w : Word24) (t : Profile) (s : State) : reply .unit (write24 w t s) = .next { s with
    txsr := w, bitcnt := 0
    wire := s.wire ++ [.tx24 w t]
    pins := s.pins ++ (WireEvent.tx24 w t).pins
    lines := { s.lines with dat := Level.ofBit (w.getLsbD 0), clk := .low }
    result := some .unit
    draws := (s.target.onWord s.cfg s.draws w).2
    target := (s.target.onWord s.cfg s.draws w).1 } := by
  rw [write24_eq]
  rfl

/-- Settles O27: each of the eight instructions is WRITE24 of its word under the profile of R161. -/
theorem wireWordsAreSentAsTheirWords : Obligations.WireWordsAreSentAsTheirWords := by
  unfold Obligations.WireWordsAreSentAsTheirWords
  intro s a
  repeat' refine List.forall_mem_cons.2 ⟨reply_write24 _ _ s, ?_⟩
  exact fun _ h => absurd h List.not_mem_nil

/-- A ready target that reads an unassigned word leaves programming mode for an unknown one (R102). -/
theorem onCommand_unassigned_mode {c : Config} {k : Nat} {w : Word24} {t : Target} (h : classify c w = .unassigned) :
    (t.onCommand c k w).1.mode = .unknown := by
  simp only [Target.onCommand, h]

/-- Settles O30: such a word is classified as unassigned, whatever the delays of its bits. -/
theorem unassignedWordMakesTheModeUnknown : Obligations.UnassignedWordMakesTheModeUnknown := by
  unfold Obligations.UnassignedWordMakesTheModeUnknown
  intro w p s hready hexit henter hopcode
  have hclass : classify s.cfg w = .unassigned := classify_unassigned hexit henter hopcode
  refine ⟨_, reply_write24 w p s, ?_⟩
  rw [onWord_ready hready]
  exact onCommand_unassigned_mode hclass

/-! ### Frames -/

/-- RESP9 as an instruction: READ9 of a frame that carries `d` (R95, R155). -/
theorem execResp9_eq (d : Byte) (last : Bool) (s : State) : execResp9 d last s = .next { s with
    rxsr := d ++ (0#1), bitcnt := 0
    wire := s.wire ++ [.rx9 d last s.cfg.tRead]
    pins := s.pins ++ (WireEvent.rx9 d last s.cfg.tRead).pins
    lines := { s.lines with dat := .low, clk := .low }
    result := some (.byte d)
    draws := (s.target.respond s.cfg s.draws d last).2
    target := (s.target.respond s.cfg s.draws d last).1 } := by
  have hlines := lines_rx9 s.lines d last s.cfg.tRead
  simp only [execResp9, receiveFrame, received, emit, emitPins, State.withTarget, hlines, reply]
  rfl

/-- A response frame that carries the byte at `TPTR` is the target's own answer (R73; log 25). -/
theorem respond_reading {t : Target} (h : Reading t) {c : Config} {k : Nat} (ha : t.has c t.ptr = true) (last : Bool) :
    t.respond c k (t.mem.read t.ptr) last = ({ t with ptr := t.ptr + 1, burst := if last then .idle else .read }, k) := by
  have hcarry : t.mayCarry c k (t.mem.read t.ptr) = true := by
    simp [Target.mayCarry, h.answering, h.frame, answer_byte, h.nextByte ha]
  rw [Target.respond, if_pos hcarry, h.afterFrame ha]

/-- Settles O31: RESP9 is a response frame with `d`, PAY9 is WRITE9 with `d`, and an open burst takes either as R73 or R74 says. -/
theorem framesCarryDataAndTrailer : Obligations.FramesCarryDataAndTrailer := by
  unfold Obligations.FramesCarryDataAndTrailer
  intro d last s
  refine ⟨⟨_, _, execResp9_eq d last s, fun hlive hunlock hburst hframe hhas hd => ?read⟩, rfl, _, rfl, rfl,
    fun hlive hunlock hburst hframe hhas => ?program⟩
  case read =>
    rw [← hd, respond_reading ⟨hlive, hunlock, hburst, hframe⟩ hhas]
    exact ⟨rfl, rfl⟩
  case program =>
    have hpay := (⟨hlive, hunlock, hburst, hframe⟩ : Programming s.target).payload (k := s.draws) (d := d) (last := last) hhas
    exact ⟨congrArg Prod.snd hpay, congrArg Prod.fst hpay⟩

end Sys2Proof.Machine
end

section
/-! PROOFS. The Config and Flash wrappers as the operations they expand to (44_wrappers.md R231 to R235, R237 to R240). -/

namespace Sys2Proof.Machine

open Sys2Proof.Laws

/-- The name an operation runs under stands in `SEQ` only while it runs: it leaves no trace in what the operation answers (R26). -/
theorem perform_op (op op' : Instr) (ms : List Micro) (s : State) : perform op ms s = perform op' ms s := by
  rw [perform_eq, perform_eq]

theorem eraseAt_op (op op' : Instr) (a : Word32) (s : State) : eraseAt op a s = eraseAt op' a s := by
  rw [eraseAt, eraseAt, perform_op op op']

theorem readAt_op (op op' : Instr) (a : Word32) (n : Nat) (s : State) : readAt op a n s = readAt op' a n s := by
  rw [readAt, readAt, perform_op op op']

theorem writeAt_op (op op' : Instr) (a : Word32) (buf : List Byte) (s : State) : writeAt op a buf s = writeAt op' a buf s := by
  rw [writeAt, writeAt, perform_op op op']

theorem compared_op (op op' : Instr) (a : Word32) (buf : List Byte) (s : State) :
    compared op a buf s = compared op' a buf s := by
  rw [compared, compared, perform_op op op']

theorem compareAt_op (op op' : Instr) (a : Word32) (buf : List Byte) (s : State) :
    compareAt op a buf s = compareAt op' a buf s := by
  rw [compareAt, compareAt, compared_op op op']

theorem verifyAt_op (op op' : Instr) (a : Word32) (buf : List Byte) (s : State) : verifyAt op a buf s = verifyAt op' a buf s := by
  rw [verifyAt, verifyAt, compared_op op op']

/-- Settles O54: a wrapper is its operation under another name; the length check of a Config buffer of five bytes adds nothing to the
admission of its expansion. -/
theorem wrappersAreTheirExpansions : Obligations.WrappersAreTheirExpansions := by
  unfold Obligations.WrappersAreTheirExpansions
  intro a n buf s
  refine ⟨eraseAt_op _ _ _ s, readAt_op _ _ _ _ s, fun hlen => ⟨?write, ?compare, ?verify⟩, readAt_op _ _ _ _ s,
    writeAt_op _ _ _ _ s, compareAt_op _ _ _ _ s, verifyAt_op _ _ _ _ s⟩
  case write => exact (configGuard_eq hlen s _ _).trans (writeAt_op _ _ _ _ s)
  case compare => exact (configGuard_eq hlen s _ _).trans (compareAt_op _ _ _ _ s)
  case verify => exact (configGuard_eq hlen s _ _).trans (verifyAt_op _ _ _ _ s)

end Sys2Proof.Machine
end

section
/-! PROOFS. The session operations (40_session.md): ENTER, EXIT and LOCKED in every state, the cached identity and the sizes derived
from it, and which instruction writes which host-visible register. -/

namespace Sys2Proof.Machine

open Sys2Proof.Laws

/-! ### ENTER -/

/-- The steps of ENTER in every state: the three identity bytes received, the eight frame events, and the registers and lines that
the last response frame leaves (R120). -/
theorem enterScript_shape (s : State) : ∃ c b0 b1 t, runSteps (enterScript s.cfg) s = ([c, b0, b1], t) ∧
    Quiet s t ∧ t.wire = s.wire ++ [.drive, .resetPulse s.cfg.resetLiteral s.cfg.tReset, .tx24 s.cfg.enterWord s.cfg.tMode,
      .tx24 (commandWord s.cfg.opReadCid s.cfg.paramReadCid) s.cfg.tRead, .rx9 c true s.cfg.tRead,
      .tx24 (commandWord s.cfg.opReadDid s.cfg.paramReadDid) s.cfg.tRead, .rx9 b0 false s.cfg.tRead,
      .rx9 b1 true s.cfg.tRead] ∧
    t.lines = ⟨.low, .low, (s.cfg.resetLiteral.getLast?.map Level.ofBit).getD s.lines.rst⟩ ∧
    t.txsr = commandWord s.cfg.opReadDid s.cfg.paramReadDid ∧ t.rxsr = frame9 b1 false ∧ t.bitcnt = 0 ∧
    t.addr = s.addr ∧ t.rem = s.rem := by
  have hquiet := runSteps_quiet (enterScript s.cfg) s
  simp only [enterScript, runSteps_cons, runSteps_nil, Micro.run, List.append_nil, List.nil_append,
    List.cons_append] at hquiet ⊢
  refine ⟨_, _, _, _, rfl, hquiet, ?_⟩
  simp [write24p, commandWord, drive, lines_resetPulse_last]

/-- `DID` from two response bytes, by the value of `DID_BYTE_ORDER` (R120, D13). -/
theorem didOfBytes_eq (c : Config) (b0 b1 : Byte) :
    didOfBytes c b0 b1 = if c.didByteOrder = .lowFirst then b1 ++ b0 else b0 ++ b1 := by
  unfold didOfBytes
  cases c.didByteOrder <;> rfl

/-- The engine puts the two bytes together in the order in which the target gives them (R77, R120). -/
theorem didOfBytes_didBytes {c : Config} {did : DeviceId} {b0 b1 : Byte} (h : [b0, b1] = didBytes c did) :
    didOfBytes c b0 b1 = did := by
  have hjoin : did.extractLsb' 8 8 ++ did.extractLsb' 0 8 = did :=
    (BitVec.extractLsb'_append_extractLsb'_eq_extractLsb' (show 8 = 0 + 8 from rfl)).trans BitVec.extractLsb'_eq_self
  rw [didBytes_eq] at h
  rw [didOfBytes_eq]
  by_cases horder : c.didByteOrder = .lowFirst
  · rw [if_pos horder] at h ⊢
    obtain ⟨rfl, rfl⟩ : b0 = _ ∧ b1 = _ := by simpa using h
    exact hjoin
  · rw [if_neg horder] at h ⊢
    obtain ⟨rfl, rfl⟩ : b0 = _ ∧ b1 = _ := by simpa using h
    exact hjoin

/-- Settles O41: ENTER is its steps and the cached identity; the steps leave the target's identity when it matches. -/
theorem enterRunsTheHandshake : Obligations.EnterRunsTheHandshake := by
  unfold Obligations.EnterRunsTheHandshake
  intro s
  obtain ⟨c, b0, b1, u, hrun, hquiet, hwire, hlines, htxsr, hrxsr, hbitcnt, haddr, hrem⟩ := enterScript_shape s
  have hnext : exec .enter s = _ := execEnter_next s
  rw [hrun] at hnext
  refine ⟨c, b0, b1, _, hnext, hwire, rfl, rfl, ?did, rfl, rfl, hlines, htxsr, hrxsr, hbitcnt, ?frame, ?contract⟩
  case did =>
    rw [← hquiet.cfg]
    exact didOfBytes_eq u.cfg b0 b1
  case frame =>
    exact State.ext hquiet.cfg rfl rfl rfl rfl hquiet.cmp rfl rfl rfl haddr hrem rfl rfl rfl rfl rfl hquiet.port
      hquiet.disrupt rfl rfl
  case contract =>
    intro hvalid hmatched
    obtain ⟨hbytes, hdraws, htarget⟩ := enterScript_contract hvalid hmatched
    rw [hrun] at hbytes hdraws htarget
    obtain ⟨hcid, hdid⟩ := List.cons.inj hbytes
    rw [← hquiet.cfg] at hdid
    exact ⟨hcid, didOfBytes_didBytes hdid, hdraws, htarget⟩

/-! ### EXIT and LOCKED -/

/-- The steps of EXIT in every state (R122). -/
theorem exitScript_shape (s : State) : ∃ t, (runSteps (exitScript s.cfg s.sess) s).2 = t ∧
    Quiet s t ∧
    t.wire = s.wire ++ (if s.sess = .disconnected then [.drive] else []) ++ [.tx24 s.cfg.exitWord s.cfg.tMode, .release] ∧
    t.lines = ⟨.z, .z, .z⟩ ∧ t.txsr = s.cfg.exitWord ∧ t.rxsr = s.rxsr ∧ t.bitcnt = 0 ∧ t.addr = s.addr ∧
    t.rem = s.rem := by
  refine ⟨_, rfl, runSteps_quiet _ s, ?_⟩
  unfold exitScript
  cases s.sess <;> simp [runSteps_cons, Micro.run, drive, release]

/-- Settles O42: EXIT is its steps, the identity dropped and the session left; they take a ready target to run mode. -/
theorem exitReleasesTheLines : Obligations.ExitReleasesTheLines := by
  unfold Obligations.ExitReleasesTheLines
  intro s
  obtain ⟨u, hrun, hquiet, hwire, hlines, htxsr, hrxsr, hbitcnt, haddr, hrem⟩ := exitScript_shape s
  have hnext : exec .exit s = _ := execExit_next s
  rw [hrun] at hnext
  refine ⟨_, hnext, hwire, rfl, rfl, rfl, hlines, htxsr, hbitcnt, ?frame, fun hready => ?contract⟩
  case frame =>
    exact State.ext hquiet.cfg rfl hquiet.cid hquiet.did rfl hquiet.cmp rfl hrxsr rfl haddr hrem rfl rfl rfl rfl rfl
      hquiet.port hquiet.disrupt rfl rfl
  case contract =>
    obtain ⟨-, hdraws, htarget⟩ := exitScript_contract hready s.sess
    rw [hrun] at hdraws htarget
    exact ⟨hdraws, htarget⟩

/-- Settles O43: the query is one frame event and its calls, which move neither the address registers nor the target. -/
theorem lockedReportsTheFlag : Obligations.LockedReportsTheFlag := by
  unfold Obligations.LockedReportsTheFlag
  intro s hsess
  obtain ⟨hwire, haddr, hrem, -⟩ := lockCalls_frame s.cfg.lockQuery
    (emit .lockQuery (s.withTarget (s.target.lockAnswer s.cfg s.draws).2))
  refine ⟨_, _, execLocked_next hsess, rfl, hwire, haddr, hrem, (lockQuery_quiet s).wireFrame _, fun hclk hdat => ?lines,
    fun hready => ⟨?answer, lockQuery_target hready⟩⟩
  case lines => exact lockCalls_lines _ _ hclk hdat
  case answer => simp only [Target.lockAnswer, hready, if_true]

/-! ### The cached identity and the sizes -/

/-- With a cached identity the accessors are admitted (R287). -/
theorem admitIdentity_of_idValid {s : State} (hid : s.idValid = true) : admitIdentity s = none := if_pos hid

/-- The tier is the field 7:4 of the device id, capped (R127, R128). -/
theorem tierOf_eq (c : Config) (did : DeviceId) : tierOf c did = min (did.extractLsb' 4 4).toNat c.maxTier := by
  have hmask : did.toNat &&& 255 = did.toNat % 256 := Nat.and_two_pow_sub_one_eq_mod did.toNat 8
  have hfield : did.toNat % 256 / 16 = did.toNat / 16 % 16 := by omega
  rw [tierOf, BitVec.toNat_ushiftRight, BitVec.toNat_and, BitVec.extractLsb'_toNat, Nat.shiftRight_eq_div_pow,
    Nat.shiftRight_eq_div_pow]
  exact congrArg (min · c.maxTier) ((congrArg (· / 16) hmask).trans hfield)

/-- The flash-size table at the capped tier (R127). -/
theorem flashSizeOf_eq (c : Config) (did : DeviceId) :
    flashSizeOf c did = c.flashSizeTable.getD (min (did.toNat / 16 % 16) c.maxTier) 0 := by
  rw [flashSizeOf, tierOf_eq, BitVec.extractLsb'_toNat, Nat.shiftRight_eq_div_pow]

/-- Settles O14: with an identity each accessor answers from `DID`, without one it is refused. -/
theorem identityAccessorsReadTheCache : Obligations.IdentityAccessorsReadTheCache := by
  unfold Obligations.IdentityAccessorsReadTheCache
  refine ⟨fun s hid => ?cached, fun s hid => identity_refused hid, by decide, by decide, by decide⟩
  have hadmit := admitIdentity_of_idValid hid
  simp only [exec, execDeviceId, execPageSize, execFlashSize, hadmit, guarded_none, reply, pageSizeOf, flashSizeOf_eq,
    and_self]

/-- Settles O15: the two functions are the formulas of R126 and R127, and the tier is a function of bits 7:4. -/
theorem sizeFunctionsReadTheDeviceId : Obligations.SizeFunctionsReadTheDeviceId := by
  unfold Obligations.SizeFunctionsReadTheDeviceId
  refine ⟨fun did s => ⟨rfl, ?table⟩, fun c did did' hfield => ?bits⟩
  case table => rw [← flashSizeOf_eq]; rfl
  case bits => rw [flashSizeOf, flashSizeOf, tierOf_eq, tierOf_eq, hfield]

/-! ### Who writes the host-visible registers -/

/-- The operations that compare a buffer: COMPARE, VERIFY and their wrappers (R24). -/
def ComparesBuffer (i : Instr) : Prop :=
  (∃ a buf, i = .compare a buf ∨ i = .verify a buf ∨ i = .flashCompare a buf ∨ i = .flashVerify a buf) ∨
    ∃ buf, i = .configCompare buf ∨ i = .configVerify buf

/-- Every host-visible register is kept, but `CMP` by an operation that compares a buffer (R24, R123). -/
structure RegistersKept (i : Instr) (s t : State) : Prop where
  sess    : t.sess = s.sess
  cid     : t.cid = s.cid
  did     : t.did = s.did
  idValid : t.idValid = s.idValid
  cmp     : t.cmp = s.cmp ∨ ComparesBuffer i

section Registers

variable {i : Instr} {s t : State}

/-- Steps that end in an answer write none of these registers. -/
theorem reply_registersKept (v : Value) (h : Quiet s t) : WhenNext (RegistersKept i s) (reply v t) :=
  whenNext_reply ⟨h.sess, h.cid, h.did, h.idValid, .inl h.cmp⟩

theorem guarded_reply_registersKept {r : Option Refusal} (v : Value) (h : Quiet s t) :
    WhenNext (RegistersKept i s) (guarded r (reply v t)) :=
  whenNext_guarded fun _ => reply_registersKept v h

/-- A whole operation behind its admission. -/
theorem perform_registersKept {r : Option Refusal} (v : Value) (op : Instr) (ms : List Micro) :
    WhenNext (RegistersKept i s) (guarded r (reply v (perform op ms s).2)) :=
  guarded_reply_registersKept v (perform_quiet op ms s)

/-- A comparison writes `CMP` and no other of these registers (R210). -/
theorem compared_registersKept {r : Option Refusal} (v : Value) (op : Instr) (a : Word32) (buf : List Byte)
    (hi : ComparesBuffer i) : WhenNext (RegistersKept i s) (guarded r (reply v (compared op a buf s).2)) := by
  have h := perform_quiet op (readScript s.cfg a buf.length) s
  exact whenNext_guarded fun _ => whenNext_reply ⟨h.sess, h.cid, h.did, h.idValid, .inr hi⟩

end Registers

/-- Only ENTER and EXIT write the session and the identity, and only a comparison writes `CMP` (R24, R123). -/
theorem exec_registersKept {i : Instr} (henter : i ≠ .enter) (hexit : i ≠ .exit) (s : State) :
    WhenNext (RegistersKept i s) (exec i s) := by
  cases i with
  | enter => exact absurd rfl henter
  | exit => exact absurd rfl hexit
  | cmdReadCid | cmdReadDid | cmdRead | cmdProgram | cmdPageErase | cmdMassErase =>
    exact reply_registersKept _ (run_quiet (.command _ (paramArg _) s.cfg.tRead) s)
  | enterWord | exitWord => exact reply_registersKept _ (run_quiet (.word _ s.cfg.tMode) s)
  | resp9 d last => exact reply_registersKept _ (run_quiet (.respond d last s.cfg.tRead) s)
  | pay9 d last => exact reply_registersKept _ (run_quiet (.payload d last s.cfg.tRead s.cfg.tProgram) s)
  | write24 w t => exact reply_registersKept _ (run_quiet (.word w t) s)
  | write24p o p t => exact reply_registersKept _ (run_quiet (.word (pack o p) t) s)
  | read9 last t => exact reply_registersKept _ (run_quiet (.receive last t) s)
  | write9 d last tb tt => exact reply_registersKept _ (run_quiet (.payload d last tb tt) s)
  | tiktok setup hold => exact reply_registersKept _ (run_quiet (.pulse setup hold) s)
  | bitin t => exact reply_registersKept _ (run_quiet (.bitIn t) s)
  | settle t => exact reply_registersKept _ (run_quiet (.settle t) s)
  | resetpulse => exact reply_registersKept _ (run_quiet .resetPulse s)
  | drive => exact reply_registersKept _ (run_quiet .drive s)
  | release => exact reply_registersKept _ (run_quiet .release s)
  | locked | massErase | configErase | configRead | flashErase | flashRead | flashWrite | erase | read | write =>
    exact perform_registersKept _ _ _
  | configWrite => exact whenNext_guarded fun _ => perform_registersKept _ _ _
  | compare a buf => exact compared_registersKept _ _ a buf (.inl ⟨a, buf, .inl rfl⟩)
  | verify a buf => exact compared_registersKept _ _ a buf (.inl ⟨a, buf, .inr (.inl rfl)⟩)
  | flashCompare a buf => exact compared_registersKept _ _ a buf (.inl ⟨a, buf, .inr (.inr (.inl rfl))⟩)
  | flashVerify a buf => exact compared_registersKept _ _ a buf (.inl ⟨a, buf, .inr (.inr (.inr rfl))⟩)
  | configCompare buf => exact whenNext_guarded fun _ => compared_registersKept _ _ _ buf (.inr ⟨buf, .inl rfl⟩)
  | configVerify buf => exact whenNext_guarded fun _ => compared_registersKept _ _ _ buf (.inr ⟨buf, .inr rfl⟩)
  | deviceId | pageSize | flashSize | config1 => exact guarded_reply_registersKept _ (Quiet.refl s)
  | pack | needErase | needWrite | equal | pageSizeOf | flashSizeOf | config0 | cbs | ldsize =>
    exact reply_registersKept _ (Quiet.refl s)

/-- ENTER caches an identity, enters the session and keeps `CMP` (R120, R24). -/
theorem execEnter_registers (s : State) :
    WhenNext (fun t => t.sess = .entered ∧ t.idValid = true ∧ t.cmp = s.cmp) (execEnter s) :=
  whenNext_reply ⟨rfl, rfl, (perform_quiet .enter (enterScript s.cfg) s).cmp⟩

/-- EXIT drops the identity, leaves the session and keeps the rest (R122, R24). -/
theorem execExit_registers (s : State) :
    WhenNext (fun t => t.sess = .disconnected ∧ t.idValid = false ∧ t.cid = s.cid ∧ t.did = s.did ∧ t.cmp = s.cmp)
      (execExit s) := by
  have h := perform_quiet .exit (exitScript s.cfg s.sess) s
  exact whenNext_reply ⟨rfl, rfl, h.cid, h.did, h.cmp⟩

/-- Settles O44: ENTER and EXIT write the session and the identity, and every other instruction keeps them. -/
theorem onlyTheirOwnersWriteHostVisibleRegisters : Obligations.OnlyTheirOwnersWriteHostVisibleRegisters := by
  unfold Obligations.OnlyTheirOwnersWriteHostVisibleRegisters
  intro i s t h
  by_cases henter : i = .enter
  · subst henter
    obtain ⟨hsess, hid, hcmp⟩ := execEnter_registers s t h
    exact ⟨hsess, hid, fun hne => absurd rfl hne, .inl hcmp⟩
  by_cases hexit : i = .exit
  · subst hexit
    obtain ⟨hsess, hid, hcid, hdid, hcmp⟩ := execExit_registers s t h
    exact ⟨hsess, hid, fun _ => ⟨hcid, hdid⟩, .inl hcmp⟩
  obtain ⟨hsess, hcid, hdid, hid, hcmp⟩ := exec_registersKept henter hexit s t h
  simp only [if_neg henter, if_neg hexit]
  exact ⟨hsess, hid, fun _ => ⟨hcid, hdid⟩, hcmp⟩

end Sys2Proof.Machine
end

section
/-! PROOFS. The transport primitives as instructions (41_transport.md R151 to R160): the pin events of each, bit by bit, the lines it
leaves, and what a sampled pulse or a response frame does to the target. -/

namespace Sys2Proof.Machine

open Sys2Proof.Laws

/-! ### Driven lines -/

/-- Settles O18: the expansion of one pulse leaves `CLK` low and moves no other line. -/
theorem tiktokIsOneClockPulse : Obligations.TiktokIsOneClockPulse := by
  unfold Obligations.TiktokIsOneClockPulse
  exact fun _ _ _ => rfl

/-- Settles O25: each of the three is one frame event and its expansion. -/
theorem settleDriveReleaseMoveTheLines : Obligations.SettleDriveReleaseMoveTheLines := by
  unfold Obligations.SettleDriveReleaseMoveTheLines
  exact fun _ _ => ⟨rfl, rfl, rfl⟩

/-- RESETPULSE over the whole state (R158). -/
theorem resetPulse_eq (s : State) : resetPulse s = { s with
    wire := s.wire ++ [.resetPulse s.cfg.resetLiteral s.cfg.tReset]
    pins := s.pins ++ (WireEvent.resetPulse s.cfg.resetLiteral s.cfg.tReset).pins
    lines := { s.lines with rst := (s.cfg.resetLiteral.getLast?.map Level.ofBit).getD s.lines.rst }
    target := s.target.onReset } := by
  have hlines := lines_resetPulse_last s.lines s.cfg.resetLiteral s.cfg.tReset
  simp only [resetPulse, emit, emitPins, hlines]

/-- Settles O26: the last bit of the literal is the level RST keeps, and the handshake moves the target's mode and position only. -/
theorem resetPulsePresentsTheLiteral : Obligations.ResetPulsePresentsTheLiteral := by
  unfold Obligations.ResetPulsePresentsTheLiteral
  intro s
  exact ⟨s.target.onReset, congrArg (reply .unit) (resetPulse_eq s), rfl⟩

/-! ### Driven words and frames -/

/-- A sequence built from the bits of a value, most-significant first, is built from their positions downwards (R8). -/
theorem bitsMsb_flatMap {n : Nat} {α : Type} (v : BitVec n) (f : Bool → List α) :
    (bitsMsb v).flatMap f = (List.range n).flatMap fun i => f (v.getLsbD (n - 1 - i)) := by
  rw [bitsMsb, List.flatMap_map]
  refine List.flatMap_congr fun i hi => ?_
  simp [BitVec.getMsbD, List.mem_range.1 hi]

/-- Settles O19: the word goes out as its bits from 23 down, each set on DAT before its pulse. -/
theorem write24ShiftsMsbFirst : Obligations.Write24ShiftsMsbFirst := by
  unfold Obligations.Write24ShiftsMsbFirst
  intro w p s
  have hnext : exec (.write24 w p) s = _ := reply_write24 w p s
  rw [hnext, WireEvent.pins, bitsMsb_flatMap]
  rfl

/-- Settles O20: both are WRITE24 of the packed word, which no state refuses. -/
theorem write24pSendsThePackedWord : Obligations.Write24pSendsThePackedWord := by
  unfold Obligations.Write24pSendsThePackedWord
  exact fun o q p s => ⟨rfl, _, reply_write24 (pack o q) p s⟩

/-- Settles O24: the eight bits under one profile, the trailer under the other, and `DAT` driven low. -/
theorem write9DrivesEightBitsAndATrailer : Obligations.Write9DrivesEightBitsAndATrailer := by
  unfold Obligations.Write9DrivesEightBitsAndATrailer
  intro d last tb tt s
  have hnext : exec (.write9 d last tb tt) s = reply .unit (write9 d last tb tt s) := rfl
  rw [hnext, write9_eq, WireEvent.pins, bitsMsb_flatMap, ← List.append_assoc]
  rfl

/-! ### Response frames -/

/-- READ9 as an instruction, in every state (R155). -/
theorem execRead9_eq (last : Bool) (p : Profile) (s : State) : exec (.read9 last p) s = .next { s with
    rxsr := (read9 last p s).1 ++ (0#1), bitcnt := 0
    wire := s.wire ++ [.rx9 (read9 last p s).1 last p]
    pins := s.pins ++ (WireEvent.rx9 (read9 last p s).1 last p).pins
    lines := { s.lines with dat := .low, clk := .low }
    result := some (.byte (read9 last p s).1)
    draws := (read9 last p s).2.draws, target := (read9 last p s).2.target } :=
  congrArg (reply (.byte (read9 last p s).1)) (read9_shape last p s)

/-- Settles O23: wherever the target stands, READ9 is one response frame of the byte it sampled. -/
theorem read9AlwaysAnswersAByte : Obligations.Read9AlwaysAnswersAByte := by
  unfold Obligations.Read9AlwaysAnswersAByte
  exact fun last p s => ⟨(read9 last p s).1, _, execRead9_eq last p s, rfl, rfl, rfl, rfl, rfl, rfl⟩

/-- The pin events of a response frame, sample by sample (R155). -/
theorem pins_rx9 (d : Byte) (last : Bool) (p : Profile) : (WireEvent.rx9 d last p).pins =
    [.set .dat .z] ++ ((List.range 8).flatMap (fun i => bitInPins p (d.getLsbD (7 - i))) ++
      (bitOutPins p last ++ [.set .dat .low])) := by
  rw [WireEvent.pins, bitsMsb_flatMap]
  rfl

/-- A response frame of a read burst leaves `TPTR` one further (R73). -/
theorem read9_reading {s : State} (h : Reading s.target) (hhas : s.target.has s.cfg s.target.ptr = true) (last : Bool)
    (p : Profile) : (read9 last p s).1 = s.target.mem.read s.target.ptr ∧ (read9 last p s).2.draws = s.draws ∧
    (read9 last p s).2.target = { s.target with ptr := s.target.ptr + 1, burst := if last then .idle else .read } := by
  rw [read9_eq h.frame h.answering, h.nextByte hhas, h.afterFrame hhas]
  exact ⟨rfl, rfl, rfl⟩

/-- A response frame of an identity query gives the next byte of it (R77). -/
theorem read9_identity {s : State} {d : Byte} {ds : List Byte} (hlive : s.target.live = true)
    (hburst : s.target.burst = .answer (d :: ds)) (hframe : s.target.frame = .boundary) (last : Bool) (p : Profile) :
    (read9 last p s).1 = d ∧ (read9 last p s).2.draws = s.draws ∧
    (read9 last p s).2.target = { s.target with burst := if last then .idle else .answer ds } := by
  rw [read9_eq hframe (answering_identity hlive hburst), nextByte_identity hlive hburst,
    afterFrame_identity hlive hburst hframe]
  exact ⟨rfl, rfl, rfl⟩

/-- Settles O22: from a boundary the eight samples are the byte the target answers, and an open burst moves as R73 and R77 say. -/
theorem read9TakesEightSamplesAndATrailer : Obligations.Read9TakesEightSamplesAndATrailer := by
  unfold Obligations.Read9TakesEightSamplesAndATrailer
  intro last p s hframe
  have hbyte : (read9 last p s).1 = (s.target.answer s.cfg s.draws).1 := read9_byte hframe
  refine ⟨(read9 last p s).2.draws, (read9 last p s).2.target, ?next, fun hlive hunlock hburst hhas => ?read,
    fun d ds hlive hburst => ?identity⟩
  case next =>
    rw [execRead9_eq, hbyte, pins_rx9, ← List.append_assoc, ← List.append_assoc]
    rfl
  case read =>
    rw [← hbyte]
    exact read9_reading ⟨hlive, hunlock, hburst, hframe⟩ hhas last p
  case identity =>
    rw [← hbyte]
    exact read9_identity hlive hburst hframe last p

/-! ### Single sampled pulses -/

/-- When the contract gives the next byte: an identity byte is left, or an unlocked read burst stands in a region (R73, R77). -/
theorem determined_cases {c : Config} {t : Target} (h : t.determined c = true) : t.live = true ∧
    ((∃ b bs, t.burst = .answer (b :: bs)) ∨ t.burst = .read ∧ t.lock = false ∧ t.has c t.ptr = true) := by
  obtain ⟨hlive, hburst⟩ := Bool.and_eq_true_iff.1 h
  refine ⟨hlive, ?_⟩
  split at hburst
  case h_1 b bs hanswer => exact .inl ⟨b, bs, hanswer⟩
  case h_3 hread => exact .inr ⟨hread, by simpa using hburst⟩
  all_goals cases hburst

/-- A byte the contract gives is expected and takes no draw: the first pulse only takes it up (R73). -/
theorem answer_determined {c : Config} {k : Nat} {t : Target} (hframe : t.frame = .boundary) (h : t.determined c = true) :
    (t.answer c k).2 = ({ t with frame := .presenting true (bitsMsb (t.answer c k).1).tail }, k) := by
  have hnext : t.answering = true ∧ (t.nextByte c k).2 = k := by
    obtain ⟨hlive, ⟨b, bs, hburst⟩ | ⟨hburst, hunlock, hhas⟩⟩ := determined_cases h
    · exact ⟨answering_identity hlive hburst, by rw [nextByte_identity hlive hburst]⟩
    · have hreading : Reading t := ⟨hlive, hunlock, hburst, hframe⟩
      exact ⟨hreading.answering, by rw [hreading.nextByte hhas]⟩
  simp only [Target.answer, hnext, if_true]

/-- The bits of a byte after its first, in arrival order (R65). -/
theorem bitsMsb_tail (d : Byte) : (bitsMsb d).tail = (List.range 7).map fun i => d.getLsbD (6 - i) := by
  revert d
  decide

section DataBits

variable {c : Config} {k : Nat} {b : Bool} {t : Target} (h : t.answering = true)
include h

/-- A data bit before the eighth is given, and the rest of the byte is left (R73). -/
theorem dataBit_cons (x : Bool) (rest : List Bool) :
    t.dataBit c k b (x :: rest) = (b, { t with frame := .presenting true (x :: rest) }, k) := by
  simp only [Target.dataBit, h, if_true]

/-- The eighth data bit ends the byte (R73). -/
theorem dataBit_nil : t.dataBit c k b [] = (b, { t with frame := .presenting true [] }.delivered c k) := by
  simp only [Target.dataBit, h, if_true]

/-- The eighth bit of a read burst steps `TPTR` (R73). -/
theorem dataBit_nil_read (hburst : t.burst = .read) (hdetermined : t.determined c = true) :
    (t.dataBit c k b []).2 = ({ t with frame := .presenting true [], ptr := t.ptr + 1 }, k) := by
  have hpresenting : ({ t with frame := .presenting true [], burst := .read } : Target).determined c = true := by
    rw [← hburst]
    exact hdetermined
  simp only [dataBit_nil h, Target.delivered, hburst, hpresenting, if_true]

/-- The eighth bit of an identity byte gives it (R77). -/
theorem dataBit_nil_answer {d : Byte} {ds : List Byte} (hburst : t.burst = .answer (d :: ds)) :
    (t.dataBit c k b []).2 = ({ t with frame := .presenting true [], burst := .answer ds }, k) := by
  simp only [dataBit_nil h, Target.delivered, hburst]

end DataBits

/-- A pulse inside a frame on a target that is not live redraws all of it but the place inside the frame (R70, R79). -/
theorem present_outside {c : Config} {t : Target} (hframe : t.frame ≠ .boundary) (hlive : t.live = false) (k : Nat)
    (dat : Level) : ∃ j, (t.present c k dat).2.1 = { t.outside c j with frame := (t.present c k dat).2.1.frame } := by
  have hanswering : t.answering = false := by simp [Target.answering, hlive]
  have hresponse : t.inResponse = false := by simp [Target.inResponse, hlive]
  unfold Target.present
  split
  case h_1 hboundary => exact absurd hboundary hframe
  case h_2 => exact ⟨k + 1, by simp [Target.trailerPulse, hresponse]⟩
  case h_3 => exact ⟨k + 1, by simp [Target.dataBit, hanswering, Target.strayBit]⟩
  case h_4 => exact ⟨k, rfl⟩

/-- Settles O21: a pulse takes a byte up, gives the next bit of it, or is the trailer, by the target's place in the frame. -/
theorem bitinSamplesBeforeTheRisingEdge : Obligations.BitinSamplesBeforeTheRisingEdge := by
  unfold Obligations.BitinSamplesBeforeTheRisingEdge
  intro p s
  refine ⟨(s.target.present s.cfg s.draws s.lines.dat).1, (s.target.present s.cfg s.draws s.lines.dat).2.2,
    (s.target.present s.cfg s.draws s.lines.dat).2.1, rfl, fun hframe => ?boundary,
    fun b rest hframe hanswering => ?data, fun hframe hresponse => ?trailer, fun hframe hlive => present_outside hframe hlive _ _⟩
  case boundary =>
    simp only [Target.present, hframe]
    refine ⟨BitVec.msb_eq_getLsbD_last _, fun hdetermined => ?_⟩
    rw [answer_determined hframe hdetermined, bitsMsb_tail]
    exact ⟨rfl, rfl⟩
  case data =>
    simp only [Target.present, hframe]
    refine ⟨?bit, ?next, ?read, ?identity⟩
    case bit =>
      cases rest with
      | nil => rw [dataBit_nil hanswering]
      | cons x rest => rw [dataBit_cons hanswering]
    case next =>
      rintro x rest rfl
      rw [dataBit_cons hanswering]
      exact ⟨rfl, rfl⟩
    case read =>
      rintro rfl hburst hdetermined
      rw [dataBit_nil_read hanswering hburst hdetermined]
      exact ⟨rfl, rfl⟩
    case identity =>
      rintro d ds rfl hburst
      rw [dataBit_nil_answer hanswering hburst]
      exact ⟨rfl, rfl⟩
  case trailer =>
    have hpulse := trailerPulse_expected hframe hresponse s.cfg (s.draws + 1)
    simp only [Target.present, hframe]
    refine ⟨fun hlow => ?_, fun hhigh => ?_⟩
    · rw [hlow]
      exact congrArg Prod.fst (hpulse false)
    · rw [hhigh]
      exact congrArg Prod.fst (hpulse true)

end Sys2Proof.Machine
end

section
/-! PROOFS. The traces (41_transport.md R150, R162): every instruction's pin events are the expansion of its frame events, and what holds
of every expansion. -/

namespace Sys2Proof.Machine

open Sys2Proof.Laws

/-! ### The pin trace expands the frame trace -/

/-- What was added to the pin trace is the expansion of what was added to the frame trace, and the lines follow it (R150). -/
def Expands (s t : State) : Prop :=
  ∃ evs : List WireEvent, t.wire = s.wire ++ evs ∧ t.pins = s.pins ++ evs.flatMap WireEvent.pins ∧
    t.lines = s.lines.afterAll (evs.flatMap WireEvent.pins)

/-- Adding nothing to either trace is an expansion. -/
theorem Expands.refl (s : State) : Expands s s := ⟨[], by simp [Lines.afterAll]⟩

/-- Every step of a list has the pin events of whole frames. -/
def Framed (ms : List Micro) : Prop := ∀ m ∈ ms, Micro.framed m = true

theorem run_expands {m : Micro} (hm : Micro.framed m = true) (s : State) : Expands s (m.run s).2 := run_trace m s hm

theorem perform_expands (op : Instr) {ms : List Micro} (hms : Framed ms) (s : State) :
    Expands s (perform op ms s).2 := by
  rw [perform_eq]
  exact runSteps_trace ms s hms

/-- The answer and the host-visible registers stand in neither trace. -/
theorem Expands.of_traces {s t u : State} (h : Expands s t) (hwire : u.wire = t.wire) (hpins : u.pins = t.pins)
    (hlines : u.lines = t.lines) : Expands s u := by
  rw [Expands, hwire, hpins, hlines]
  exact h

theorem reply_expands (v : Value) {s t : State} (h : Expands s t) : WhenNext (Expands s) (reply v t) := whenNext_reply h

/-- A whole operation behind its admission, made of framed steps. -/
theorem guarded_perform_expands (r : Option Refusal) (v : Value) (op : Instr) {ms : List Micro}
    (hms : Framed ms) (s : State) : WhenNext (Expands s) (guarded r (reply v (perform op ms s).2)) :=
  whenNext_guarded fun _ => reply_expands v (perform_expands op hms s)

/-! The steps of every operation but LOCKED are framed. -/

theorem receiveFrames_framed (t : Profile) (n : Nat) : Framed (receiveFrames t n) := by
  induction n with
  | zero => exact fun _ h => absurd h List.not_mem_nil
  | succ n ih => simpa [receiveFrames, Framed, Micro.framed] using ih

theorem readScript_framed (c : Config) (a : Word32) (n : Nat) : Framed (readScript c a n) := by
  simpa [readScript, Framed, Micro.framed] using receiveFrames_framed c.tRead n

theorem payloadFrames_framed (t : Profile) (buf : List Byte) : ∀ (slices : List Profile), Framed (payloadFrames t buf slices) := by
  induction buf with
  | nil => exact fun _ _ h => absurd h List.not_mem_nil
  | cons d buf ih =>
    intro slices
    cases slices with
    | nil => exact fun _ h => absurd h List.not_mem_nil
    | cons tt slices => simpa [payloadFrames, Framed, Micro.framed] using ih slices

theorem perByteFrames_framed (c : Config) (buf : List Byte) : ∀ (a : Word32) (slices : List Profile),
    Framed (perByteFrames c a buf slices) := by
  induction buf with
  | nil => exact fun _ _ _ h => absurd h List.not_mem_nil
  | cons d buf ih =>
    intro a slices
    cases slices with
    | nil => exact fun _ h => absurd h List.not_mem_nil
    | cons tt slices => simpa [perByteFrames, Framed, Micro.framed] using ih (a + 1) slices

theorem writeScript_framed (c : Config) (a : Word32) (buf : List Byte) : Framed (writeScript c a buf) := by
  unfold writeScript
  cases c.writeMode with
  | burst => simpa [Framed, Micro.framed] using payloadFrames_framed c.tRead buf _
  | perByte => simpa [Framed, Micro.framed] using perByteFrames_framed c buf a _

theorem eraseScript_framed (c : Config) (t : Profile) (a : Word32) : Framed (eraseScript c t a) := by
  simp [eraseScript, Framed, Micro.framed]

theorem eraseEach_framed (c : Config) (addrs : List Nat) : ∀ (slices : List Profile), Framed (eraseEach c addrs slices) := by
  induction addrs with
  | nil => exact fun _ _ h => absurd h List.not_mem_nil
  | cons a addrs ih =>
    intro slices
    cases slices with
    | nil => exact fun _ h => absurd h List.not_mem_nil
    | cons t slices => exact List.forall_mem_append.2 ⟨eraseScript_framed c t _, ih slices⟩

theorem massEraseScript_framed (c : Config) : Framed (massEraseScript c) := by
  simp [massEraseScript, Framed, Micro.framed]

theorem enterScript_framed (c : Config) : Framed (enterScript c) := by
  simp [enterScript, Framed, Micro.framed]

theorem exitScript_framed (c : Config) (sess : SessTag) : Framed (exitScript c sess) := by
  cases sess <;> simp [exitScript, Framed, Micro.framed]

/-- Every instruction that is made of whole frames expands (R150). -/
theorem exec_expands {i : Instr} (hlocked : i ≠ .locked) (htiktok : ∀ setup hold, i ≠ .tiktok setup hold)
    (hbitin : ∀ p, i ≠ .bitin p) (s : State) : WhenNext (Expands s) (exec i s) := by
  cases i with
  | locked => exact absurd rfl hlocked
  | tiktok setup hold => exact absurd rfl (htiktok setup hold)
  | bitin p => exact absurd rfl (hbitin p)
  | cmdReadCid | cmdReadDid | cmdRead | cmdProgram | cmdPageErase | cmdMassErase =>
    exact reply_expands _ (run_expands (m := .command _ (paramArg _) s.cfg.tRead) rfl s)
  | enterWord | exitWord => exact reply_expands _ (run_expands (m := .word _ s.cfg.tMode) rfl s)
  | resp9 d last => exact reply_expands _ (run_expands (m := .respond d last s.cfg.tRead) rfl s)
  | pay9 d last => exact reply_expands _ (run_expands (m := .payload d last s.cfg.tRead s.cfg.tProgram) rfl s)
  | write24 w t => exact reply_expands _ (run_expands (m := .word w t) rfl s)
  | write24p o p t => exact reply_expands _ (run_expands (m := .word (pack o p) t) rfl s)
  | read9 last t => exact reply_expands _ (run_expands (m := .receive last t) rfl s)
  | write9 d last tb tt => exact reply_expands _ (run_expands (m := .payload d last tb tt) rfl s)
  | settle t => exact reply_expands _ (run_expands (m := .settle t) rfl s)
  | resetpulse => exact reply_expands _ (run_expands (m := .resetPulse) rfl s)
  | drive => exact reply_expands _ (run_expands (m := .drive) rfl s)
  | release => exact reply_expands _ (run_expands (m := .release) rfl s)
  | enter => exact whenNext_reply ((perform_expands .enter (enterScript_framed s.cfg) s).of_traces rfl rfl rfl)
  | exit => exact whenNext_reply ((perform_expands .exit (exitScript_framed s.cfg s.sess) s).of_traces rfl rfl rfl)
  | massErase => exact guarded_perform_expands _ _ _ (massEraseScript_framed _) s
  | configErase | erase => exact guarded_perform_expands _ _ _ (eraseScript_framed _ _ _) s
  | flashErase => exact guarded_perform_expands _ _ _ (eraseEach_framed _ _ _) s
  | configRead | flashRead | read => exact guarded_perform_expands _ _ _ (readScript_framed _ _ _) s
  | flashWrite | write => exact guarded_perform_expands _ _ _ (writeScript_framed _ _ _) s
  | configWrite => exact whenNext_guarded fun _ => guarded_perform_expands _ _ _ (writeScript_framed _ _ _) s
  | compare | verify | flashCompare | flashVerify =>
    exact whenNext_guarded fun _ => whenNext_reply (perform_expands _ (readScript_framed _ _ _) s)
  | configCompare | configVerify =>
    exact whenNext_guarded fun _ => whenNext_guarded fun _ => whenNext_reply (perform_expands _ (readScript_framed _ _ _) s)
  | deviceId | pageSize | flashSize | config1 => exact whenNext_guarded fun _ => reply_expands _ (.refl s)
  | pack | needErase | needWrite | equal | pageSizeOf | flashSizeOf | config0 | cbs | ldsize => exact reply_expands _ (.refl s)

/-- Settles O32: each frame step expands to its own pin events, and every operation but the three is a sequence of such steps. -/
theorem pinTraceExpandsTheWireTrace : Obligations.PinTraceExpandsTheWireTrace := by
  unfold Obligations.PinTraceExpandsTheWireTrace
  exact fun i s t hlocked htiktok hbitin h => exec_expands hlocked htiktok hbitin s t h

/-! ### Clock pulses and samples of an expansion -/

theorem clockAlternates_cons (up : Bool) (e : PinEvent) (rest : List PinEvent) : clockAlternates up (e :: rest) =
    if e.isRise then !up && clockAlternates true rest
    else if e.isFall then clockAlternates false rest
    else clockAlternates up rest := rfl

/-- After a trace that leaves the clock down, the clock alternates if it does in what follows. -/
theorem clockAlternates_append {up : Bool} {xs : List PinEvent} (h : clockAlternates up xs = true) (ys : List PinEvent) :
    clockAlternates up (xs ++ ys) = clockAlternates false ys := by
  induction xs generalizing up with
  | nil =>
    obtain rfl : up = false := by simpa [clockAlternates] using h
    rfl
  | cons e xs ih =>
    rw [List.cons_append, clockAlternates_cons]
    rw [clockAlternates_cons] at h
    split at h
    case isTrue hrise =>
      obtain ⟨hdown, hrest⟩ := Bool.and_eq_true_iff.1 h
      rw [if_pos hrise, hdown, ih hrest, Bool.true_and]
    case isFalse hrise =>
      rw [if_neg hrise]
      split at h
      case isTrue hfall => rw [if_pos hfall, ih h]
      case isFalse hfall => rw [if_neg hfall, ih h]

/-- Pieces that each raise and lower the clock in turn do so in sequence. -/
theorem clockAlternates_flatMap {α : Type} {f : α → List PinEvent} (h : ∀ x, clockAlternates false (f x) = true) (xs : List α) :
    clockAlternates false (xs.flatMap f) = true := by
  induction xs with
  | nil => rfl
  | cons x xs ih => rw [List.flatMap_cons, clockAlternates_append (h x), ih]

theorem clockAlternates_bitOut (t : Profile) (b : Bool) : clockAlternates false (bitOutPins t b) = true := by
  cases b <;> rfl

theorem clockAlternates_resetBit (t : Profile) (b : Bool) : clockAlternates false (resetBitPins t b) = true := by
  cases b <;> rfl

/-- The clock alternates in the expansion of every frame event (R162 (i)). -/
theorem clockAlternates_pins (e : WireEvent) : clockAlternates false e.pins = true := by
  cases e with
  | tx24 w t => exact clockAlternates_flatMap (clockAlternates_bitOut t) _
  | rx9 d last t =>
    have hbits : clockAlternates false ((bitsMsb d).flatMap (bitInPins t)) = true := clockAlternates_flatMap (fun _ => rfl) _
    rw [WireEvent.pins, ← List.singleton_append, clockAlternates_append rfl, clockAlternates_append hbits,
      clockAlternates_append (clockAlternates_bitOut t last)]
    rfl
  | tx9 d last tb tt =>
    have hbits : clockAlternates false ((bitsMsb d).flatMap (bitOutPins tb)) = true :=
      clockAlternates_flatMap (clockAlternates_bitOut tb) _
    rw [WireEvent.pins, clockAlternates_append hbits, clockAlternates_append (clockAlternates_bitOut tt last)]
    rfl
  | resetPulse lit t => exact clockAlternates_flatMap (clockAlternates_resetBit t) _
  | drive | settle | lockQuery | release => rfl

theorem sampleCount_append (xs ys : List PinEvent) : sampleCount (xs ++ ys) = sampleCount xs + sampleCount ys :=
  List.countP_append

theorem sampleCount_bitsIn (t : Profile) (bits : List Bool) : sampleCount (bits.flatMap (bitInPins t)) = bits.length := by
  induction bits with
  | nil => rfl
  | cons b bits ih => rw [List.flatMap_cons, sampleCount_append, ih, List.length_cons, Nat.add_comm]; rfl

/-- Pieces that are each without an event of some kind are without one in sequence. -/
theorem countP_flatMap_zero {α β : Type} {p : β → Bool} {f : α → List β} (h : ∀ x, (f x).countP p = 0) (xs : List α) :
    (xs.flatMap f).countP p = 0 := by
  simp [List.countP_flatMap, Function.comp_def, h]

theorem sampleCount_bitsOut (t : Profile) (bits : List Bool) : sampleCount (bits.flatMap (bitOutPins t)) = 0 :=
  countP_flatMap_zero (fun _ => rfl) bits

/-- The clock pulses of every frame event (R162 (ii)). -/
theorem clockPulses_pins (e : WireEvent) : clockPulses e.pins = e.pulses := by
  cases e with
  | tx24 w t => rw [WireEvent.pins, clockPulses_bitsOut, bitsMsb_length]; rfl
  | rx9 d last t =>
    rw [WireEvent.pins, ← List.singleton_append, clockPulses_append, clockPulses_append, clockPulses_bitsIn, bitsMsb_length]
    rfl
  | tx9 d last tb tt => rw [WireEvent.pins, clockPulses_append, clockPulses_bitsOut, bitsMsb_length]; rfl
  | resetPulse lit t => exact countP_flatMap_zero (fun _ => rfl) lit
  | drive | settle | lockQuery | release => rfl

/-- The sampled bits of every frame event (R162 (iv)). -/
theorem sampleCount_pins (e : WireEvent) : sampleCount e.pins = e.samples := by
  cases e with
  | tx24 w t => exact sampleCount_bitsOut t (bitsMsb w)
  | rx9 d last t =>
    rw [WireEvent.pins, ← List.singleton_append, sampleCount_append, sampleCount_append, sampleCount_bitsIn, bitsMsb_length]
    rfl
  | tx9 d last tb tt => rw [WireEvent.pins, sampleCount_append, sampleCount_bitsOut]; rfl
  | resetPulse lit t => exact countP_flatMap_zero (fun _ => rfl) lit
  | drive | settle | lockQuery | release => rfl

/-! ### DAT and RST in an expansion -/

/-- No event of a trace releases DAT. -/
def KeepsDatDriven (evs : List PinEvent) : Prop := ∀ x ∈ evs, x ≠ .set .dat .z

/-- Such a trace leaves DAT driven if it was (R162 (iii)). -/
theorem KeepsDatDriven.dat {evs : List PinEvent} (h : KeepsDatDriven evs) {l : Lines} (hl : l.dat ≠ .z) :
    (l.afterAll evs).dat ≠ .z := by
  induction evs generalizing l with
  | nil => exact hl
  | cons x evs ih =>
    obtain ⟨hx, hevs⟩ := List.forall_mem_cons.1 h
    refine ih (l := l.after x) hevs ?_
    cases x with
    | set line level =>
      cases line with
      | dat => exact fun hz => hx (congrArg (PinEvent.set .dat) hz)
      | clk | rst => exact hl
    | delay | sample => exact hl

theorem bitOut_keepsDatDriven (t : Profile) (b : Bool) : KeepsDatDriven (bitOutPins t b) := by
  simp [KeepsDatDriven, bitOutPins, tiktokPins, ofBit_ne_z]

theorem bitsOut_keepsDatDriven (t : Profile) (bits : List Bool) : KeepsDatDriven (bits.flatMap (bitOutPins t)) :=
  List.forall_mem_flatMap.2 fun b _ => bitOut_keepsDatDriven t b

/-- Only a response frame and a release let go of DAT (R162 (iii)). -/
theorem pins_keepsDatDriven {e : WireEvent} (hrelease : e ≠ .release) (hrx9 : ∀ d last p, e ≠ .rx9 d last p) :
    KeepsDatDriven e.pins := by
  cases e with
  | release => exact absurd rfl hrelease
  | rx9 d last p => exact absurd rfl (hrx9 d last p)
  | tx24 w t => exact bitsOut_keepsDatDriven t (bitsMsb w)
  | tx9 d last tb tt =>
    refine List.forall_mem_append.2 ⟨bitsOut_keepsDatDriven tb _, List.forall_mem_append.2 ⟨bitOut_keepsDatDriven tt last, ?_⟩⟩
    simp
  | resetPulse lit t => exact List.forall_mem_flatMap.2 fun b _ => by simp [resetBitPins]
  | drive | settle | lockQuery => simp [KeepsDatDriven, WireEvent.pins, tiktokPins]

/-- Every frame event but a release ends with DAT driven, a response frame by its trailer (R155). -/
theorem dat_after_pins {e : WireEvent} (hrelease : e ≠ .release) {l : Lines} (hl : l.dat ≠ .z) :
    (l.afterAll e.pins).dat ≠ .z := by
  by_cases hrx9 : ∃ d last p, e = .rx9 d last p
  · obtain ⟨d, last, p, rfl⟩ := hrx9
    simp
  · exact (pins_keepsDatDriven hrelease fun d last p he => hrx9 ⟨d, last, p, he⟩).dat hl

theorem dat_after_frames {evs : List WireEvent} (hrelease : ∀ e ∈ evs, e ≠ .release) {l : Lines} (hl : l.dat ≠ .z) :
    (l.afterAll (evs.flatMap WireEvent.pins)).dat ≠ .z := by
  induction evs generalizing l with
  | nil => exact hl
  | cons e evs ih =>
    obtain ⟨he, hevs⟩ := List.forall_mem_cons.1 hrelease
    rw [List.flatMap_cons, afterAll_append]
    exact ih hevs (dat_after_pins he hl)

/-- A trace that drives DAT, and then any part of one that keeps it driven. -/
theorem dat_after_take {xs ys : List PinEvent} {l : Lines} (hxs : (l.afterAll xs).dat ≠ .z) (hys : KeepsDatDriven ys) {n : Nat}
    (hn : xs.length ≤ n) : (l.afterAll ((xs ++ ys).take n)).dat ≠ .z := by
  obtain ⟨k, rfl⟩ := Nat.exists_eq_add_of_le hn
  rw [List.take_length_add_append, afterAll_append]
  exact KeepsDatDriven.dat (fun x hx => hys x (List.mem_of_mem_take hx)) hxs

/-- The release, the eight sampled bits and the trailer's level on DAT are the first 42 pin events of a response frame (R155). -/
theorem dat_after_trailer (d : Byte) (last : Bool) (p : Profile) (l : Lines) {n : Nat} (hn : 42 ≤ n) :
    (l.afterAll ((WireEvent.rx9 d last p).pins.take n)).dat ≠ .z := by
  have hsplit : (WireEvent.rx9 d last p).pins =
      ((.set .dat .z :: (bitsMsb d).flatMap (bitInPins p)) ++ [.set .dat (Level.ofBit last)]) ++
        (tiktokPins p.setup p.hold ++ [.set .dat .low]) := by
    simp [WireEvent.pins, bitOutPins]
  rw [hsplit]
  refine dat_after_take ?driven ?kept hn
  case driven =>
    rw [afterAll_append]
    exact ofBit_ne_z last
  case kept => simp [KeepsDatDriven, tiktokPins]

/-- Where DAT, driven before, is released inside a frame event other than a release (R162 (iii)). -/
theorem released_in_pins {e : WireEvent} (hrelease : e ≠ .release) {l : Lines} (hl : l.dat ≠ .z) {n : Nat}
    (hz : (l.afterAll (e.pins.take n)).dat = .z) : (∃ d last p, e = .rx9 d last p) ∧ 1 ≤ n ∧ n ≤ 1 + 5 * 8 := by
  by_cases hrx9 : ∃ d last p, e = .rx9 d last p
  · obtain ⟨d, last, p, rfl⟩ := hrx9
    refine ⟨⟨d, last, p, rfl⟩, ?_, ?_⟩
    · rcases n with - | n
      · exact absurd hz hl
      · omega
    · by_contra hn
      exact dat_after_trailer d last p l (by omega) hz
  · have hdriven := pins_keepsDatDriven hrelease fun d last p he => hrx9 ⟨d, last, p, he⟩
    exact absurd hz (KeepsDatDriven.dat (fun x hx => hdriven x (List.mem_of_mem_take hx)) hl)

theorem bitOut_isReset (t : Profile) (b : Bool) : ∀ x ∈ bitOutPins t b, x.isReset = false := by
  simp [bitOutPins, tiktokPins, PinEvent.isReset]

/-- Only a reset pulse and a release move RST (R162 (v)). -/
theorem pins_isReset {e : WireEvent} (hrelease : e ≠ .release) (hreset : ∀ lit p, e ≠ .resetPulse lit p) :
    ∀ x ∈ e.pins, x.isReset = false := by
  cases e with
  | release => exact absurd rfl hrelease
  | resetPulse lit p => exact absurd rfl (hreset lit p)
  | tx24 w t => exact List.forall_mem_flatMap.2 fun b _ => bitOut_isReset t b
  | rx9 d last t =>
    refine List.forall_mem_cons.2 ⟨rfl, List.forall_mem_append.2 ⟨List.forall_mem_flatMap.2 fun b _ => ?_,
      List.forall_mem_append.2 ⟨bitOut_isReset t last, ?_⟩⟩⟩
    · simp [bitInPins, PinEvent.isReset]
    · simp [PinEvent.isReset]
  | tx9 d last tb tt =>
    refine List.forall_mem_append.2 ⟨List.forall_mem_flatMap.2 fun b _ => bitOut_isReset tb b,
      List.forall_mem_append.2 ⟨bitOut_isReset tt last, ?_⟩⟩
    simp [PinEvent.isReset]
  | drive | settle | lockQuery => simp [WireEvent.pins, tiktokPins, PinEvent.isReset]

/-- Settles O33: each invariant holds of the expansion of one frame event, and so of a sequence of them. -/
theorem expansionsObeyTheTraceInvariants : Obligations.ExpansionsObeyTheTraceInvariants := by
  unfold Obligations.ExpansionsObeyTheTraceInvariants
  intro evs
  refine ⟨clockAlternates_flatMap clockAlternates_pins evs, ?pulses, ?samples, ?dat, fun h => ?rst⟩
  case pulses => exact List.countP_flatMap.trans (congrArg List.sum (List.map_congr_left fun e _ => clockPulses_pins e))
  case samples => exact List.countP_flatMap.trans (congrArg List.sum (List.map_congr_left fun e _ => sampleCount_pins e))
  case dat =>
    intro l before after e n _ hl hbefore hrelease hz
    rw [afterAll_append] at hz
    exact released_in_pins hrelease (dat_after_frames hbefore hl) hz
  case rst => exact List.forall_mem_flatMap.2 fun e he => pins_isReset (h e he).1 (h e he).2

end Sys2Proof.Machine
end

section
/-! PROOFS. The capped delays (41_transport.md R163): the increments of an operation stay within the class profile and the cap, and
FLASH_ERASE and WRITE spend exactly such increments. -/

namespace Sys2Proof.Machine

open Sys2Proof.Laws

/-! ### Increments -/

/-- An increment is cut to the class profile. -/
theorem sliceBounded_le (profile wanted : Profile) (budget : Nat) :
    (sliceBounded profile wanted budget).setup ≤ profile.setup ∧ (sliceBounded profile wanted budget).hold ≤ profile.hold :=
  ⟨(Nat.min_le_left _ _).trans (Nat.min_le_right _ _), (Nat.min_le_left _ _).trans (Nat.min_le_right _ _)⟩

/-- An increment is cut to what is left of the cap. -/
theorem sliceBounded_total_le (profile wanted : Profile) (budget : Nat) :
    (sliceBounded profile wanted budget).total ≤ budget := by
  simp only [sliceBounded, Profile.total]
  omega

theorem sliceFrom_le (profile : Profile) (wanted : Nat → Profile) (count k budget : Nat) :
    ∀ t ∈ sliceFrom profile wanted count k budget, t.setup ≤ profile.setup ∧ t.hold ≤ profile.hold := by
  induction count generalizing k budget with
  | zero => exact fun _ h => absurd h List.not_mem_nil
  | succ count ih => exact List.forall_mem_cons.2 ⟨sliceBounded_le _ _ _, ih _ _⟩

/-- The increments together stay within the budget: each takes its total off what the next ones have. -/
theorem sliceFrom_sum_le (profile : Profile) (wanted : Nat → Profile) (count k budget : Nat) :
    ((sliceFrom profile wanted count k budget).map Profile.total).sum ≤ budget := by
  induction count generalizing k budget with
  | zero => exact Nat.zero_le budget
  | succ count ih =>
    have hfirst := sliceBounded_total_le profile (wanted k) budget
    have hrest := ih (k + 1) (budget - (sliceBounded profile (wanted k) budget).total)
    simp only [sliceFrom, List.map_cons, List.sum_cons]
    omega

theorem slicesOf_sum_le (c : Config) (cls : CapClass) (n count : Nat) :
    ((slicesOf c cls n count).map Profile.total).sum ≤ (capOf c cls).at n :=
  sliceFrom_sum_le _ _ _ _ _

/-- A cap grows with the length: by its increments first, then by its slope (R34). -/
theorem Cap.at_mono (c : Cap) {n m : Nat} (h : n ≤ m) : c.at n ≤ c.at m := by
  have hsteps : (c.steps.take n).sum ≤ (c.steps.take m).sum :=
    (List.take_sublist_take_left h).sum_le_sum fun _ _ => Nat.zero_le _
  have hslope : c.slope * (n - c.steps.length) ≤ c.slope * (m - c.steps.length) :=
    Nat.mul_le_mul_left _ (Nat.sub_le_sub_right h _)
  exact Nat.add_le_add (Nat.add_le_add_left hsteps _) hslope

/-- Settles O35: each increment is cut to the profile and to what the ones before it left of the cap. -/
theorem cappedDelaysStayWithinTheCap : Obligations.CappedDelaysStayWithinTheCap := by
  unfold Obligations.CappedDelaysStayWithinTheCap
  exact fun c cls n count => ⟨slicesOf_length c cls n count, slicesOf_sum_le c cls n count, sliceFrom_le _ _ _ _ _,
    fun _ h => Cap.at_mono _ h⟩

/-! ### The frames of FLASH_ERASE and WRITE -/

/-- FLASH_ERASE adds one page-erase trace per address, with the increments of its class (R236, R163). -/
theorem flashErase_wire {a : Word32} {n : Nat} {s : State} (hadm : Admissible a.toNat n s) :
    (runSteps (flashEraseScript s.cfg s.did a n) s).2.wire = s.wire ++
      ((eraseAddresses (pageSizeOf s.did) a.toNat n).zip
        (slicesOf s.cfg .pageErase n (eraseAddresses (pageSizeOf s.did) a.toNat n).length)).flatMap
        fun e => eraseTrace s.cfg e.1 e.2 := by
  have hlt : ∀ e ∈ eraseAddresses (pageSizeOf s.did) a.toNat n, e < 262144 := fun e he => by
    have := eraseAddresses_mem (pageSizeOf_pos _) hadm.nonempty he
    have := hadm.fits
    omega
  obtain ⟨addr, txsr, bitcnt, lines, pins, draws, target, hsteps, -⟩ :=
    eraseEach_shape s.cfg _ _ s (slicesOf_length s.cfg .pageErase n _) hlt
  rw [flashEraseScript, hsteps]

/-- WRITE adds the frames of R186 in the mode `WRITE_MODE` selects, with the increments of its class. -/
theorem writeScript_wire {a : Word32} {buf : List Byte} {s : State} (hadm : Admissible a.toNat buf.length s) :
    (runSteps (writeScript s.cfg a buf) s).2.wire = s.wire ++ programTrace s.cfg a.toNat buf := by
  have hlen := slicesOf_length s.cfg .program buf.length buf.length
  unfold writeScript programTrace
  cases s.cfg.writeMode with
  | burst =>
    obtain ⟨bitcnt, lines, pins, draws, target, hsteps, -⟩ := payloadFrames_shape s.cfg.tRead buf _
      (write24p (opcodeArg s.cfg.opProgram) a s.cfg.tRead { s with addr := a.setWidth 18, rem := buf.length }) hlen
    simp only [runSteps_cons, Micro.run]
    rw [hsteps]
    simp [write24p, pack_eq_commandWord _ hadm.address]
  | perByte =>
    obtain ⟨txsr, bitcnt, lines, pins, draws, target, hsteps, -⟩ := perByteFrames_shape s.cfg buf a _
      { s with addr := a.setWidth 18, rem := buf.length } hlen hadm.fits
    simp only [runSteps_cons, Micro.run]
    rw [hsteps]

/-! ### What they spend -/

@[simp] theorem settleSum_settle (t : Profile) (evs : List WireEvent) :
    settleSum (.settle t :: evs) = t.total + settleSum evs := List.sum_cons

@[simp] theorem settleSum_tx24 (w : Word24) (t : Profile) (evs : List WireEvent) :
    settleSum (.tx24 w t :: evs) = settleSum evs := Nat.zero_add _

@[simp] theorem trailerSum_tx9 (d : Byte) (last : Bool) (tb tt : Profile) (evs : List WireEvent) :
    trailerSum (.tx9 d last tb tt :: evs) = tt.total + trailerSum evs := List.sum_cons

@[simp] theorem trailerSum_tx24 (w : Word24) (t : Profile) (evs : List WireEvent) :
    trailerSum (.tx24 w t :: evs) = trailerSum evs := Nat.zero_add _

theorem settleSum_eraseTrace (c : Config) (a : Nat) (t : Profile) (evs : List WireEvent) :
    settleSum (eraseTrace c a t ++ evs) = t.total + settleSum evs := by
  simp [eraseTrace]

/-- The settle delays of page erases are their increments. -/
theorem settleSum_eraseTraces (c : Config) (addrs : List Nat) (slices : List Profile) (h : slices.length = addrs.length) :
    settleSum ((addrs.zip slices).flatMap fun e => eraseTrace c e.1 e.2) = (slices.map Profile.total).sum := by
  induction addrs generalizing slices with
  | nil =>
    obtain rfl := List.length_eq_zero_iff.1 h
    rfl
  | cons a addrs ih =>
    obtain ⟨t, slices, rfl⟩ := List.exists_cons_of_length_eq_add_one h
    simp [settleSum_eraseTrace, ih slices (Nat.succ.inj h)]

/-- The trailer delays of a program burst are its increments. -/
theorem trailerSum_payloadTrace (tb : Profile) (buf : List Byte) (slices : List Profile) (h : slices.length = buf.length) :
    trailerSum (payloadTrace tb buf slices) = (slices.map Profile.total).sum := by
  induction buf generalizing slices with
  | nil =>
    obtain rfl := List.length_eq_zero_iff.1 h
    rfl
  | cons d buf ih =>
    obtain ⟨tt, slices, rfl⟩ := List.exists_cons_of_length_eq_add_one h
    simp [payloadTrace, ih slices (Nat.succ.inj h)]

/-- The trailer delays of per-byte programming are its increments. -/
theorem trailerSum_perByteTrace (c : Config) (a : Nat) (buf : List Byte) (slices : List Profile)
    (h : slices.length = buf.length) : trailerSum (perByteTrace c a buf slices) = (slices.map Profile.total).sum := by
  induction buf generalizing a slices with
  | nil =>
    obtain rfl := List.length_eq_zero_iff.1 h
    rfl
  | cons d buf ih =>
    obtain ⟨tt, slices, rfl⟩ := List.exists_cons_of_length_eq_add_one h
    simp [perByteTrace, ih (a + 1) slices (Nat.succ.inj h)]

/-- The trailer delays of a WRITE are its increments in either mode: command words have none. -/
theorem trailerSum_programTrace (c : Config) (a : Nat) (buf : List Byte) :
    trailerSum (programTrace c a buf) = ((slicesOf c .program buf.length buf.length).map Profile.total).sum := by
  have hlen := slicesOf_length c .program buf.length buf.length
  unfold programTrace
  cases c.writeMode with
  | burst => exact (trailerSum_tx24 _ _ _).trans (trailerSum_payloadTrace c.tRead buf _ hlen)
  | perByte => exact trailerSum_perByteTrace c a buf _ hlen

/-- Settles O36: the settle delays of the one and the trailer delays of the other are the increments of their class. -/
theorem operationsHonourTheirCaps : Obligations.OperationsHonourTheirCaps := by
  unfold Obligations.OperationsHonourTheirCaps
  refine ⟨fun a n s t h => ?erase, fun a buf s t h => ?write⟩
  case erase =>
    have hadm : Admissible a.toNat n s := admissible_of_next h
    have hnext : execFlashErase a n s = .next t := h
    rw [execFlashErase_next hadm] at hnext
    obtain rfl := Host.Outcome.next.inj hnext
    refine ⟨_, flashErase_wire hadm, ?_⟩
    rw [settleSum_eraseTraces _ _ _ (slicesOf_length _ _ _ _)]
    exact slicesOf_sum_le s.cfg .pageErase n _
  case write =>
    have hadm : Admissible a.toNat buf.length s := admissible_of_next h
    have hnext : execWrite a buf s = .next t := h
    rw [execWrite, writeAt_next hadm] at hnext
    obtain rfl := Host.Outcome.next.inj hnext
    refine ⟨_, writeScript_wire hadm, ?_⟩
    rw [trailerSum_programTrace]
    exact slicesOf_sum_le s.cfg .program buf.length _

end Sys2Proof.Machine
end

section
/-! PROOFS. The memory operations (42_memory_ops.md): READ, ERASE, MASS_ERASE and WRITE in every state that admits them, with their
traces and registers, and what each leaves of the target under the contract. -/

namespace Sys2Proof.Machine

open Sys2Proof.Laws

/-- The command word of an address that fits the parameter field carries it whole (R91, R92). -/
theorem pack_eq_commandWord_setWidth (o : BitVec 6) {a : Word32} (ha : a.toNat < 262144) :
    pack (opcodeArg o) a = commandWord o (a.setWidth 18) := by
  rw [pack_eq_commandWord o ha, ofNat18_toNat]

/-- DAT after a command word: the low bit of the opcode, which goes out last (R91, R152). -/
theorem commandWord_lsb (o : BitVec 6) (p : Addr18) : (commandWord o p).getLsbD 0 = o.getLsbD 0 :=
  pack_lsb o (paramArg_lt p)

/-! ### READ -/

/-- READ's steps in every state: one command word, then the burst, which empties `REM` (R184). -/
theorem readScript_shape {a : Word32} {n : Nat} {s t : State} {out : List Byte} (hadm : Admissible a.toNat n s)
    (h : runSteps (readScript s.cfg a n) s = (out, t)) : out.length = n ∧
    t.wire = s.wire ++ (.tx24 (commandWord s.cfg.opRead (a.setWidth 18)) s.cfg.tRead :: responseTrace s.cfg.tRead out) ∧
    t.addr = a.setWidth 18 ∧ t.rem = 0 ∧ t.txsr = commandWord s.cfg.opRead (a.setWidth 18) ∧
    (∀ d, out.getLast? = some d → t.rxsr = frame9 d false) ∧ t.bitcnt = 0 ∧
    t.lines = { s.lines with dat := .low, clk := .low } := by
  obtain ⟨rxsr, bitcnt, lines, pins, draws, target, hsteps, hlen, -, hburst⟩ := receiveFrames_shape s.cfg.tRead n
    (write24p (opcodeArg s.cfg.opRead) a s.cfg.tRead { s with addr := a.setWidth 18, rem := n })
  obtain ⟨hbitcnt, hlines, hrxsr⟩ := hburst hadm.nonempty
  simp only [readScript, runSteps_cons, Micro.run, List.nil_append, Prod.mk.injEq] at h
  obtain ⟨rfl, rfl⟩ := h
  rw [hsteps]
  refine ⟨hlen, ?_, rfl, Nat.sub_self n, ?_, hrxsr, hbitcnt, ?_⟩
  · simp [write24p, pack_eq_commandWord_setWidth _ hadm.address]
  · simp [write24p, pack_eq_commandWord_setWidth _ hadm.address]
  · simp [hlines, write24p]

/-- READ and its wrappers are one burst, whatever name it runs under (R184, R232, R237). -/
theorem exec_eq_readAt {i : Instr} {a : Word32} {n : Nat} {s : State}
    (hi : i = .read a n ∨ i = .flashRead a n ∨ (i = .configRead ∧ a = configAddress s.cfg ∧ n = 5)) :
    exec i s = readAt i a n s := by
  rcases hi with rfl | rfl | ⟨rfl, rfl, rfl⟩ <;> rfl

/-- Settles O46: READ's steps in every state, and the burst under the contract. -/
theorem readReturnsTheBurst : Obligations.ReadReturnsTheBurst := by
  unfold Obligations.ReadReturnsTheBurst
  intro i a n s hi hadm
  rcases h : runSteps (readScript s.cfg a n) s with ⟨out, t⟩
  have hquiet := runSteps_quiet (readScript s.cfg a n) s
  obtain ⟨hlen, hwire, haddr, hrem, htxsr, hrxsr, hbitcnt, hlines⟩ := readScript_shape hadm h
  rw [exec_eq_readAt hi, readAt_next hadm]
  rw [h] at hquiet ⊢
  refine ⟨out, _, rfl, hlen, rfl, hwire, haddr, hrem, htxsr, hrxsr, hbitcnt, hlines, hquiet.wireFrame _, fun hc hcov => ?_⟩
  obtain ⟨hbytes, hdraws, htarget⟩ := readScript_contract hc hadm hcov
  rw [h] at hbytes hdraws htarget
  exact ⟨hbytes, hdraws, htarget⟩

/-! ### ERASE -/

/-- ERASE is a run of one page erase. -/
theorem eraseScript_eq_eraseEach (c : Config) (t : Profile) (a : Word32) : eraseScript c t a = eraseEach c [a.toNat] [t] := by
  simp [eraseEach]

/-- ERASE's steps in every state: the command word with the unmasked address, and one settle (R180, R181). -/
theorem eraseScript_shape (p : Profile) {a : Word32} {s t : State} (ha : a.toNat < 262144)
    (h : (runSteps (eraseScript s.cfg p a) s).2 = t) :
    t.wire = s.wire ++ eraseTrace s.cfg a.toNat p ∧ t.addr = a.setWidth 18 ∧ t.rem = s.rem ∧ t.rxsr = s.rxsr ∧
    t.txsr = commandWord s.cfg.opPageErase (a.setWidth 18) ∧ t.bitcnt = 0 ∧
    t.lines = { s.lines with dat := Level.ofBit (s.cfg.opPageErase.getLsbD 0), clk := .low } := by
  obtain ⟨addr, txsr, bitcnt, lines, pins, draws, target, hsteps, -, hlast⟩ :=
    eraseEach_shape s.cfg [a.toNat] [p] s rfl (by simpa using ha)
  obtain ⟨haddr, htxsr, hbitcnt, hlines⟩ := hlast a.toNat rfl
  rw [ofNat18_toNat] at haddr htxsr
  rw [eraseScript_eq_eraseEach, hsteps] at h
  subst h
  exact ⟨by simp, haddr, rfl, rfl, htxsr, hbitcnt, hlines⟩

/-- ERASE under the contract: the page of its address is erased and the address is in `TPTR`; nothing else changes (R75, R37). -/
theorem eraseScript_contract (p : Profile) {a : Word32} {s t : State} (hc : Contract s) (ha : a.toNat < 262144)
    (hcov : s.target.covers s.cfg a.toNat 1) (h : (runSteps (eraseScript s.cfg p a) s).2 = t) :
    t.draws = s.draws ∧ t.target = { s.target with
      ptr := a.toNat
      mem := s.target.mem.erase (s.target.pageOf s.cfg a.toNat).1 (s.target.pageOf s.cfg a.toNat).2 } := by
  rw [eraseScript_eq_eraseEach] at h
  subst h
  exact eraseEach_contract [a.toNat] [p] s rfl (by simpa using ha) hc.params hc.target
    (by simpa using covers_has hcov Nat.zero_lt_one)

/-- ERASE and its wrapper are one page erase, whatever name it runs under (R180, R231). -/
theorem exec_eq_eraseAt {i : Instr} {a : Word32} {s : State}
    (hi : i = .erase a ∨ (i = .configErase ∧ a = configAddress s.cfg)) : exec i s = eraseAt i a s := by
  rcases hi with rfl | ⟨rfl, rfl⟩ <;> rfl

/-- Settles O47: ERASE is a run of one page erase, whose page is the target's own in flash and the block in the Config region. -/
theorem eraseClearsExactlyItsPage : Obligations.EraseClearsExactlyItsPage := by
  unfold Obligations.EraseClearsExactlyItsPage
  intro i a s hi hadm
  have hquiet := runSteps_quiet (eraseScript s.cfg s.cfg.tPageErase a) s
  rw [exec_eq_eraseAt hi, eraseAt_next hadm]
  generalize h : (runSteps (eraseScript s.cfg s.cfg.tPageErase a) s).2 = t at hquiet
  obtain ⟨hwire, haddr, hrem, hrxsr, htxsr, hbitcnt, hlines⟩ := eraseScript_shape _ hadm.address h
  refine ⟨_, rfl, rfl, hwire, haddr, hrem, hrxsr, htxsr, hbitcnt, hlines, hquiet.wireFrame _, fun hc hcov => ?_⟩
  obtain ⟨hdraws, htarget⟩ := eraseScript_contract _ hc hadm.address hcov h
  refine ⟨hdraws, by rw [htarget], fun hflash x => ?flash, fun hbeyond x => ?config⟩
  case flash =>
    rw [htarget, Target.pageOf_of_lt hflash, read_erase]
    exact if_congr inRange_iff rfl rfl
  case config =>
    rw [htarget, Target.pageOf_of_le hbeyond, read_erase]
    exact if_congr inRange_iff rfl rfl

/-! ### MASS_ERASE -/

/-- MASS_ERASE under the contract: flash reads erased, the config bytes and the lock flag are free, and everything else is as it
was (R76). -/
theorem massEraseScript_contract {s : State} {target : Target} (hc : Contract s) (hwf : s.target.mem.wf = true)
    (hbelow : s.target.flash ≤ s.cfg.configBase.toNat) (h : (runSteps (massEraseScript s.cfg) s).2.target = target) :
    target = { s.target with lock := target.lock, mem := target.mem } ∧
    (∀ x, x < s.target.flash → target.mem.read x = 0xFF) ∧
    (∀ x, s.target.flash ≤ x → ¬ (s.cfg.configBase.toNat ≤ x ∧ x < s.cfg.configBase.toNat + 5) →
      target.mem.read x = s.target.mem.read x) := by
  have hword := congrArg Prod.fst
    (onWord_massErase (k := s.draws) hc.params (paramArg_lt s.cfg.paramMassErase) hc.target)
  obtain rfl := hword.symm.trans h
  refine ⟨rfl, fun x hx => ?_, fun x hx hout => ?_⟩
  · exact (read_massErased hwf _ (by omega)).trans (if_pos hx)
  · exact (read_massErased hwf _ hout).trans (if_neg (by omega))

/-- Settles O48: the script is one command word and one settle (R183), and the word is the target's mass erase. -/
theorem massEraseClearsFlash : Obligations.MassEraseClearsFlash := by
  unfold Obligations.MassEraseClearsFlash
  intro s hsess
  have hquiet := runSteps_quiet (massEraseScript s.cfg) s
  refine ⟨_, execMassErase_next hsess, rfl, ?wire, rfl, rfl, rfl, rfl, rfl, ?lines, hquiet.wireFrame _,
    fun hc hwf hbelow => massEraseScript_contract hc hwf hbelow rfl⟩
  case wire => simp [massEraseScript, runSteps_cons, Micro.run, write24p, settle, commandWord]
  case lines =>
    rw [← commandWord_lsb s.cfg.opMassErase s.cfg.paramMassErase]
    simp [massEraseScript, runSteps_cons, Micro.run, write24p, settle, commandWord]

/-! ### WRITE -/

/-- WRITE's steps in every state, in either mode: `REM` is counted down, and `TXSR` holds the last command word (R186, R27). -/
theorem writeScript_shape {a : Word32} {buf : List Byte} {s t : State} (hadm : Admissible a.toNat buf.length s)
    (h : (runSteps (writeScript s.cfg a buf) s).2 = t) :
    t.addr = a.setWidth 18 ∧ t.rem = 0 ∧ t.rxsr = s.rxsr ∧ t.bitcnt = 0 ∧
    t.txsr = commandWord s.cfg.opProgram
      (BitVec.ofNat 18 (if s.cfg.writeMode = .burst then a.toNat else a.toNat + buf.length - 1)) ∧
    t.lines = { s.lines with dat := .low, clk := .low } := by
  have hne : buf ≠ [] := List.ne_nil_of_length_pos hadm.nonempty
  have hlen := slicesOf_length s.cfg .program buf.length buf.length
  unfold writeScript at h
  cases hmode : s.cfg.writeMode with
  | burst =>
    obtain ⟨bitcnt, lines, pins, draws, target, hsteps, -, hburst⟩ := payloadFrames_shape s.cfg.tRead buf _
      (write24p (opcodeArg s.cfg.opProgram) a s.cfg.tRead { s with addr := a.setWidth 18, rem := buf.length }) hlen
    obtain ⟨hbitcnt, hlines⟩ := hburst hne
    simp only [hmode, runSteps_cons, Micro.run] at h
    rw [hsteps] at h
    subst h
    exact ⟨rfl, Nat.sub_self _, rfl, hbitcnt, pack_eq_commandWord _ hadm.address, by simp [hlines, write24p]⟩
  | perByte =>
    obtain ⟨txsr, bitcnt, lines, pins, draws, target, hsteps, -, hpairs⟩ := perByteFrames_shape s.cfg buf a _
      { s with addr := a.setWidth 18, rem := buf.length } hlen hadm.fits
    obtain ⟨hbitcnt, hlines, htxsr⟩ := hpairs hne
    simp only [hmode, runSteps_cons, Micro.run] at h
    rw [hsteps] at h
    subst h
    exact ⟨rfl, Nat.sub_self _, rfl, hbitcnt, htxsr, hlines⟩

/-- WRITE and its wrappers are one operation, whatever name it runs under; a Config buffer of five bytes passes the length check of
R230 (R186, R233, R238). -/
theorem exec_eq_writeAt {i : Instr} {a : Word32} {buf : List Byte} {s : State}
    (hi : i = .write a buf ∨ i = .flashWrite a buf ∨ (i = .configWrite buf ∧ a = configAddress s.cfg ∧ buf.length = 5)) :
    exec i s = writeAt i a buf s := by
  rcases hi with rfl | rfl | ⟨rfl, rfl, hlen⟩
  · rfl
  · rfl
  · exact configGuard_eq hlen s _ _

/-- Settles O49: WRITE's steps in every state, and the buffer AND-ed in under the contract. -/
theorem writeAndsTheBufferIn : Obligations.WriteAndsTheBufferIn := by
  unfold Obligations.WriteAndsTheBufferIn
  intro i a buf s hi hadm
  have hquiet := runSteps_quiet (writeScript s.cfg a buf) s
  obtain ⟨haddr, hrem, hrxsr, hbitcnt, htxsr, hlines⟩ := writeScript_shape hadm rfl
  rw [exec_eq_writeAt hi, writeAt_next hadm]
  refine ⟨_, rfl, rfl, writeScript_wire hadm, haddr, hrem, hrxsr, hbitcnt, htxsr, hlines, hquiet.wireFrame _,
    fun hc hwf hcov => ?_⟩
  obtain ⟨m, ⟨hmwf, hread⟩, hdraws, htarget⟩ := writeScript_contract hc hadm hwf hcov
  dsimp only
  rw [htarget]
  exact ⟨hdraws, rfl, hmwf, hread⟩

/-! ### Erased flash -/

/-- A range that reads erased is a buffer of `0xFF`. -/
theorem slice_eq_replicate {m : Memory} {a n : Nat} (h : ∀ x, a ≤ x → x < a + n → m.read x = 0xFF) :
    m.slice a n = List.replicate n 0xFF := by
  refine List.eq_replicate_iff.2 ⟨by simp [Memory.slice], fun b hb => ?_⟩
  obtain ⟨i, hi, rfl⟩ := List.mem_map.1 hb
  have := List.mem_range.1 hi
  exact h (a + i) (by omega) (by omega)

/-- A buffer of `0xFF` compared with itself raises no flag (R211, R212). -/
theorem compareBytes_erased (n : Nat) :
    compareBytes (List.replicate n 0xFF) (List.replicate n 0xFF) = ⟨false, false, false⟩ := by
  rw [compareBytes_eq, List.zip_replicate']
  simp only [List.any_replicate]
  simp [neOf, gtOf, nempOf]

/-- Under the contract FLASH_COMPARE of `0xFF` over erased flash clears `CMP`, and FLASH_VERIFY answers true (R239, R240). -/
theorem erased_verifies {n : Nat} {u : State} (hc : Contract u) (hadm : Admissible 0 n u) (hflash : n ≤ u.target.flash)
    (herased : ∀ x, x < n → u.target.mem.read x = 0xFF) :
    ∃ v w, exec (.flashCompare 0 (List.replicate n 0xFF)) u = .next v ∧ v.cmp = ⟨false, false, false⟩ ∧
      exec (.flashVerify 0 (List.replicate n 0xFF)) u = .next w ∧ w.result = some (.bool true) := by
  have hadm' : Admissible (0 : Word32).toNat (List.replicate n (0xFF : Byte)).length u := by simpa using hadm
  have hcov : u.target.covers u.cfg (0 : Word32).toNat (List.replicate n (0xFF : Byte)).length := .inl (by simpa using hflash)
  have hbytes := (readScript_contract hc hadm' hcov).bytes
  have hslice : u.target.mem.slice (0 : Word32).toNat (List.replicate n (0xFF : Byte)).length = List.replicate n 0xFF := by
    rw [List.length_replicate]
    exact slice_eq_replicate fun x _ hx => herased x (by simpa using hx)
  rw [hslice] at hbytes
  have hcmp := compareBytes_erased n
  refine ⟨_, _, compareAt_next hadm', ?_, verifyAt_next hadm', ?_⟩ <;> dsimp only <;> rw [hbytes, hcmp]
  rfl

/-- Settles O56: the mass erase leaves all of flash reading `0xFF`, and with the lock flag clear the contract is in force again. -/
theorem massErasedFlashVerifiesAsErased : Obligations.MassErasedFlashVerifiesAsErased := by
  unfold Obligations.MassErasedFlashVerifiesAsErased
  rintro s t u hc hlaunch hwf hsess hsize hpos h rfl
  have hnext : execMassErase s = .next t := h
  rw [execMassErase_next hsess] at hnext
  obtain rfl := Host.Outcome.next.inj hnext
  have hquiet := runSteps_quiet (massEraseScript s.cfg) s
  obtain ⟨htarget, herased, -⟩ := massEraseScript_contract hc hwf hlaunch.below rfl
  generalize (runSteps (massEraseScript s.cfg) s).2 = r at hquiet htarget herased
  have hflash : r.target.flash = s.target.flash := by rw [htarget]
  refine ⟨fun hlock => ?clear, erased_verifies ⟨?params, ?contract⟩ ?admitted hflash.ge herased⟩
  case clear =>
    dsimp only at hlock ⊢
    rw [← hlock]
  case params =>
    dsimp only
    rw [hquiet.cfg]
    exact hc.params
  case contract =>
    have hready : s.target.ready = true := (Bool.and_eq_true_iff.1 hc.target).1
    dsimp only
    rw [htarget]
    exact Bool.and_eq_true_iff.2 ⟨hready, rfl⟩
  case admitted =>
    have hbase := configBase_fits hc.params
    have hbelow := hlaunch.below
    refine ⟨hquiet.sess.trans hsess, hpos, by omega, by omega, .inl ?_⟩
    dsimp only
    rw [hquiet.cfg, hquiet.did, hsize, Nat.zero_add]

end Sys2Proof.Machine
end

section
/-! PROOFS. The flags of the compare engine (43_compare.md R211 to R217): the pair equations, their aggregation, and the laws of the
results that COMPARE can produce. -/

namespace Sys2Proof.Machine

open Sys2Proof.Laws

/-! ### The flags of a pair -/

/-- The bits that must rise are those in which the desired byte and the common bits differ. -/
theorem complement_and_eq_xor (cur des : Byte) : ~~~cur &&& des = (cur &&& des) ^^^ des := by
  ext i hi
  simp only [BitVec.getElem_and, BitVec.getElem_not, BitVec.getElem_xor]
  cases cur[i] <;> cases des[i] <;> rfl

theorem gtOf_eq_false_iff {c d : Byte} : gtOf c d = false ↔ c &&& d = d := by
  rw [gtOf, bne_eq_false_iff_eq]

/-- The derived form of GREATER (R211). -/
theorem gtOf_iff_complement_and {c d : Byte} : gtOf c d = true ↔ ~~~c &&& d ≠ 0 := by
  rw [gtOf, bne_iff_ne, complement_and_eq_xor]
  exact BitVec.xor_eq_zero_iff.symm.not

/-- No bit of an erased byte has to rise (L4). -/
theorem gtOf_erased (d : Byte) : gtOf 0xFF d = false :=
  gtOf_eq_false_iff.2 BitVec.allOnes_and

/-- Only an erased byte lets an erased byte be reached without a bit rising (L5). -/
theorem gtOf_to_erased_iff {c : Byte} : gtOf c 0xFF = true ↔ c ≠ 0xFF := by
  have hand : c &&& 0xFF = c := BitVec.and_allOnes
  rw [gtOf, hand, bne_iff_ne]

theorem nempOf_eq_false_iff {d : Byte} : nempOf d = false ↔ d = 0xFF := by
  rw [nempOf, bne_eq_false_iff_eq]

/-- Settles O10: the equations are the definitions, and GREATER has its derived form bit by bit. -/
theorem pairFlagsAreTheEquations : Obligations.PairFlagsAreTheEquations := by
  unfold Obligations.PairFlagsAreTheEquations
  exact fun c d => ⟨bne_iff_ne, bne_iff_ne, bne_iff_ne, gtOf_iff_complement_and⟩

/-! ### The flags of two buffers -/

/-- Settles O11: COMPARE's loop, from the cleared flags. -/
theorem compareFlagsAggregateByOr : Obligations.CompareFlagsAggregateByOr := by
  unfold Obligations.CompareFlagsAggregateByOr
  refine ⟨fun cur buf _ => ?_, rfl⟩
  rw [compareBytes_eq]
  exact ⟨rfl, rfl, rfl⟩

theorem compareBytes_pair (c d : Byte) : compareBytes [c] [d] = ⟨neOf c d, gtOf c d, nempOf d⟩ := rfl

/-- GREATER implies NOT_EQUAL (L6). -/
theorem compareBytes_ne_of_gt {cur buf : List Byte} (h : (compareBytes cur buf).gt = true) :
    (compareBytes cur buf).ne = true := by
  rw [compareBytes_eq] at h ⊢
  obtain ⟨p, hp, hgt⟩ := List.any_eq_true.1 h
  exact List.any_eq_true.2 ⟨p, hp, neOf_of_gtOf hgt⟩

/-- Where the buffer is erased, a pair that differs has a bit that must rise (L6). -/
theorem compareBytes_gt_of_ne {cur buf : List Byte} (hne : (compareBytes cur buf).ne = true)
    (hnemp : (compareBytes cur buf).nemp = false) : (compareBytes cur buf).gt = true := by
  rw [compareBytes_eq] at hne hnemp ⊢
  obtain ⟨⟨c, d⟩, hp, hdiffer⟩ := List.any_eq_true.1 hne
  obtain rfl : d = 0xFF := nempOf_eq_false_iff.1 (Bool.eq_false_iff.2 (List.any_eq_false.1 hnemp _ hp))
  exact List.any_eq_true.2 ⟨_, hp, gtOf_to_erased_iff.2 (bne_iff_ne.1 hdiffer)⟩

/-- The five combinations that a compare can produce (R217). -/
def reachableResults : List CompareResult :=
  [⟨false, false, false⟩, ⟨false, false, true⟩, ⟨true, false, true⟩, ⟨true, true, false⟩, ⟨true, true, true⟩]

/-- They are those that the two laws of L6 leave. -/
theorem mem_reachableResults_iff (r : CompareResult) :
    r ∈ reachableResults ↔ (r.gt = true → r.ne = true) ∧ (r.ne = true → r.nemp = false → r.gt = true) := by
  obtain ⟨ne, gt, nemp⟩ := r
  revert ne gt nemp
  decide

/-- Each of the five is the result of some compare: of no pair, or of one. -/
theorem exists_compareBytes_eq {r : CompareResult} (h : r ∈ reachableResults) :
    ∃ cur buf : List Byte, cur.length = buf.length ∧ compareBytes cur buf = r := by
  simp only [reachableResults, List.mem_cons, List.not_mem_nil, or_false] at h
  rcases h with rfl | rfl | rfl | rfl | rfl
  · exact ⟨[], [], rfl, rfl⟩
  · exact ⟨[0x12], [0x12], rfl, by decide⟩
  · exact ⟨[0xFF], [0x12], rfl, by decide⟩
  · exact ⟨[0x12], [0xFF], rfl, by decide⟩
  · exact ⟨[0x10], [0x12], rfl, by decide⟩

/-- Settles O12: L1 to L5 pair by pair, L6 by the pair that raises the flag, and the five combinations by L6. -/
theorem compareLawsHold : Obligations.CompareLawsHold := by
  unfold Obligations.CompareLawsHold
  refine ⟨fun c d => ⟨neOf_of_gtOf, ⟨?equal, ?needErase, ?needWrite⟩, gtOf_eq_false_iff, gtOf_erased d, gtOf_to_erased_iff,
    rfl⟩,
    fun cur buf => ⟨compareBytes_ne_of_gt, compareBytes_gt_of_ne⟩, fun r => ⟨?_, ?_⟩⟩
  case equal => rw [compareBytes_pair, equal, neOf, Bool.not_eq_true', bne_eq_false_iff_eq]
  case needErase =>
    rw [compareBytes_pair, needErase, Bool.and_eq_true, and_iff_right_of_imp neOf_of_gtOf, gtOf, bne_iff_ne]
  case needWrite => rw [compareBytes_pair, needWrite, Bool.and_eq_true, neOf, nempOf, bne_iff_ne, bne_iff_ne]
  · rintro ⟨cur, buf, -, rfl⟩
    exact (mem_reachableResults_iff _).2 ⟨compareBytes_ne_of_gt, compareBytes_gt_of_ne⟩
  · exact exists_compareBytes_eq

/-! ### The predicates -/

/-- On a result of COMPARE, `need_erase` is GREATER (R217). -/
theorem needErase_compareBytes (cur buf : List Byte) : needErase (compareBytes cur buf) = (compareBytes cur buf).gt :=
  Bool.and_eq_right_iff_imp.2 compareBytes_ne_of_gt

/-- Equality excludes both predicates (R216). -/
theorem needs_nothing_of_equal {r : CompareResult} (h : equal r = true) : needErase r = false ∧ needWrite r = false := by
  have hne : r.ne = false := (Bool.not_eq_true' _).mp h
  rw [needErase, needWrite, hne]
  exact ⟨rfl, rfl⟩

/-- EQUAL answers whether the bytes are the buffer's. -/
theorem equal_compareBytes_iff {cur buf : List Byte} (hlen : cur.length = buf.length) :
    equal (compareBytes cur buf) = true ↔ cur = buf := by
  rw [equal, Bool.not_eq_true', Bool.eq_false_iff, Ne, compareBytes_ne_iff hlen, not_not]

/-- Settles O13: each instruction replies its predicate. -/
theorem predicatesReduceAResult : Obligations.PredicatesReduceAResult := by
  unfold Obligations.PredicatesReduceAResult
  exact ⟨fun r s => ⟨rfl, rfl, rfl⟩, needErase_compareBytes, fun r => needs_nothing_of_equal⟩

end Sys2Proof.Machine
end

section
/-! PROOFS. COMPARE and VERIFY as the READ they send (43_compare.md R210, 44_wrappers.md R241), and the loop that the flags drive
over a page of flash (R219). -/

namespace Sys2Proof.Machine

open Sys2Proof.Laws

/-! ### COMPARE and VERIFY after READ -/

section AfterRead

variable {op : Instr} {a : Word32} {buf cur : List Byte} {s u : State} (hread : exec (.read a buf.length) s = .next u)
  (hbytes : u.result = some (.bytes cur))
include hread hbytes

/-- A completed READ was admitted, and it answers what its steps received. -/
theorem read_completed : Admissible a.toNat buf.length s ∧ cur = (runSteps (readScript s.cfg a buf.length) s).1 ∧
    u = { (runSteps (readScript s.cfg a buf.length) s).2 with seq := .idle, result := some (.bytes cur) } := by
  have hadm : Admissible a.toNat buf.length s := admissible_of_next hread
  have hnext : readAt (.read a buf.length) a buf.length s = .next u := hread
  rw [readAt_next hadm] at hnext
  obtain rfl := Host.Outcome.next.inj hnext
  obtain rfl := Value.bytes.inj (Option.some.inj hbytes)
  exact ⟨hadm, rfl, rfl⟩

/-- COMPARE leaves what READ leaves, with the flags of the bytes read in `CMP` and in the answer (R210). -/
theorem compareAt_of_read : compareAt op a buf s =
    .next { u with cmp := compareBytes cur buf, result := some (.flags (compareBytes cur buf)) } := by
  obtain ⟨hadm, rfl, rfl⟩ := read_completed hread hbytes
  exact compareAt_next hadm

/-- VERIFY leaves what COMPARE leaves, with the flags reduced to EQUAL in the answer (R241). -/
theorem verifyAt_of_read : verifyAt op a buf s =
    .next { u with cmp := compareBytes cur buf, result := some (.bool (equal (compareBytes cur buf))) } := by
  obtain ⟨hadm, rfl, rfl⟩ := read_completed hread hbytes
  exact verifyAt_next hadm

end AfterRead

/-- COMPARE and its wrappers are one operation, whatever name it runs under; a Config buffer of five bytes passes the length check
of R230 (R210, R234, R239). -/
theorem exec_eq_compareAt {i : Instr} {a : Word32} {buf : List Byte} {s : State}
    (hi : i = .compare a buf ∨ i = .flashCompare a buf ∨
      (i = .configCompare buf ∧ a = configAddress s.cfg ∧ buf.length = 5)) :
    exec i s = compareAt i a buf s := by
  rcases hi with rfl | rfl | ⟨rfl, rfl, hlen⟩
  · rfl
  · rfl
  · exact configGuard_eq hlen s _ _

/-- NOT_EMPTY is read off the buffer alone (R221). -/
theorem compareBytes_nemp {cur buf : List Byte} (hlen : cur.length = buf.length) :
    (compareBytes cur buf).nemp = buf.any nempOf := by
  conv_rhs => rw [← List.map_snd_zip hlen.ge, List.any_map]
  rw [compareBytes_eq]
  rfl

/-- Settles O50: COMPARE after the READ of O46. -/
theorem compareFlagsTheRange : Obligations.CompareFlagsTheRange := by
  unfold Obligations.CompareFlagsTheRange
  intro i a buf s hi hadm
  obtain ⟨cur, u, hread, hlen, hbytes, -, -, -, -, -, -, -, hframe, hcontract⟩ :=
    readReturnsTheBurst (.read a buf.length) a buf.length s (.inl rfl) hadm
  rw [exec_eq_compareAt hi]
  refine ⟨cur, _, u, compareAt_of_read hread hbytes, hread, hbytes, hlen, rfl, compareBytes_nemp hlen, ?frame, hcontract⟩
  case frame =>
    unfold wireFrame at hframe ⊢
    rw [hframe]

/-! ### The loop over the bytes of a page -/

/-- What ERASE leaves of a page's bytes, taken if `need_erase` (R75, R219). -/
def erasedIfNeeded (r : CompareResult) (cur : List Byte) : List Byte :=
  if needErase r then List.replicate cur.length 0xFF else cur

/-- What WRITE leaves of a page's bytes, taken if `need_write` (R74, R219). -/
def writtenIfNeeded (r : CompareResult) (cur buf : List Byte) : List Byte :=
  if needWrite r then List.zipWith (· &&& ·) cur buf else cur

/-- A buffer that raises no bit is reached by AND-ing it in (R189). -/
theorem zipWith_and_eq_of_not_gt {cur buf : List Byte} (hlen : cur.length = buf.length)
    (hgt : (compareBytes cur buf).gt = false) : List.zipWith (· &&& ·) cur buf = buf := by
  rw [compareBytes_eq] at hgt
  calc List.zipWith (· &&& ·) cur buf
      = (cur.zip buf).map (Function.uncurry (· &&& ·)) := List.map_uncurry_zip_eq_zipWith.symm
    _ = (cur.zip buf).map Prod.snd := List.map_congr_left fun p hp =>
        gtOf_eq_false_iff.1 (Bool.eq_false_iff.2 (List.any_eq_false.1 hgt p hp))
    _ = buf := List.map_snd_zip hlen.ge

/-- Over an erased page no bit has to rise (L4). -/
theorem compareBytes_gt_erased (buf : List Byte) : (compareBytes (List.replicate buf.length 0xFF) buf).gt = false := by
  rw [compareBytes_eq]
  refine List.any_eq_false.2 fun p hp => ?_
  rw [List.eq_of_mem_replicate (List.of_mem_zip hp).1, gtOf_erased]
  exact Bool.false_ne_true

/-- A buffer without NOT_EMPTY is erased (R211). -/
theorem eq_replicate_of_not_nemp {cur buf : List Byte} (hlen : cur.length = buf.length)
    (hnemp : (compareBytes cur buf).nemp = false) : buf = List.replicate buf.length 0xFF := by
  rw [compareBytes_nemp hlen] at hnemp
  exact List.eq_replicate_iff.2 ⟨rfl, fun d hd => nempOf_eq_false_iff.1 (Bool.eq_false_iff.2 (List.any_eq_false.1 hnemp d hd))⟩

/-- The decision loop reaches the buffer from any bytes (R219). -/
theorem writtenIfNeeded_erasedIfNeeded {cur buf : List Byte} (hlen : cur.length = buf.length) :
    writtenIfNeeded (compareBytes cur buf) (erasedIfNeeded (compareBytes cur buf) cur) buf = buf := by
  unfold writtenIfNeeded erasedIfNeeded
  rw [needErase_compareBytes, needWrite, hlen]
  cases hgt : (compareBytes cur buf).gt with
  | true =>
    rw [compareBytes_ne_of_gt hgt, Bool.true_and, if_pos rfl]
    cases hnemp : (compareBytes cur buf).nemp with
    | true => exact zipWith_and_eq_of_not_gt List.length_replicate (compareBytes_gt_erased buf)
    | false => exact (eq_replicate_of_not_nemp hlen hnemp).symm
  | false =>
    rw [if_neg Bool.false_ne_true]
    cases hne : (compareBytes cur buf).ne with
    | true =>
      cases hnemp : (compareBytes cur buf).nemp with
      | true => exact zipWith_and_eq_of_not_gt hlen hgt
      | false =>
        rw [compareBytes_gt_of_ne hne hnemp] at hgt
        cases hgt
    | false => exact (equal_compareBytes_iff hlen).1 (by rw [equal, hne]; rfl)

/-! ### The loop over a page of the target -/

/-- A frame of wire events leaves the session and the device id. -/
theorem wireFrame_session {s t : State} (h : wireFrame s t) : t.sess = s.sess ∧ t.did = s.did := by
  unfold wireFrame at h
  constructor <;> rw [h]

/-- What every operation of the loop finds and leaves: the contract in force, and the request a whole page of flash (R219). -/
structure OnPage (a : Word32) (n : Nat) (s : State) : Prop where
  contract : Contract s
  wf       : s.target.mem.wf = true
  whole    : n = s.target.page
  aligned  : a.toNat % s.target.page = 0
  inFlash  : a.toNat + n ≤ s.target.flash
  admitted : Admissible a.toNat n s

/-- An operation that leaves the session registers, and of the target all but `TPTR` and `TMem`, leaves the loop on its page. -/
theorem OnPage.of_exec {a : Word32} {n : Nat} {i : Instr} {s t : State} (h : OnPage a n s) (hexec : exec i s = .next t)
    (hsession : t.sess = s.sess ∧ t.did = s.did)
    (htarget : t.target = { s.target with ptr := t.target.ptr, mem := t.target.mem }) : OnPage a n t := by
  obtain ⟨hcfg, -, -, ⟨-, -, -, hpage, hflash⟩, hwf⟩ := exec_lasting i s t hexec
  obtain ⟨hsess, hdid⟩ := hsession
  obtain ⟨hentered, hnonempty, haddress, hfits, hregion⟩ := h.admitted
  refine ⟨⟨hcfg ▸ h.contract.params, ?_⟩, hwf h.wf, hpage ▸ h.whole, hpage ▸ h.aligned, hflash ▸ h.inFlash,
    hsess.trans hentered, hnonempty, haddress, hfits, ?_⟩
  · rw [htarget]
    exact h.contract.target
  · rwa [hcfg, hdid]

/-- The bytes of a range after a buffer is AND-ed in. -/
theorem andedIn_slice {m m' : Memory} {a : Nat} {buf : List Byte} (h : AndedIn m m' a buf) :
    m'.slice a buf.length = List.zipWith (· &&& ·) (m.slice a buf.length) buf := by
  obtain ⟨-, hread⟩ := h
  refine List.ext_getElem (by simp [Memory.slice]) fun i hi _ => ?_
  have hlt : i < buf.length := by simpa [Memory.slice] using hi
  simp [Memory.slice, hread, hlt]

section OnPage

variable {a : Word32} {buf : List Byte} {s t : State} (h : OnPage a buf.length s)
include h

theorem OnPage.covers : s.target.covers s.cfg a.toNat buf.length := .inl h.inFlash

/-- COMPARE sets the flags of the page's bytes and leaves the page as it is. -/
theorem OnPage.compare (hexec : exec (.compare a buf) s = .next t) : OnPage a buf.length t ∧
    t.target.mem = s.target.mem ∧ t.cmp = compareBytes (s.target.mem.slice a.toNat buf.length) buf := by
  obtain ⟨cur, t', u, hexec', -, -, -, ht, -, hframe, hcontract⟩ := compareFlagsTheRange _ a buf s (.inl rfl) h.admitted
  obtain rfl : t' = t := Host.Outcome.next.inj (hexec'.symm.trans hexec)
  have hsession := wireFrame_session hframe
  obtain ⟨hbytes, -, htarget⟩ := hcontract h.contract h.covers
  refine ⟨h.of_exec hexec hsession (by rw [htarget]), by rw [htarget], ?_⟩
  rw [ht, hbytes]

/-- ERASE at the page's address clears the page (R75, R181). -/
theorem OnPage.erase (hexec : exec (.erase a) s = .next t) : OnPage a buf.length t ∧
    t.target.mem.slice a.toNat buf.length = List.replicate buf.length 0xFF := by
  obtain ⟨t', hexec', -, -, -, -, -, -, -, -, hframe, hcontract⟩ :=
    eraseClearsExactlyItsPage _ a s (.inl rfl) (admissible_of_next hexec)
  obtain rfl : t' = t := Host.Outcome.next.inj (hexec'.symm.trans hexec)
  have hpos := h.admitted.nonempty
  have hfits := h.inFlash
  obtain ⟨-, htarget, hcleared, -⟩ := hcontract h.contract (.inl (by omega))
  refine ⟨h.of_exec hexec (wireFrame_session hframe) (by rw [htarget]), slice_eq_replicate fun x hlo hhi => ?_⟩
  rw [hcleared (by omega) x, if_pos]
  rw [h.aligned, ← h.whole]
  exact ⟨hlo, hhi⟩

/-- WRITE ANDs the buffer into the page's bytes (R74, R186). -/
theorem OnPage.write (hexec : exec (.write a buf) s = .next t) : OnPage a buf.length t ∧
    t.target.mem.slice a.toNat buf.length = List.zipWith (· &&& ·) (s.target.mem.slice a.toNat buf.length) buf := by
  obtain ⟨t', hexec', -, -, -, -, -, -, -, -, hframe, hcontract⟩ := writeAndsTheBufferIn _ a buf s (.inl rfl) h.admitted
  obtain rfl : t' = t := Host.Outcome.next.inj (hexec'.symm.trans hexec)
  obtain ⟨-, htarget, hwf', hread⟩ := hcontract h.contract h.wf h.covers
  exact ⟨h.of_exec hexec (wireFrame_session hframe) (by rw [htarget]), andedIn_slice ⟨hwf', hread⟩⟩

/-- VERIFY answers true where the page holds the buffer (R241). -/
theorem OnPage.verify (hpage : s.target.mem.slice a.toNat buf.length = buf) :
    ∃ v, exec (.verify a buf) s = .next v ∧ v.result = some (.bool true) := by
  obtain ⟨cur, u, hread, hlen, hbytes, -, -, -, -, -, -, -, -, hcontract⟩ :=
    readReturnsTheBurst (.read a buf.length) a buf.length s (.inl rfl) h.admitted
  obtain ⟨rfl, -, -⟩ := hcontract h.contract h.covers
  exact ⟨_, verifyAt_of_read hread hbytes, congrArg (some ∘ Value.bool) ((equal_compareBytes_iff hlen).2 hpage)⟩

end OnPage

/-- Settles O58: each operation leaves the loop on its page, and on the page's bytes the flags drive the loop to the buffer. -/
theorem decisionLoopReachesTheDesiredPage : Obligations.DecisionLoopReachesTheDesiredPage := by
  unfold Obligations.DecisionLoopReachesTheDesiredPage
  intro a buf s t e w hc hwf _ hwhole haligned hflash hadm hcompare herase hwrite
  obtain ⟨ht, hmem, hcmp⟩ := OnPage.compare ⟨hc, hwf, hwhole, haligned, hflash, hadm⟩ hcompare
  have hlen : (s.target.mem.slice a.toNat buf.length).length = buf.length := by simp [Memory.slice]
  obtain ⟨he, herased⟩ : OnPage a buf.length e ∧
      e.target.mem.slice a.toNat buf.length = erasedIfNeeded t.cmp (s.target.mem.slice a.toNat buf.length) := by
    unfold erasedIfNeeded
    split at herase
    · rw [if_pos ‹_›, hlen]
      exact ht.erase herase
    · subst herase
      rw [if_neg ‹_›, hmem]
      exact ⟨ht, rfl⟩
  obtain ⟨hw, hwritten⟩ : OnPage a buf.length w ∧
      w.target.mem.slice a.toNat buf.length = writtenIfNeeded t.cmp (e.target.mem.slice a.toNat buf.length) buf := by
    unfold writtenIfNeeded
    split at hwrite
    · rw [if_pos ‹_›]
      exact he.write hwrite
    · subst hwrite
      rw [if_neg ‹_›]
      exact ⟨he, rfl⟩
  have hreached : w.target.mem.slice a.toNat buf.length = buf := by
    rw [hwritten, herased, hcmp]
    exact writtenIfNeeded_erasedIfNeeded hlen
  exact ⟨hreached, hw.verify hreached⟩

end Sys2Proof.Machine
end

section
/-! PROOFS. The wrappers in their own right (44_wrappers.md): the length check of a Config buffer (R230), VERIFY as COMPARE reduced to
equality (R241), and FLASH_ERASE's walk over the pages of its range (R236). -/

namespace Sys2Proof.Machine

open Sys2Proof.Laws

/-! ### Config requests -/

/-- With valid parameters the Config block is in reach of every session (R230, R287). -/
theorem configAddress_admissible {s : State} (hv : s.cfg.valid = true) (hsess : s.sess = .entered) {n : Nat} (hpos : 0 < n)
    (hn : n ≤ 5) : Admissible (configAddress s.cfg).toNat n s := by
  rw [configAddress_toNat]
  exact admission_eq_none.1 (admission_config hv hsess hpos hn)

/-- A Config buffer of another length than 5 is refused, whatever stands behind the length check (R230, R287). -/
theorem configGuard_badLength {buf : List Byte} {s : State} (hsess : s.sess = .entered) (hlen : buf.length ≠ 5) (run : Res) :
    guarded (admitConfigBuffer buf s) run = .refused .badConfigLength := by
  rw [admitConfigBuffer, if_neg (not_not.2 hsess), if_pos (show buf.length ≠ configLen from hlen), guarded_some]

/-- Settles O39: the length check stands in front of the three requests with a buffer; behind it, and for the two requests without
one, only the admission of the block itself is left. -/
theorem configRequestsAreAdmittedByLength : Obligations.ConfigRequestsAreAdmittedByLength := by
  unfold Obligations.ConfigRequestsAreAdmittedByLength
  refine ⟨fun buf i s hsess hlen hi => ?refused, fun buf i s hsess hv hlen hi => ?completed⟩
  all_goals simp only [List.mem_cons, List.not_mem_nil, or_false] at hi
  case refused => rcases hi with rfl | rfl | rfl <;> exact configGuard_badLength hsess hlen _
  case completed =>
    have hbuf : Admissible (configAddress s.cfg).toNat buf.length s :=
      configAddress_admissible hv hsess (by omega) (by omega)
    rcases hi with rfl | rfl | rfl | rfl | rfl
    · exact ⟨_, eraseAt_next (configAddress_admissible hv hsess (by decide) (by decide))⟩
    · exact ⟨_, readAt_next (configAddress_admissible hv hsess (by decide) (by decide))⟩
    · exact ⟨_, (configGuard_eq hlen s _ _).trans (writeAt_next hbuf)⟩
    · exact ⟨_, (configGuard_eq hlen s _ _).trans (compareAt_next hbuf)⟩
    · exact ⟨_, (configGuard_eq hlen s _ _).trans (verifyAt_next hbuf)⟩

/-! ### VERIFY -/

/-- VERIFY and its wrappers are one operation, whatever name it runs under; a Config buffer of five bytes passes the length check
of R230 (R235, R240, R241). -/
theorem exec_eq_verifyAt {i : Instr} {a : Word32} {buf : List Byte} {s : State}
    (hi : i = .verify a buf ∨ i = .flashVerify a buf ∨
      (i = .configVerify buf ∧ a = configAddress s.cfg ∧ buf.length = 5)) :
    exec i s = verifyAt i a buf s := by
  rcases hi with rfl | rfl | ⟨rfl, rfl, hlen⟩
  · rfl
  · rfl
  · exact configGuard_eq hlen s _ _

/-- Settles O51: VERIFY after the COMPARE and the READ of O50, whose flags are EQUAL exactly when the bytes are the buffer's. -/
theorem verifyIsEqualityOfTheRange : Obligations.VerifyIsEqualityOfTheRange := by
  unfold Obligations.VerifyIsEqualityOfTheRange
  intro i a buf s hi hadm
  obtain ⟨cur, u, v, hcompare, hread, hbytes, hlen, rfl, -, -, hcontract⟩ :=
    compareFlagsTheRange (.compare a buf) a buf s (.inl rfl) hadm
  rw [exec_eq_verifyAt hi]
  refine ⟨cur, _, _, v, verifyAt_of_read hread hbytes, hcompare, hread, hbytes, rfl, rfl, ?answer,
    fun hc hcov => (hcontract hc hcov).1⟩
  case answer => rw [Option.some_inj, Value.bool.injEq, equal_compareBytes_iff hlen]

/-! ### FLASH_ERASE -/

/-- Every address of an admitted FLASH_ERASE fits the parameter field (R91, R285). -/
theorem eraseAddresses_lt {p a n : Nat} {s : State} (hp : 0 < p) (hadm : Admissible a n s) :
    ∀ e ∈ eraseAddresses p a n, e < 262144 := fun _ he =>
  (eraseAddresses_mem hp hadm.nonempty he).2.trans_le hadm.fits

/-- FLASH_ERASE's steps in every state: the registers and lines are left by the last page erase, and it never touches `REM` or
`RXSR` (R180, R236). -/
theorem flashEraseScript_shape {a : Word32} {n : Nat} {s t : State} (hadm : Admissible a.toNat n s)
    (h : (runSteps (flashEraseScript s.cfg s.did a n) s).2 = t) :
    (∀ e, (eraseAddresses (pageSizeOf s.did) a.toNat n).getLast? = some e →
      t.addr = BitVec.ofNat 18 e ∧ t.txsr = commandWord s.cfg.opPageErase (BitVec.ofNat 18 e)) ∧
    t.rem = s.rem ∧ t.rxsr = s.rxsr ∧ t.bitcnt = 0 ∧
    t.lines = { s.lines with dat := Level.ofBit (s.cfg.opPageErase.getLsbD 0), clk := .low } := by
  obtain ⟨addr, txsr, bitcnt, lines, pins, draws, target, hsteps, -, hlast⟩ :=
    eraseEach_shape s.cfg _ _ s (slicesOf_length s.cfg .pageErase n _)
      (eraseAddresses_lt (pageSizeOf_pos s.did) hadm)
  rw [flashEraseScript, hsteps] at h
  subst h
  obtain ⟨-, -, hbitcnt, hlines⟩ := hlast _ List.getLast?_cons
  refine ⟨fun e he => ?_, rfl, rfl, hbitcnt, hlines⟩
  obtain ⟨haddr, htxsr, -⟩ := hlast e he
  exact ⟨haddr, htxsr⟩

/-- Settles O52: the addresses are those of `eraseAddresses` and the settles those of `slicesOf`; each page erase adds its own
frames. -/
theorem flashEraseStepsThroughThePages : Obligations.FlashEraseStepsThroughThePages := by
  unfold Obligations.FlashEraseStepsThroughThePages
  intro a n s hadm
  have hpage := pageSizeOf_pos s.did
  have hnext : exec (.flashErase a n) s = _ := execFlashErase_next hadm
  obtain ⟨hlast, hrem, hrxsr, hbitcnt, hlines⟩ := flashEraseScript_shape hadm rfl
  exact ⟨eraseAddresses (pageSizeOf s.did) a.toNat n, slicesOf s.cfg .pageErase n _, _, hnext, rfl,
    eraseAddresses_length hpage hadm.nonempty, slicesOf_length _ _ _ _, rfl, fun _ _ he => (eraseAddresses_get he).1,
    fun _ he => eraseAddresses_mem hpage hadm.nonempty he, flashErase_wire hadm, sliceFrom_le _ _ _ _ _, hlast, hrem, hrxsr,
    hbitcnt, hlines, (runSteps_quiet _ s).wireFrame _⟩

end Sys2Proof.Machine
end

section
/-! PROOFS. The config-byte codec (45_config_codec.md): each function over its whole domain (R260, R261, R263, R264) and the two round
trips (R262, R265). -/

namespace Sys2Proof.Machine

open Sys2Proof.Laws

/-! ### The code-bank-switch flag -/

/-- The encodings of the two flags differ in the bit that CBS reads, whichever of them the parameters take for `true` (R262). -/
theorem cbsOf_config0Of (c : Config) (flag : Bool) : cbsOf c (config0Of c flag) = flag := by
  cases flag <;> simp [cbsOf, config0Of]

/-! ### The loader size -/

theorem kibRoundedUp_le_seven {n : Nat} (hn : n < 7168) : kibRoundedUp n ≤ 7 := by
  rw [kibRoundedUp]
  omega

/-- No borrow leaves the byte, since at most 7 is taken from `0xFF`: CONFIG1's byte is a subtraction of naturals (R263). -/
theorem config1Of_eq {n : Nat} (hn : n < 7168) : config1Of n = BitVec.ofNat 8 (255 - kibRoundedUp n) := by
  have hk := kibRoundedUp_le_seven hn
  exact BitVec.ofNat_sub_ofNat_of_le 255 (kibRoundedUp n) (by omega) (by omega)

/-- LDSIZE's mask is the remainder modulo 8 (R264). -/
theorem ldsizeOf_eq (b : Byte) : ldsizeOf b = 7 - b.toNat % 8 := by
  have hmask : b.toNat &&& 7 = b.toNat % 8 := Nat.and_two_pow_sub_one_eq_mod b.toNat 3
  rw [ldsizeOf, BitVec.toNat_and]
  exact congrArg (7 - ·) hmask

/-- With `k ≤ 7` the low three bits of `0xFF - k` are `7 - k` (R265). -/
theorem ldsizeOf_config1Of {n : Nat} (hn : n < 7168) : ldsizeOf (config1Of n) = kibRoundedUp n := by
  have hk := kibRoundedUp_le_seven hn
  rw [ldsizeOf_eq, config1Of_eq hn, BitVec.toNat_ofNat]
  omega

/-! ### CONFIG1 as an instruction -/

/-- Below 7 KiB CONFIG1 answers (R263). -/
theorem execConfig1_of_lt {n : Nat} (hn : n < 7168) (s : State) : execConfig1 n s = reply (.byte (config1Of n)) s := by
  rw [execConfig1, if_neg (show ¬ config1Limit ≤ n from Nat.not_le.2 hn), guarded_none]

/-- From 7 KiB on CONFIG1 is refused (R263). -/
theorem execConfig1_of_le {n : Nat} (hn : 7168 ≤ n) (s : State) : execConfig1 n s = .refused .badCodecArgument := by
  rw [execConfig1, if_pos (show config1Limit ≤ n from hn), guarded_some]

/-! ### The obligations -/

/-- Settles O16: each function replies its formula, and CONFIG1's guard refuses exactly from 7 KiB on. -/
theorem codecFunctionsAnswer : Obligations.CodecFunctionsAnswer := by
  unfold Obligations.CodecFunctionsAnswer
  refine fun s => ⟨rfl, rfl, fun b => rfl, fun n hn => ?answers, fun n hn => execConfig1_of_le hn s, fun b => ?size⟩
  case answers =>
    rw [← kibRoundedUp, ← config1Of_eq hn]
    exact execConfig1_of_lt hn s
  case size =>
    rw [← ldsizeOf_eq]
    rfl

/-- Settles O17: CBS after CONFIG0 by the flag's two encodings, LDSIZE after CONFIG1 by the low three bits. -/
theorem codecRoundTrips : Obligations.CodecRoundTrips := by
  unfold Obligations.CodecRoundTrips
  exact ⟨cbsOf_config0Of, fun _ => ldsizeOf_config1Of⟩

end Sys2Proof.Machine
end

section
/-! PROOFS. Refusals (60_exceptions.md R283 to R289): every operation is one reply behind one check, so what an operation is refused
for is what its check answers; the checks of `admission` in their order. -/

namespace Sys2Proof.Machine

open Sys2Proof.Laws

/-! ### The checks -/

/-- The session is checked first (R283, R289). -/
theorem admission_of_disconnected {s : State} (hsess : s.sess = .disconnected) (a n : Nat) :
    admission a n s = some .notEntered :=
  if_pos (by rw [hsess]; decide)

/-- The length is checked second (R284, R289). -/
theorem admission_of_empty {s : State} (hsess : s.sess = .entered) (a : Nat) : admission a 0 s = some .emptyRequest := by
  rw [admission, if_neg (not_not.2 hsess), if_pos rfl]

/-- The address field is checked third (R285, R289). -/
theorem admission_of_not_encodable {a n : Nat} {s : State} (hsess : s.sess = .entered) (hpos : 0 < n)
    (henc : ¬ encodable a n = true) : admission a n s = some .unencodable := by
  rw [admission, if_neg (not_not.2 hsess), if_neg hpos.ne', if_pos (by simpa using henc)]

/-- The regions are checked last (R285, R289). -/
theorem admission_of_outside {a n : Nat} {s : State} (hsess : s.sess = .entered) (hpos : 0 < n) (henc : encodable a n = true)
    (hflash : ¬ inFlash s.cfg s.did a n = true) (hconfig : ¬ inConfig s.cfg a n = true) :
    admission a n s = some .outOfRegion := by
  rw [admission, if_neg (not_not.2 hsess), if_neg hpos.ne', henc, Bool.eq_false_of_not_eq_true hflash,
    Bool.eq_false_of_not_eq_true hconfig]
  rfl

/-- With valid parameters a request inside the Config block can lack only a session (R287). -/
theorem admission_config_eq_some {s : State} (hv : s.cfg.valid = true) {n : Nat} (hpos : 0 < n) (hn : n ≤ 5) {why : Refusal} :
    admission (configAddress s.cfg).toNat n s = some why ↔ why = .notEntered ∧ s.sess = .disconnected := by
  rw [configAddress_toNat]
  cases hsess : s.sess with
  | disconnected => simp [admission_of_disconnected hsess, eq_comm]
  | entered => simp [admission_config hv hsess hpos hn]

/-- The session is checked before the length of a Config buffer (R230, R289). -/
theorem admitConfigBuffer_of_disconnected {s : State} (hsess : s.sess = .disconnected) (buf : List Byte) :
    admitConfigBuffer buf s = some .notEntered :=
  if_pos (by rw [hsess]; decide)

/-- Inside a session the length of a Config buffer is checked before anything else (R230, R289). -/
theorem admitConfigBuffer_of_length {s : State} (hsess : s.sess = .entered) {buf : List Byte} (hlen : buf.length ≠ 5) :
    admitConfigBuffer buf s = some .badConfigLength := by
  rw [admitConfigBuffer, if_neg (not_not.2 hsess), if_pos (show buf.length ≠ configLen from hlen)]

/-- The checks of a Config request with a buffer: its own, then the admission of its expansion (R230, R233 to R235). -/
def checkConfigBuffer (buf : List Byte) (s : State) : Option Refusal :=
  (admitConfigBuffer buf s).or (admission (configAddress s.cfg).toNat buf.length s)

theorem checkConfigBuffer_eq_some {s : State} (hv : s.cfg.valid = true) {buf : List Byte} {why : Refusal} :
    checkConfigBuffer buf s = some why ↔
      why = .notEntered ∧ s.sess = .disconnected ∨ why = .badConfigLength ∧ s.sess = .entered ∧ buf.length ≠ 5 := by
  rw [checkConfigBuffer]
  cases hsess : s.sess with
  | disconnected => simp [admitConfigBuffer_of_disconnected hsess, eq_comm]
  | entered =>
    by_cases hlen : buf.length = 5
    · rw [admitConfigBuffer_eq_none hv hsess hlen, Option.none_or, admission_config_eq_some hv (by omega) hlen.le]
      simp [hsess, hlen]
    · simp [admitConfigBuffer_of_length hsess hlen, hlen, eq_comm]

/-- CONFIG1's check of its argument (R263, R287). -/
def checkCodec (n : Nat) : Option Refusal := if config1Limit ≤ n then some .badCodecArgument else none

theorem checkCodec_eq_some {n : Nat} {why : Refusal} : checkCodec n = some why ↔ why = .badCodecArgument ∧ 7168 ≤ n := by
  rw [checkCodec, Option.ite_none_right_eq_some, and_comm, Option.some_inj, eq_comm]
  rfl

/-! ### Every operation is a reply behind its check -/

/-- The check in front of an operation, `none` where it passes or where the operation has none (R288). -/
def checkOf (i : Instr) (s : State) : Option Refusal :=
  match i with
  | .locked | .massErase => admitSession s
  | .deviceId | .pageSize | .flashSize => admitIdentity s
  | .configErase => admission (configAddress s.cfg).toNat 1 s
  | .configRead => admission (configAddress s.cfg).toNat configLen s
  | .configWrite buf | .configCompare buf | .configVerify buf => checkConfigBuffer buf s
  | .erase a => admission a.toNat 1 s
  | .flashErase a n | .flashRead a n | .read a n => admission a.toNat n s
  | .flashWrite a buf | .flashCompare a buf | .flashVerify a buf | .write a buf | .compare a buf | .verify a buf =>
    admission a.toNat buf.length s
  | .config1 n => checkCodec n
  | _ => none

/-- A check behind a check is one check, the outer one first (R289). -/
theorem guarded_guarded (r r' : Option Refusal) (run : Res) : guarded r (guarded r' run) = guarded (r.or r') run := by
  cases r <;> rfl

/-- What an operation does is a reply, behind its check (R10, R288). -/
theorem exec_eq_guarded (i : Instr) (s : State) : ∃ v t, exec i s = guarded (checkOf i s) (reply v t) := by
  cases i with
  | configWrite | configCompare | configVerify => exact ⟨_, _, guarded_guarded _ _ _⟩
  | _ => exact ⟨_, _, rfl⟩

/-- An operation is refused for what its check answers, and for nothing else (R288). -/
theorem exec_eq_refused_iff {i : Instr} {s : State} {why : Refusal} : exec i s = .refused why ↔ checkOf i s = some why := by
  obtain ⟨v, t, hexec⟩ := exec_eq_guarded i s
  rw [hexec, guarded_eq_refused, reply_ne_refused, and_false, or_false]

/-- No operation faults (R280). -/
theorem exec_next_or_refused (i : Instr) (s : State) : (∃ t, exec i s = .next t) ∨ ∃ why, exec i s = .refused why := by
  obtain ⟨v, t, hexec⟩ := exec_eq_guarded i s
  rw [hexec]
  cases checkOf i s with
  | none => exact .inl ⟨_, rfl⟩
  | some why => exact .inr ⟨why, rfl⟩

/-! ### The obligations -/

/-- Settles O40: an operation is refused for what its check answers; row by row, when the check answers it. -/
theorem refusalTable : Obligations.RefusalTable := by
  unfold Obligations.RefusalTable
  refine fun i s => ⟨exec_next_or_refused i s, fun why => ?_⟩
  have hrow : exec i s = .refused why ↔ checkOf i s = some why := exec_eq_refused_iff
  cases i with
  | locked | massErase => exact hrow.trans admitSession_eq_some
  | deviceId | pageSize | flashSize => exact hrow.trans admitIdentity_eq_some
  | configErase => exact fun hv => hrow.trans (admission_config_eq_some hv (by decide) (by decide))
  | configRead => exact fun hv => hrow.trans (admission_config_eq_some hv (by decide) (by decide))
  | configWrite | configCompare | configVerify => exact fun hv => hrow.trans (checkConfigBuffer_eq_some hv)
  | flashErase | flashRead | flashWrite | flashCompare | flashVerify | erase | read | write | compare | verify => exact hrow
  | config1 => exact hrow.trans checkCodec_eq_some
  | _ => exact hrow.not.2 (Option.some_ne_none why).symm

/-- Settles O37: one clause per check, each with the earlier checks passed. -/
theorem admissionChecksInOrder : Obligations.AdmissionChecksInOrder := by
  unfold Obligations.AdmissionChecksInOrder
  refine fun a n s => ⟨fun hsess => admission_of_disconnected hsess a n, ?empty, ?unencodable, ?outside, admission_eq_none⟩
  case empty =>
    rintro hsess rfl
    exact admission_of_empty hsess a
  case unencodable =>
    refine fun hsess hpos hfield => admission_of_not_encodable hsess hpos ?_
    rw [encodable_iff]
    omega
  case outside =>
    refine fun hsess hpos haddr hfits hflash hconfig =>
      admission_of_outside hsess hpos (encodable_iff.2 ⟨haddr, hfits⟩) ?_ ?_
    · rw [inFlash_iff]
      omega
    · rw [inConfig_iff]
      omega

/-- Settles O38: each check of these operations begins with the session. -/
theorem memoryOperationsNeedASession : Obligations.MemoryOperationsNeedASession := by
  unfold Obligations.MemoryOperationsNeedASession
  intro a n buf i s hsess hi
  have hsession : admitSession s = some .notEntered := admitSession_eq_some.2 ⟨rfl, hsess⟩
  have hbuffer : checkConfigBuffer buf s = some .notEntered := by
    rw [checkConfigBuffer, admitConfigBuffer_of_disconnected hsess, Option.some_or]
  have hrange := admission_of_disconnected hsess
  rw [exec_eq_refused_iff]
  simp only [List.mem_cons, List.not_mem_nil, or_false] at hi
  rcases hi with rfl | rfl | rfl | rfl | rfl | rfl | rfl | rfl | rfl | rfl | rfl | rfl | rfl | rfl | rfl | rfl | rfl <;>
    simp only [checkOf, hsession, hbuffer, hrange]

end Sys2Proof.Machine
end

section
/-! PROOFS. The totals of the delay labels (70_reset_and_hazards.md R331): what each frame event spends, and what the frame trace of
each operation spends. -/

namespace Sys2Proof.Machine

open Sys2Proof.Laws

/-! ### What the frame events spend -/

/-- The total of the delay labels in the expansion of a frame event (R152 to R160). -/
def WireEvent.delays : WireEvent → Nat
  | .resetPulse lit t => lit.length * t.total
  | .tx24 _ t => 24 * t.total
  | .rx9 _ _ t => 9 * t.total
  | .tx9 _ _ tb tt => 8 * tb.total + tt.total
  | .settle t => t.total
  | .drive => 0
  | .lockQuery => 0
  | .release => 0

theorem delaySum_bitOut (t : Profile) (b : Bool) : delaySum (bitOutPins t b) = t.total := by
  simpa using delaySum_bitsOut t [b]

theorem delaySum_set (line : Line) (level : Level) (evs : List PinEvent) :
    delaySum (.set line level :: evs) = delaySum evs := Nat.zero_add _

theorem delaySum_resetBits (t : Profile) (lit : List Bool) : delaySum (lit.flatMap (resetBitPins t)) = lit.length * t.total := by
  induction lit with
  | nil => simp [delaySum]
  | cons b lit ih =>
    have hbit : delaySum (resetBitPins t b) = t.total := by simp [delaySum, resetBitPins, PinEvent.us, Profile.total]
    rw [List.flatMap_cons, delaySum_append, ih, hbit, List.length_cons, Nat.succ_mul, Nat.add_comm]

theorem delaySum_pins (e : WireEvent) : delaySum e.pins = e.delays := by
  cases e with
  | resetPulse lit t => exact delaySum_resetBits t lit
  | tx24 w t => rw [WireEvent.pins, delaySum_bitsOut, bitsMsb_length]; rfl
  | rx9 d last t =>
    rw [WireEvent.pins, delaySum_set, delaySum_append, delaySum_append, delaySum_bitsIn, bitsMsb_length, delaySum_bitOut,
      delaySum_set, WireEvent.delays, Nat.succ_mul 8]
    rfl
  | tx9 d last tb tt =>
    rw [WireEvent.pins, delaySum_append, delaySum_append, delaySum_bitsOut, bitsMsb_length, delaySum_bitOut, delaySum_set]
    rfl
  | settle t => simp [WireEvent.pins, tiktokPins, delaySum, PinEvent.us, WireEvent.delays, Profile.total]
  | drive | lockQuery | release => rfl

/-- The total of the delay labels in the expansion of a frame trace. -/
def frameDelays (evs : List WireEvent) : Nat := delaySum (evs.flatMap WireEvent.pins)

@[simp] theorem frameDelays_nil : frameDelays [] = 0 := rfl

@[simp] theorem frameDelays_cons (e : WireEvent) (evs : List WireEvent) :
    frameDelays (e :: evs) = e.delays + frameDelays evs := by
  rw [frameDelays, List.flatMap_cons, delaySum_append, delaySum_pins, frameDelays]

theorem frameDelays_append (evs evs' : List WireEvent) : frameDelays (evs ++ evs') = frameDelays evs + frameDelays evs' := by
  rw [frameDelays, List.flatMap_append, delaySum_append, frameDelays, frameDelays]

/-! ### What the traces of the operations spend -/

theorem frameDelays_responseTrace (t : Profile) (out : List Byte) :
    frameDelays (responseTrace t out) = 9 * out.length * t.total := by
  induction out with
  | nil => simp [responseTrace]
  | cons d out ih =>
    rw [responseTrace, frameDelays_cons, ih, WireEvent.delays, List.length_cons]
    ring

theorem frameDelays_payloadTrace (tb tt : Profile) (buf : List Byte) :
    frameDelays (payloadTrace tb buf (List.replicate buf.length tt)) = buf.length * (8 * tb.total + tt.total) := by
  induction buf with
  | nil => simp [payloadTrace]
  | cons d buf ih =>
    rw [List.length_cons, List.replicate_succ, payloadTrace, frameDelays_cons, ih, WireEvent.delays]
    ring

theorem frameDelays_perByteTrace (c : Config) (tt : Profile) (buf : List Byte) : ∀ a : Nat,
    frameDelays (perByteTrace c a buf (List.replicate buf.length tt)) =
      buf.length * (24 * c.tRead.total + 8 * c.tRead.total + tt.total) := by
  induction buf with
  | nil => simp [perByteTrace]
  | cons d buf ih =>
    intro a
    rw [List.length_cons, List.replicate_succ, perByteTrace, frameDelays_cons, frameDelays_cons, ih, WireEvent.delays,
      WireEvent.delays]
    ring

theorem frameDelays_eraseTrace (c : Config) (a : Nat) (t : Profile) :
    frameDelays (eraseTrace c a t) = 24 * c.tRead.total + t.total := by
  simp [eraseTrace, WireEvent.delays]

theorem frameDelays_eraseTraces (c : Config) (t : Profile) (addrs : List Nat) :
    frameDelays ((addrs.zip (List.replicate addrs.length t)).flatMap fun e => eraseTrace c e.1 e.2) =
      addrs.length * (24 * c.tRead.total + t.total) := by
  induction addrs with
  | nil => simp
  | cons a addrs ih =>
    rw [List.length_cons, List.replicate_succ, List.zip_cons_cons, List.flatMap_cons, frameDelays_append, ih,
      frameDelays_eraseTrace, Nat.succ_mul addrs.length, Nat.add_comm]

/-! ### Increments that nothing shortens -/

theorem sliceBounded_self {profile : Profile} {budget : Nat} (h : profile.total ≤ budget) :
    sliceBounded profile profile budget = profile := by
  obtain ⟨setup, hold⟩ := profile
  simp only [Profile.total] at h
  simp only [sliceBounded, Profile.mk.injEq]
  omega

theorem sliceFrom_eq_replicate (profile : Profile) (count k : Nat) : ∀ budget, count * profile.total ≤ budget →
    sliceFrom profile (fun _ => profile) count k budget = List.replicate count profile := by
  induction count generalizing k with
  | zero => exact fun _ _ => rfl
  | succ count ih =>
    intro budget h
    rw [Nat.succ_mul] at h
    rw [sliceFrom, sliceBounded_self (by omega), ih _ _ (by omega), List.replicate_succ]

/-- Where the parameters name no slice and the class profiles together are within the cap, every increment is the class
profile (R163, D24). -/
theorem slicesOf_eq_replicate {c : Config} (hslices : c.slices = []) {cls : CapClass} {n count : Nat}
    (hcap : count * (capProfile c cls).total ≤ (capOf c cls).at n) :
    slicesOf c cls n count = List.replicate count (capProfile c cls) := by
  have hwanted : sliceWanted c cls n = fun _ => capProfile c cls := by
    funext k
    rw [sliceWanted, hslices, List.find?_nil]
  rw [slicesOf, hwanted, sliceFrom_eq_replicate _ _ _ _ hcap]

/-- What a WRITE spends in either mode, where nothing is shortened (R331). -/
theorem frameDelays_programTrace {c : Config} (hslices : c.slices = []) (a : Nat) {buf : List Byte}
    (hcap : buf.length * c.tProgram.total ≤ c.capProgram.at buf.length) : frameDelays (programTrace c a buf) =
      if c.writeMode = .burst then 24 * c.tRead.total + buf.length * (8 * c.tRead.total + c.tProgram.total)
      else buf.length * (24 * c.tRead.total + 8 * c.tRead.total + c.tProgram.total) := by
  have hincrements : slicesOf c .program buf.length buf.length = List.replicate buf.length c.tProgram :=
    slicesOf_eq_replicate hslices hcap
  rw [programTrace, hincrements]
  cases c.writeMode with
  | burst => rw [frameDelays_cons, frameDelays_payloadTrace, if_pos rfl, WireEvent.delays]
  | perByte => rw [frameDelays_perByteTrace, if_neg (by decide)]

/-! ### The rows of R331 -/

/-- The pin events added have delay labels of this total (R331). -/
def AddsDelay (s t : State) (total : Nat) : Prop := ∃ ps, t.pins = s.pins ++ ps ∧ delaySum ps = total

/-- The frame events added fix the total: the pin events added are their expansion (R150). -/
theorem Expands.addsDelay {s t : State} (h : Expands s t) {evs : List WireEvent} (hwire : t.wire = s.wire ++ evs) {total : Nat}
    (htotal : frameDelays evs = total) : AddsDelay s t total := by
  obtain ⟨evs', hwire', hpins, -⟩ := h
  obtain rfl : evs = evs' := List.append_cancel_left (hwire.symm.trans hwire')
  exact ⟨_, hpins, htotal⟩

/-- The frame trace of an operation made of whole frames fixes its row. -/
theorem addsDelay_of_wire {i : Instr} {s t t' : State} (h : exec i s = .next t) (h' : exec i s = .next t')
    {evs : List WireEvent} (hwire : t'.wire = s.wire ++ evs) {total : Nat} (htotal : frameDelays evs = total)
    (hlocked : i ≠ .locked := by nofun) (htiktok : ∀ setup hold, i ≠ .tiktok setup hold := by nofun)
    (hbitin : ∀ p, i ≠ .bitin p := by nofun) : AddsDelay s t total := by
  obtain rfl : t' = t := Host.Outcome.next.inj (h'.symm.trans h)
  exact (exec_expands hlocked htiktok hbitin s t' h).addsDelay hwire htotal

section Rows

variable {s t : State}

theorem enter_delays (h : exec .enter s = .next t) : AddsDelay s t (s.cfg.resetLiteral.length * s.cfg.tReset.total +
    24 * s.cfg.tMode.total + 2 * 24 * s.cfg.tRead.total + 3 * 9 * s.cfg.tRead.total) := by
  obtain ⟨c, b0, b1, t', h', hwire, -⟩ := enterRunsTheHandshake s
  refine addsDelay_of_wire h h' hwire ?_
  simp only [frameDelays_cons, frameDelays_nil, WireEvent.delays]
  ring

theorem exit_delays (h : exec .exit s = .next t) : AddsDelay s t (24 * s.cfg.tMode.total) := by
  obtain ⟨t', h', hwire, -⟩ := exitReleasesTheLines s
  rw [List.append_assoc] at hwire
  refine addsDelay_of_wire h h' hwire ?_
  split <;> simp [WireEvent.delays]

theorem erase_delays {a : Word32} (h : exec (.erase a) s = .next t) :
    AddsDelay s t (24 * s.cfg.tRead.total + s.cfg.tPageErase.total) := by
  obtain ⟨t', h', -, hwire, -⟩ := eraseClearsExactlyItsPage _ a s (.inl rfl) (admissible_of_next h)
  exact addsDelay_of_wire h h' hwire (frameDelays_eraseTrace _ _ _)

theorem massErase_delays (h : exec .massErase s = .next t) :
    AddsDelay s t (24 * s.cfg.tRead.total + s.cfg.tMassErase.total) := by
  have hsess : s.sess = .entered := by
    by_contra hsess
    exact absurd (guarded_eq_next.1 h).1 (by simp [admitSession, hsess])
  obtain ⟨t', h', -, hwire, -⟩ := massEraseClearsFlash s hsess
  exact addsDelay_of_wire h h' hwire (by simp [WireEvent.delays])

theorem read_delays {a : Word32} {n : Nat} (h : exec (.read a n) s = .next t) :
    AddsDelay s t (24 * s.cfg.tRead.total + 9 * n * s.cfg.tRead.total) := by
  obtain ⟨out, t', h', hlen, -, hwire, -⟩ := readReturnsTheBurst _ a n s (.inl rfl) (admissible_of_next h)
  refine addsDelay_of_wire h h' hwire ?_
  rw [frameDelays_cons, frameDelays_responseTrace, hlen, WireEvent.delays]

/-- COMPARE spends what its READ spends (R210). -/
theorem compare_delays {a : Word32} {buf : List Byte} (h : exec (.compare a buf) s = .next t) :
    AddsDelay s t (24 * s.cfg.tRead.total + 9 * buf.length * s.cfg.tRead.total) := by
  obtain ⟨cur, t', u, h', hread, -, -, ht, -⟩ := compareFlagsTheRange _ a buf s (.inl rfl) (admissible_of_next h)
  obtain rfl : t' = t := Host.Outcome.next.inj (h'.symm.trans h)
  subst ht
  exact show AddsDelay s u _ from read_delays hread

/-- VERIFY spends what its COMPARE spends (R241). -/
theorem verify_delays {a : Word32} {buf : List Byte} (h : exec (.verify a buf) s = .next t) :
    AddsDelay s t (24 * s.cfg.tRead.total + 9 * buf.length * s.cfg.tRead.total) := by
  obtain ⟨cur, t', u, v, h', hcompare, -, -, ht, -⟩ := verifyIsEqualityOfTheRange _ a buf s (.inl rfl) (admissible_of_next h)
  obtain rfl : t' = t := Host.Outcome.next.inj (h'.symm.trans h)
  subst ht
  exact show AddsDelay s u _ from compare_delays hcompare

theorem write_delays {a : Word32} {buf : List Byte} (hslices : s.cfg.slices = [])
    (hcap : buf.length * s.cfg.tProgram.total ≤ s.cfg.capProgram.at buf.length) (h : exec (.write a buf) s = .next t) :
    AddsDelay s t (if s.cfg.writeMode = .burst then
        24 * s.cfg.tRead.total + buf.length * (8 * s.cfg.tRead.total + s.cfg.tProgram.total)
      else buf.length * (24 * s.cfg.tRead.total + 8 * s.cfg.tRead.total + s.cfg.tProgram.total)) := by
  obtain ⟨t', h', -, hwire, -⟩ := writeAndsTheBufferIn _ a buf s (.inl rfl) (admissible_of_next h)
  exact addsDelay_of_wire h h' hwire (frameDelays_programTrace hslices _ hcap)

theorem flashErase_delays {a : Word32} {n k : Nat} (hslices : s.cfg.slices = [])
    (hk : k = (a.toNat + n - 1) / pageSizeOf s.did - a.toNat / pageSizeOf s.did + 1)
    (hcap : k * s.cfg.tPageErase.total ≤ s.cfg.capPageErase.at n) (h : exec (.flashErase a n) s = .next t) :
    AddsDelay s t (k * (24 * s.cfg.tRead.total + s.cfg.tPageErase.total)) := by
  have hadm : Admissible a.toNat n s := admissible_of_next h
  have hpages : (eraseAddresses (pageSizeOf s.did) a.toNat n).length = k :=
    (eraseAddresses_length (pageSizeOf_pos s.did) hadm.nonempty).trans hk.symm
  have hincrements : slicesOf s.cfg .pageErase n k = List.replicate k s.cfg.tPageErase := slicesOf_eq_replicate hslices hcap
  have hwire := flashErase_wire hadm
  rw [hpages, hincrements, ← hpages] at hwire
  refine addsDelay_of_wire h (execFlashErase_next hadm) hwire ?_
  rw [frameDelays_eraseTraces, hpages]

/-- An operation on the host's side alone is an answer, and adds no event (R288). -/
theorem hostOnly_pins {i : Instr} {o : Byte} {p : Word32} {res : CompareResult} {did : DeviceId} {flag : Bool} {n : Nat}
    (hi : i ∈ [Instr.deviceId, .pageSize, .flashSize, .pack o p, .needErase res, .needWrite res, .equal res, .pageSizeOf did,
      .flashSizeOf did, .config0 flag, .cbs o, .config1 n, .ldsize o]) :
    WhenNext (fun t => t.pins = s.pins) (exec i s) := by
  have hreply (v : Value) : WhenNext (fun t => t.pins = s.pins) (reply v s) := whenNext_reply rfl
  cases i with
  | deviceId | pageSize | flashSize | config1 => exact whenNext_guarded fun _ => hreply _
  | pack | needErase | needWrite | equal | pageSizeOf | flashSizeOf | config0 | cbs | ldsize => exact hreply _
  | _ => simp at hi

end Rows

/-- Settles O34: the frame trace of each operation fixes its pin events, and the delays of its frames add up to its row. -/
theorem delayTotalsOfOperations : Obligations.DelayTotalsOfOperations := by
  unfold Obligations.DelayTotalsOfOperations
  refine fun s t => ⟨enter_delays, exit_delays, fun _ => erase_delays, massErase_delays, fun a n buf h => ?burst,
    fun _ _ hslices hcap => write_delays hslices hcap, fun _ _ _ hslices hk hcap => flashErase_delays hslices hk hcap,
    fun _ _ _ _ _ _ _ hi => hostOnly_pins hi t⟩
  case burst =>
    obtain h | ⟨rfl, h | h⟩ := h
    · exact read_delays h
    · exact compare_delays h
    · exact verify_delays h

end Sys2Proof.Machine
end

section
/-! PROOFS. Disruptions (70_reset_and_hazards.md R320): which operations can be stopped and what their cut leaves of the registers and
of the memory; that the contract then stays off until ENTER (R70 (d), R130). -/

namespace Sys2Proof.Machine

open Sys2Proof.Laws

/-! ### A disrupted step -/

/-- With a disruption pending, the operation on the wire is stopped, and any other runs as it is (R320). -/
theorem step_of_disrupt {s : State} {r : Request} {rest : List Request} {i : Instr} {n : Nat} (hport : s.port = r :: rest)
    (hdec : decode s.cfg r = .ok i) (hdis : s.disrupt = some n) : step s =
      disrupted n i { s with port := rest, disrupt := none } (exec i { s with port := rest, disrupt := none }) := by
  simp only [step, hport, hdec, hdis]

theorem disrupted_of_planOf {i : Instr} {s : State} {p : Plan} (h : planOf i s = some p) (n : Nat) (whole : Res) :
    disrupted n i s whole = .next (stopped i p n s) := by
  simp only [disrupted, h]

theorem disrupted_of_planOf_none {i : Instr} {s : State} (h : planOf i s = none) (n : Nat) (whole : Res) :
    disrupted n i s whole = whole := by
  simp only [disrupted, h]

theorem planIf_eq_some {r : Option Refusal} {p q : Plan} : planIf r p = some q ↔ r = none ∧ p = q := by
  cases r <;> simp [planIf]

/-! ### After a disruption -/

/-- A stopped operation leaves the target in an unknown mode and out of the contract (R320). -/
theorem stopped_stuck (op : Instr) (p : Plan) (n : Nat) (s : State) : Stuck (stopped op p n s).target := ⟨rfl, rfl⟩

/-- ENTER recovers a matching target, whatever it went through before, and keeps its memory (R130, R71). -/
theorem enter_recovers {s : State} (hvalid : s.cfg.valid = true) (hmatched : s.target.matched = true) :
    ∃ u, exec .enter s = .next u ∧ u.sess = .entered ∧ u.target.ready = true ∧ u.target.mem = s.target.mem := by
  have htarget := (enterScript_contract hvalid hmatched).target
  refine ⟨_, execEnter_next s, rfl, ?_⟩
  dsimp only [enterFinish]
  rw [htarget]
  exact ⟨entered_ready hmatched, rfl⟩

/-- Steps that stay inside a session have no reset pulse among them. -/
theorem ne_resetPulse_of_keepsSession {ms : List Micro} (h : ms.all Micro.keepsSession = true) : ∀ m ∈ ms, m ≠ .resetPulse := by
  rintro m hm rfl
  exact absurd (List.all_eq_true.1 h _ hm) Bool.false_ne_true

/-- The target remembers a disruption, with no reset handshake since. -/
def StaysStuck (s : State) : Prop := Stuck s.target

section Stuck

variable {s : State} (h : StaysStuck s)
include h

theorem reply_stuck (v : Value) : WhenNext StaysStuck (reply v s) := whenNext_reply h

theorem reply_run_stuck {m : Micro} (hm : m ≠ .resetPulse) (v : Value) : WhenNext StaysStuck (reply v (m.run s).2) :=
  whenNext_reply (run_stuck hm h)

theorem perform_stuck {ms : List Micro} (hms : ∀ m ∈ ms, m ≠ .resetPulse) (op : Instr) : StaysStuck (perform op ms s).2 := by
  rw [perform_eq]
  exact runSteps_stuck ms s hms h

theorem guarded_perform_stuck {ms : List Micro} (hms : ms.all Micro.keepsSession = true) (r : Option Refusal) (v : Value)
    (op : Instr) : WhenNext StaysStuck (guarded r (reply v (perform op ms s).2)) :=
  whenNext_guarded fun _ => whenNext_reply (perform_stuck h (ne_resetPulse_of_keepsSession hms) op)

theorem compared_stuck (r : Option Refusal) (v : Value) (op : Instr) (a : Word32) (buf : List Byte) :
    WhenNext StaysStuck (guarded r (reply v (compared op a buf s).2)) :=
  whenNext_guarded fun _ =>
    whenNext_reply (perform_stuck h (ne_resetPulse_of_keepsSession (readScript_keepsSession _ a buf.length)) op)

theorem execExit_stuck : WhenNext StaysStuck (execExit s) := by
  refine whenNext_reply (perform_stuck (ms := exitScript s.cfg s.sess) h ?_ .exit)
  cases s.sess <;> simp [exitScript]

/-- No instruction but ENTER and RESETPULSE has a reset pulse among its steps, and nothing else moves a stuck target out of
it (R320). -/
theorem exec_stuck {i : Instr} (henter : i ≠ .enter) (hreset : i ≠ .resetpulse) : WhenNext StaysStuck (exec i s) := by
  cases i with
  | enter => exact absurd rfl henter
  | resetpulse => exact absurd rfl hreset
  | cmdReadCid | cmdReadDid | cmdRead | cmdProgram | cmdPageErase | cmdMassErase =>
    exact reply_run_stuck (m := .command _ (paramArg _) s.cfg.tRead) h nofun _
  | enterWord | exitWord => exact reply_run_stuck (m := .word _ s.cfg.tMode) h nofun _
  | resp9 d last => exact reply_run_stuck (m := .respond d last s.cfg.tRead) h nofun _
  | pay9 d last => exact reply_run_stuck (m := .payload d last s.cfg.tRead s.cfg.tProgram) h nofun _
  | write24 w t => exact reply_run_stuck (m := .word w t) h nofun _
  | write24p o p t => exact reply_run_stuck (m := .word (pack o p) t) h nofun _
  | read9 last t => exact reply_run_stuck (m := .receive last t) h nofun _
  | write9 d last tb tt => exact reply_run_stuck (m := .payload d last tb tt) h nofun _
  | tiktok setup hold => exact reply_run_stuck (m := .pulse setup hold) h nofun _
  | bitin t => exact reply_run_stuck (m := .bitIn t) h nofun _
  | settle t => exact reply_run_stuck (m := .settle t) h nofun _
  | drive => exact reply_run_stuck (m := .drive) h nofun _
  | release => exact reply_run_stuck (m := .release) h nofun _
  | exit => exact execExit_stuck h
  | locked => exact guarded_perform_stuck (ms := lockedScript) h rfl _ _ _
  | massErase => exact guarded_perform_stuck (ms := massEraseScript s.cfg) h rfl _ _ _
  | configErase | erase => exact guarded_perform_stuck (ms := eraseScript s.cfg s.cfg.tPageErase _) h rfl _ _ _
  | flashErase => exact guarded_perform_stuck h (eraseEach_keepsSession _ _ _) _ _ _
  | configRead | flashRead | read => exact guarded_perform_stuck h (readScript_keepsSession _ _ _) _ _ _
  | flashWrite | write => exact guarded_perform_stuck h (writeScript_keepsSession _ _ _) _ _ _
  | configWrite => exact whenNext_guarded fun _ => guarded_perform_stuck h (writeScript_keepsSession _ _ _) _ _ _
  | compare | verify | flashCompare | flashVerify => exact compared_stuck h _ _ _ _ _
  | configCompare | configVerify => exact whenNext_guarded fun _ => compared_stuck h _ _ _ _ _
  | deviceId | pageSize | flashSize | config1 => exact whenNext_guarded fun _ => reply_stuck h _
  | pack | needErase | needWrite | equal | pageSizeOf | flashSizeOf | config0 | cbs | ldsize => exact reply_stuck h _

end Stuck

/-- Settles O60: a stopped operation leaves its target stuck; only a reset pulse moves a stuck target, the pulse alone forgets no
disruption, and ENTER's handshake and word do. -/
theorem enterRecoversFromADisruption : Obligations.EnterRecoversFromADisruption := by
  unfold Obligations.EnterRecoversFromADisruption
  refine ⟨fun s t r rest i steps p hvalid hmatched hport hdec hdis hplan hstep => ?recovered,
    fun j v w henter hreset hbroken hseen h => ?stuck, fun v w hbroken h => ?pulse⟩
  case recovered =>
    rw [step_of_disrupt hport hdec hdis, disrupted_of_planOf hplan] at hstep
    obtain rfl := Host.Outcome.next.inj hstep
    have hstuck := stopped_stuck i p steps { s with port := rest, disrupt := none }
    obtain ⟨hcfg, -, -, -, -, -, -, -, -, ⟨⟨hconst, -⟩, -⟩, hmode⟩ :=
      stopped_keeps i p steps { s with port := rest, disrupt := none }
    exact ⟨hmode, ⟨hstuck.1, hstuck.2, broken_live hstuck.1⟩,
      enter_recovers (by rw [hcfg]; exact hvalid) (hconst.trans hmatched)⟩
  case stuck =>
    obtain ⟨hbroken', hseen'⟩ := exec_stuck (s := v) ⟨hbroken, hseen⟩ henter hreset w h
    exact ⟨hbroken', hseen', broken_live hbroken'⟩
  case pulse =>
    have hnext : exec .resetpulse v = reply .unit (resetPulse v) := rfl
    rw [hnext, reply_eq_next] at h
    subst h
    exact ⟨hbroken, broken_live hbroken⟩

/-! ### What an operation stopped by a disruption could have changed -/

/-- A Config buffer that is admitted has its expansion admitted (R230). -/
theorem admissible_of_admitConfigBuffer {buf : List Byte} {s : State} (h : admitConfigBuffer buf s = none) :
    Admissible (configAddress s.cfg).toNat buf.length s := by
  have hlen : buf.length = configLen := admitConfigBuffer_length h
  unfold admitConfigBuffer at h
  split at h
  · cases h
  · rw [if_neg (not_not.2 hlen)] at h
    rw [configAddress_toNat, hlen]
    exact admission_eq_none.1 h

/-- The operations that program or erase: WRITE, ERASE, MASS_ERASE and their wrappers (R80). -/
def ChangesMemory (i : Instr) : Prop :=
  ∃ a n buf, i ∈ [Instr.write a buf, .flashWrite a buf, .configWrite buf, .erase a, .configErase, .flashErase a n, .massErase]

/-- Such an operation has a plan in every state in which it completes: the plan stands behind the same check. -/
theorem planOf_of_next {i : Instr} {s t : State} (hi : ChangesMemory i) (h : exec i s = .next t) : ∃ p, planOf i s = some p := by
  have hplan {r : Option Refusal} {run : Res} (p : Plan) (hrun : guarded r run = .next t) : planIf r p = some p :=
    planIf_eq_some.2 ⟨(guarded_eq_next.1 hrun).1, rfl⟩
  obtain ⟨a, n, buf, hi⟩ := hi
  cases i with
  | write | flashWrite | configWrite | erase | flashErase | massErase => exact ⟨_, hplan _ h⟩
  | configErase =>
    have hnext : eraseAt .configErase (configAddress s.cfg) s = .next t := h
    rw [eraseAt, configAddress_toNat] at hnext
    exact ⟨_, hplan _ hnext⟩
  | _ => simp at hi

/-- A disrupted step of such an operation, or of any other that is on the wire, stopped it (R320). -/
theorem stopped_of_step {s t : State} {r : Request} {rest : List Request} {i : Instr} {n : Nat} (hport : s.port = r :: rest)
    (hdec : decode s.cfg r = .ok i) (hdis : s.disrupt = some n) (hstep : step s = .next t)
    (hi : ChangesMemory i ∨ ∃ p, planOf i { s with port := rest, disrupt := none } = some p) :
    ∃ p, planOf i { s with port := rest, disrupt := none } = some p ∧
      t = stopped i p n { s with port := rest, disrupt := none } := by
  rw [step_of_disrupt hport hdec hdis] at hstep
  obtain ⟨p, hplan⟩ : ∃ p, planOf i { s with port := rest, disrupt := none } = some p := by
    obtain hi | hplan := hi
    · by_contra hnone
      rw [disrupted_of_planOf_none (Option.eq_none_iff_forall_ne_some.2 fun p hp => hnone ⟨p, hp⟩)] at hstep
      exact hnone (planOf_of_next hi hstep)
    · exact hplan
  rw [disrupted_of_planOf hplan] at hstep
  exact ⟨p, hplan, (Host.Outcome.next.inj hstep).symm⟩

/-- The plan of a WRITE or a wrapper of it (R320, R186). -/
theorem planOf_write {i : Instr} {a : Word32} {buf : List Byte} {s : State} {p : Plan}
    (hi : i = .write a buf ∨ i = .flashWrite a buf ∨ (i = .configWrite buf ∧ a = configAddress s.cfg))
    (h : planOf i s = some p) : Admissible a.toNat buf.length s ∧
      p = ⟨writeScript s.cfg a buf, touchWrite s.cfg s.target a.toNat buf.length⟩ := by
  obtain rfl | rfl | ⟨rfl, rfl⟩ := hi
  all_goals obtain ⟨hadmit, rfl⟩ := planIf_eq_some.1 h
  · exact ⟨admission_eq_none.1 hadmit, rfl⟩
  · exact ⟨admission_eq_none.1 hadmit, rfl⟩
  · exact ⟨admissible_of_admitConfigBuffer hadmit, rfl⟩

/-- The plan of an ERASE, a wrapper of it or a FLASH_ERASE: a run of page erases at addresses of the range (R320, R236). -/
theorem planOf_erase {i : Instr} {a : Word32} {n : Nat} {s : State} {p : Plan}
    (hi : (i = .erase a ∧ n = 1) ∨ (i = .configErase ∧ a = configAddress s.cfg ∧ n = 1) ∨ i = .flashErase a n)
    (h : planOf i s = some p) : Admissible a.toNat n s ∧ ∃ addrs slices,
      p = ⟨eraseEach s.cfg addrs slices, touchErase s.cfg s.target addrs⟩ ∧ ∀ e ∈ addrs, a.toNat ≤ e ∧ e < a.toNat + n := by
  have hone (b : Word32) : ∀ e ∈ [b.toNat], b.toNat ≤ e ∧ e < b.toNat + 1 := by simp
  obtain ⟨rfl, rfl⟩ | ⟨rfl, rfl, rfl⟩ | rfl := hi
  all_goals obtain ⟨hadmit, rfl⟩ := planIf_eq_some.1 h
  · refine ⟨admission_eq_none.1 hadmit, [a.toNat], [s.cfg.tPageErase], ?_, hone a⟩
    rw [← eraseScript_eq_eraseEach]
  · have hadm := admission_eq_none.1 hadmit
    rw [← configAddress_toNat] at hadm
    refine ⟨hadm, [(configAddress s.cfg).toNat], [s.cfg.tPageErase], ?_, hone _⟩
    rw [← eraseScript_eq_eraseEach]
  · have hadm := admission_eq_none.1 hadmit
    exact ⟨hadm, _, _, rfl, fun e he => eraseAddresses_mem (pageSizeOf_pos _) hadm.nonempty he⟩

theorem planOf_massErase {s : State} {p : Plan} (h : planOf .massErase s = some p) :
    p = ⟨massEraseScript s.cfg, touchAll s.cfg s.target⟩ := (planIf_eq_some.1 h).2.symm

/-- A covered range is held (R36). -/
theorem holds_of_covers {c : Config} {t : Target} {a n : Nat} (h : t.covers c a n) : t.holds c a n = true := by
  rw [Target.holds, Bool.or_eq_true, decide_eq_true_iff, inConfig_iff]
  exact h

/-- An address of flash spares every byte outside the target's page that holds it (R75). -/
theorem sparedBy_flash {c : Config} {t : Target} {e x : Nat} (hlt : e < 262144) (hflash : e < t.flash) (hpos : 0 < t.page)
    (hx : x / t.page ≠ e / t.page) : SparedBy c t (· = x) e := by
  refine ⟨hlt, Target.has_of_lt hflash, ?_⟩
  rintro _ rfl
  rw [Target.pageOf, if_pos hflash, Bool.eq_false_iff]
  exact mt (inRange_pageBase hpos).1 hx

/-- An address of the Config region spares every byte outside the block (R75). -/
theorem sparedBy_config {c : Config} {t : Target} {e x : Nat} (hlt : e < 262144) (hflash : t.flash ≤ e) (hlo : c.configBase.toNat ≤ e)
    (hhi : e < c.configBase.toNat + 5) (hx : ¬ (c.configBase.toNat ≤ x ∧ x < c.configBase.toNat + 5)) :
    SparedBy c t (· = x) e := by
  refine ⟨hlt, Target.has_of_config hlo hhi, ?_⟩
  rintro _ rfl
  rw [Target.pageOf_of_le hflash, Bool.eq_false_iff]
  exact mt inRange_iff.1 hx

section Memory

variable {s : State} (hc : Contract s)
include hc

/-- A byte of `TMem` after a stopped WRITE has no bit that it did not have before, and outside the range it is as it was
(R320). -/
theorem stopped_write_read {i : Instr} {a : Word32} {buf : List Byte} {p : Plan} (hwf : s.target.mem.wf = true)
    (hi : i = .write a buf ∨ i = .flashWrite a buf ∨ (i = .configWrite buf ∧ a = configAddress s.cfg))
    (hplan : planOf i s = some p) (hcov : s.target.covers s.cfg a.toNat buf.length) {n x : Nat} {b : Byte}
    (hb : (stopped i p n s).target.mem.read x = b) :
    b &&& s.target.mem.read x = b ∧ (¬ (a.toNat ≤ x ∧ x < a.toNat + buf.length) → b = s.target.mem.read x) := by
  obtain ⟨hadm, rfl⟩ := planOf_write hi hplan
  have htouch : touchWrite s.cfg s.target a.toNat buf.length = .lower a.toNat buf.length := by
    rw [touchWrite, hc.target, holds_of_covers hcov]
    rfl
  obtain ⟨hcut, hkept⟩ :=
    writeScript_cut hc.params hc.target hwf hadm.fits hadm.address hcov n (.running i 0 0 0)
  rw [htouch] at hb
  have hread := hb.symm.trans (read_lowered _ _ hcut _ _ x)
  by_cases hx : a.toNat ≤ x ∧ x < a.toNat + buf.length
  · rw [if_pos hx] at hread
    exact ⟨by rw [hread, BitVec.and_assoc, BitVec.and_self], fun hout => absurd hx hout⟩
  · rw [if_neg hx, hkept x hx] at hread
    exact ⟨by rw [hread, BitVec.and_self], fun _ => hread⟩

/-- A byte that no page of a stopped run of page erases holds is as it was (R75, R320). -/
theorem stopped_eraseEach_read {addrs : List Nat} {x : Nat} (hwf : s.target.mem.wf = true)
    (haddrs : ∀ e ∈ addrs, SparedBy s.cfg s.target (· = x) e) (slices : List Profile) (op : Instr) (n : Nat) :
    (stopped op ⟨eraseEach s.cfg addrs slices, touchErase s.cfg s.target addrs⟩ n s).target.mem.read x =
      s.target.mem.read x := by
  have htouch : touchErase s.cfg s.target addrs = .redraw (addrs.map (s.target.pageOf s.cfg)) := by
    have hhas : addrs.all (s.target.has s.cfg) = true := List.all_eq_true.2 fun e he => (haddrs e he).2.1
    rw [touchErase, hc.target, hhas]
    rfl
  have hcut := (cutScript_quiet (eraseEach s.cfg addrs slices) n { s with seq := .running op 0 0 0 }).target.2 hwf
  have hkept := eraseEach_cut hc.params n (s := { s with seq := .running op 0 0 0 }) (t := s.target) (X := (· = x))
    ⟨rfl, hc.target, rfl, rfl, fun _ _ => rfl⟩ ⟨addrs, slices, haddrs, .inl rfl⟩ x rfl
  rw [htouch]
  refine (read_redrawn _ _ x hcut fun page hpage hx => ?_).trans hkept
  obtain ⟨e, he, rfl⟩ := List.mem_map.1 hpage
  exact absurd (inRange_iff.2 hx) (Bool.eq_false_iff.1 ((haddrs e he).2.2 x rfl))

/-- What a stopped ERASE or FLASH_ERASE spares: in flash every byte outside the pages of its range, and in the Config region every
byte outside the block (R320). -/
theorem stopped_erase_read {i : Instr} {a : Word32} {k : Nat} {p : Plan} (hwf : s.target.mem.wf = true)
    (hi : (i = .erase a ∧ k = 1) ∨ (i = .configErase ∧ a = configAddress s.cfg ∧ k = 1) ∨ i = .flashErase a k)
    (hplan : planOf i s = some p) (n : Nat) :
    (a.toNat + k ≤ s.target.flash → ∀ x, (∀ e, a.toNat ≤ e → e < a.toNat + k → x / s.target.page ≠ e / s.target.page) →
      (stopped i p n s).target.mem.read x = s.target.mem.read x) ∧
    (s.target.flash ≤ a.toNat → s.cfg.configBase.toNat ≤ a.toNat → a.toNat + k ≤ s.cfg.configBase.toNat + 5 →
      ∀ x, ¬ (s.cfg.configBase.toNat ≤ x ∧ x < s.cfg.configBase.toNat + 5) →
        (stopped i p n s).target.mem.read x = s.target.mem.read x) := by
  obtain ⟨hadm, addrs, slices, rfl, hrange⟩ := planOf_erase hi hplan
  have hpos := hadm.nonempty
  have hfits := hadm.fits
  refine ⟨fun hflash x hx => stopped_eraseEach_read hc hwf (fun e he => ?flash) slices i n,
    fun hbeyond hlo hhi x hx => stopped_eraseEach_read hc hwf (fun e he => ?config) slices i n⟩
  all_goals obtain ⟨hle, hlt⟩ := hrange e he
  case flash =>
    have hpage : 0 < s.target.page := Nat.pos_of_ne_zero fun hzero => hx a.toNat le_rfl (by omega) (by simp [hzero])
    exact sparedBy_flash (by omega) (by omega) hpage (hx e hle hlt)
  case config => exact sparedBy_config (by omega) (by omega) (by omega) (by omega) hx

/-- A MASS_ERASE that is cut changes no byte beyond flash and the Config block (R76, R320). -/
theorem massEraseScript_cut {x : Nat} (hwf : s.target.mem.wf = true) (hflash : s.target.flash ≤ x)
    (hconfig : ¬ (s.cfg.configBase.toNat ≤ x ∧ x < s.cfg.configBase.toNat + 5)) (n : Nat) (q : Seq) :
    (cutScript n (massEraseScript s.cfg) { s with seq := q }).target.mem.read x = s.target.mem.read x := by
  have hready : s.target.ready = true := (Bool.and_eq_true_iff.1 hc.target).1
  have hword := congrArg (fun r => r.1.mem.read x)
    (onWord_massErase (k := s.draws) hc.params (paramArg_lt s.cfg.paramMassErase) hc.target)
  have herased := (read_massErased hwf (Config.drawMem s.draws) hconfig).trans (if_neg (not_lt.2 hflash))
  have hwhole := hword.trans herased
  have hpart (k : Nat) : (Micro.part k (.command s.cfg.opMassErase (paramArg s.cfg.paramMassErase) s.cfg.tRead)
      { s with seq := q }).target = s.target :=
    cutWord_expected (expectsWord_command hc.params hready (paramArg_lt _) (by simp))
  simp only [massEraseScript, cutScript]
  split
  case isTrue => split_ifs <;> exact hwhole
  case isFalse =>
    split
    case isTrue => rfl
    case isFalse => rw [hpart]

/-- A byte beyond flash and the Config block is as it was after a stopped MASS_ERASE (R320). -/
theorem stopped_massErase_read {x : Nat} {p : Plan} (hwf : s.target.mem.wf = true) (hflash : s.target.flash ≤ x)
    (hconfig : ¬ (s.cfg.configBase.toNat ≤ x ∧ x < s.cfg.configBase.toNat + 5)) (hplan : planOf .massErase s = some p) (n : Nat) :
    (stopped .massErase p n s).target.mem.read x = s.target.mem.read x := by
  obtain rfl := planOf_massErase hplan
  have hcut := (cutScript_quiet (massEraseScript s.cfg) n { s with seq := .running .massErase 0 0 0 }).target.2 hwf
  refine (read_redrawn _ _ x hcut ?_).trans (massEraseScript_cut hc hwf hflash hconfig n _)
  simp only [List.forall_mem_cons, List.not_mem_nil, false_imp_iff, implies_true, and_true]
  exact ⟨by omega, hconfig⟩

/-- The contract does not depend on the port or on the disruption that is pending. -/
theorem popped_contract (rest : List Request) : Contract { s with port := rest, disrupt := none } := ⟨hc.params, hc.target⟩

end Memory

/-- Settles O59: an operation that changes memory is stopped whenever its step completes; each cut spares the bytes its plan does not
name, and a WRITE's draw is AND-ed with the byte before. -/
theorem disruptedWriteLowersBitsOnly : Obligations.DisruptedWriteLowersBitsOnly := by
  unfold Obligations.DisruptedWriteLowersBitsOnly
  intro i steps s t r rest hport hdec hdis hstep
  have hstopped := stopped_of_step hport hdec hdis hstep
  refine ⟨fun hi => ?registers, fun hc hwf => ⟨fun a buf hi hcov x => ?write, fun a n hi => ?erase, ?massErase⟩⟩
  case registers =>
    obtain ⟨p, -, rfl⟩ := hstopped hi
    obtain ⟨-, hsess, hcid, hdid, hid, hcmp, hresult, -, -, -, hmode⟩ :=
      stopped_keeps i p steps { s with port := rest, disrupt := none }
    exact ⟨hmode, hsess, hcid, hdid, hid, hcmp, hresult⟩
  case write =>
    obtain ⟨p, hplan, rfl⟩ := hstopped (.inl ⟨a, 0, buf, by obtain rfl | rfl | ⟨rfl, -⟩ := hi <;> simp⟩)
    exact stopped_write_read (popped_contract hc rest) hwf hi hplan hcov rfl
  case erase =>
    obtain ⟨p, hplan, rfl⟩ := hstopped (.inl ⟨a, n, [], by obtain ⟨rfl, -⟩ | ⟨rfl, -⟩ | rfl := hi <;> simp⟩)
    exact stopped_erase_read (popped_contract hc rest) hwf hi hplan steps
  case massErase =>
    rintro rfl x hflash hconfig
    obtain ⟨p, hplan, rfl⟩ := hstopped (.inl ⟨0, 0, [], by simp⟩)
    exact stopped_massErase_read (popped_contract hc rest) hwf hflash hconfig hplan steps

end Sys2Proof.Machine
end
